-- ==== Sys2Proof/Word.lean ====
section
/-! DEFINITION. The word types of the decoder: a FIFO byte, a 16-bit header, count or footer, a 32-bit scalar. -/

namespace Sys2Proof

/-- A byte of the FIFO stream, 0 to 255 (R9). -/
abbrev Byte := BitVec 8

/-- A 16-bit header, mask, count or footer (R8, R24, R6 `COUNT_WIDTH`). -/
abbrev Half := BitVec 16

/-- A 32-bit value (R10). -/
abbrev Full := BitVec 32

end Sys2Proof
end

