-- ==== Sys2Proof/Config.lean ====
section
/-! DEFINITION. What a configuration of the decoder is made of (R6, R29): the types of the tables, the statuses, the
inputs, and the free values the spec leaves open. The default tables' contents stand in Machine/Tables.lean. -/

namespace Sys2Proof

/-- `READ_MODE` (R6, R29): 0 Transactional, 1 Destructive. -/
inductive ReadMode where
  | transactional
  | destructive
  deriving DecidableEq, Repr, Inhabited

/-- The statuses of R93, in the order the spec lists them; `reserved n` is the code `0xC + n`. -/
inductive Status where
  | ok
  | paramError
  | notImplemented
  | wrongDeviceId
  | noDataAvailable
  | busError
  | dmpNotSupported
  | dmpVerifyFailed
  | fifoNoDataAvailable
  | fifoMoreDataAvailable
  | sensorNotSupported
  | invalidDmpRegister
  | reserved (n : Fin 4)
  deriving DecidableEq, Repr, Inhabited

/-- The name of a field entry (R88). `other n` is a name of a substituted table (D17). -/
inductive FieldName where
  | rawAccel
  | rawGyro
  | compass
  | als
  | quat6
  | quat9
  | pquat6
  | geomag
  | pressure
  | gyroCalibr
  | compassCalibr
  | stepDetector
  | accelAccuracy
  | gyroAccuracy
  | compassAccuracy
  | fsync
  | pickup
  | activityRecog
  | secondaryOnOff
  | other (n : Nat)
  deriving DecidableEq, Repr, Inhabited

/-- The id of a permutation table (R183 to R188). `other n` is an id of a substituted table (D17). -/
inductive TableId where
  | pquat6
  | quat6
  | quat9
  | rawGyro
  | activity
  | secOnOff
  | other (n : Nat)
  deriving DecidableEq, Repr, Inhabited

/-- How a field's wire bytes become canonical bytes (R85). -/
inductive Fmt where
  | remap (t : TableId)
  | be16
  | be32
  | raw
  deriving DecidableEq, Repr, Inhabited

/-- An entry `(hdr, mask, name, len, fmt)` of `FIELD_TABLE` (R6). `hdr` is a plain number, because R7 checks it. -/
structure Entry where
  hdr : Nat
  mask : Half
  name : FieldName
  len : Nat
  fmt : Fmt
  deriving DecidableEq, Repr, Inhabited

/-- An entry of `PERM_TABLES` (R6): `dest[i]` is the destination index of wire byte `i` (R181). -/
structure PermTable where
  id : TableId
  dest : List Nat
  deriving DecidableEq, Repr, Inhabited

/-- The configuration inputs of R29, with the parameters of R6 that describe the tables. They hold constant between
resets (R66), but for `FW_PRESENT`. DESIGN CHOICE (log 17): `maxFieldLen` is a bound of its own, which need not be the largest
`len` of the table. DESIGN CHOICE (log 19): `hdr2Bit` may be any 16-bit value, not one bit alone. -/
structure Inputs where
  fwPresent : Bool
  readMode : ReadMode
  fieldTable : List Entry
  permTables : List PermTable
  hdr2Bit : Half
  maxFieldLen : Nat
  deriving DecidableEq, Repr, Inhabited

/-- One draw of the port oracle (R27): the status of a COUNT or READ, and the number of bytes that a failed READ of
Destructive mode loses (R72). -/
structure PortDraw where
  st : Status
  lost : Nat
  deriving DecidableEq, Repr, Inhabited

/-- `FIFO_DEPTH`, OPEN (R6, D8): a free value, below 2^16 by D9. Log 6. -/
opaque Config.fifoDepth : Half

/-- The port oracle's draw for the `n`-th transaction where no draw is listed (ID4, ID5): a free value. Log 4. -/
opaque Config.portDraw : Nat → PortDraw

end Sys2Proof
end

