-- ==== Sys2Proof/Syntax.lean ====
section
/-! DEFINITION. The rows of spec/opcode_table.json. The block has no instruction set: "Each header bit selects one
extraction rule, in the same way an opcode selects an instruction" (spec/30_encoding.md). The operands of a field are
its wire bytes, which the element reads from the FIFO, so only the groups of ignored bits carry an operand. -/

namespace Sys2Proof

/-- One constructor per row of the opcode table. -/
inductive Instr where
  /-- `DECODE`: the request with `FW_PRESENT = 1` (R121). -/
  | decode
  /-- `DECODE_NO_FW`: the request with `FW_PRESENT = 0` (R120). -/
  | decodeNoFw
  /-- `PRIMARY_HEADER` (R122). -/
  | primaryHeader
  /-- `SECONDARY_HEADER` (R123). -/
  | secondaryHeader
  /-- `RAW_ACCEL` (R150). -/
  | rawAccel
  /-- `RAW_GYRO` (R151). -/
  | rawGyro
  /-- `COMPASS` (R152). -/
  | compass
  /-- `ALS` (R153). -/
  | als
  /-- `QUAT6` (R154). -/
  | quat6
  /-- `QUAT9` (R155). -/
  | quat9
  /-- `PQUAT6` (R156). -/
  | pquat6
  /-- `GEOMAG` (R157). -/
  | geomag
  /-- `PRESSURE` (R158). -/
  | pressure
  /-- `GYRO_CALIBR` (R159). -/
  | gyroCalibr
  /-- `COMPASS_CALIBR` (R160). -/
  | compassCalibr
  /-- `STEP_DETECTOR` (R161). -/
  | stepDetector
  /-- `ACCEL_ACCURACY` (R162). -/
  | accelAccuracy
  /-- `GYRO_ACCURACY` (R163). -/
  | gyroAccuracy
  /-- `COMPASS_ACCURACY` (R164). -/
  | compassAccuracy
  /-- `FSYNC` (R165). -/
  | fsync
  /-- `PICKUP` (R166). -/
  | pickup
  /-- `ACTIVITY_RECOG` (R167). -/
  | activityRecog
  /-- `SECONDARY_ON_OFF` (R168). -/
  | secondaryOnOff
  /-- `BATCH_MODE_EN`: header-2 bit 8, a flag with no payload (R91). -/
  | batchModeEn
  /-- `RESERVED_HDR1_2_0`: the set bits among header-1 bits 2..0 (R90). -/
  | reservedHdr1Low (bits : BitVec 3)
  /-- `RESERVED_HDR2_15`: header-2 bit 15 (R90). -/
  | reservedHdr2Top
  /-- `RESERVED_HDR2_9`: header-2 bit 9 (R90). -/
  | reservedHdr2Mid
  /-- `RESERVED_HDR2_5_0`: the set bits among header-2 bits 5..0 (R90). -/
  | reservedHdr2Low (bits : BitVec 6)
  /-- `FOOTER` (R210). -/
  | footer
  deriving DecidableEq, Repr

/-- Where the bits of an instruction stand: the table's format column, with what the bits alone do not say. `DECODE` and
`DECODE_NO_FW` share one request strobe, and `FW_PRESENT` tells them apart; the first and the last two bytes of a record
have no opcode bits, and their place tells them apart. -/
inductive Slot where
  /-- CALLER_PORT, with the value of `FW_PRESENT` (R94, R120, R121). -/
  | request (fwPresent : Bool)
  /-- RECORD: the record's first two bytes (R80). -/
  | head
  /-- HDR1: the bits of the primary header (R82). -/
  | bits1
  /-- HDR2: the bits of the secondary header (R83). -/
  | bits2
  /-- RECORD: the record's last two bytes (R80). -/
  | tail
  deriving DecidableEq, Repr

end Sys2Proof
end

