-- ==== Sys2Proof/WellFormed.lean ====
section
/-! DEFINITION. What well-formed means: an instruction's operands, and the nine checks of R7 on the configuration,
each under a name of its own, with the constraint of R235 on `PORT_ERRORS`. -/

namespace Sys2Proof

/-- A group of ignored bits stands for at least one set bit ("any subset of these bits may be set", R90). -/
def Instr.wf : Instr → Bool
  | .reservedHdr1Low bits => bits != 0
  | .reservedHdr2Low bits => bits != 0
  | _ => true

/-- The number of set bits of a 16-bit value (R8 `popcount`). -/
def popcount (v : Half) : Nat := (List.range 16).countP fun i => v.getLsbD i

/-- The table a `Remap` format names, or none where `PERM_TABLES` has no such id. -/
def Inputs.permTable (c : Inputs) (t : TableId) : Option (List Nat) :=
  (c.permTables.find? fun p => p.id == t).map (·.dest)

/-- A list is a permutation of `0 .. n-1`: it has `n` elements and holds each of those numbers. -/
def isPermutation (dest : List Nat) (n : Nat) : Bool :=
  dest.length == n && (List.range n).all fun i => dest.contains i

/-- R7 check 1: every entry's `hdr` is 1 or 2. -/
def Inputs.hdrsOk (c : Inputs) : Bool := c.fieldTable.all fun e => e.hdr == 1 || e.hdr == 2

/-- R7 check 2: every `mask` has exactly one bit set. -/
def Inputs.masksOk (c : Inputs) : Bool := c.fieldTable.all fun e => popcount e.mask == 1

/-- No element of the list satisfies `r` with a later one. -/
def noPair (r : Entry → Entry → Bool) : List Entry → Bool
  | [] => true
  | e :: es => es.all (fun f => !r e f) && noPair r es

/-- R7 check 3: no two entries share the same `(hdr, mask)`. -/
def Inputs.bitsDistinct (c : Inputs) : Bool :=
  noPair (fun e f => e.hdr == f.hdr && e.mask == f.mask) c.fieldTable

/-- R7 check 4: no entry of header 1 has `mask = HDR2_BIT`. The masks are compared whole, as the check is written (log 19). -/
def Inputs.hdr2BitFree (c : Inputs) : Bool :=
  c.fieldTable.all fun e => !(e.hdr == 1 && e.mask == c.hdr2Bit)

/-- R7 check 5: every `len` is at least 1 and at most `MAX_FIELD_LEN`. DESIGN CHOICE (log 17): the bound may be larger than
every `len`, although R6 calls it the largest `len` in `FIELD_TABLE`. -/
def Inputs.lensOk (c : Inputs) : Bool :=
  c.fieldTable.all fun e => decide (1 ≤ e.len) && decide (e.len ≤ c.maxFieldLen)

/-- R7 check 6: every `Remap(t)` names a table of `PERM_TABLES` whose length equals `len`. -/
def Inputs.remapLensOk (c : Inputs) : Bool :=
  c.fieldTable.all fun e =>
    match e.fmt with
    | .remap t => match c.permTable t with
      | some dest => dest.length == e.len
      | none => false
    | _ => true

/-- R7 check 7: that table is a permutation of `0 .. len-1`. -/
def Inputs.remapPermsOk (c : Inputs) : Bool :=
  c.fieldTable.all fun e =>
    match e.fmt with
    | .remap t => match c.permTable t with
      | some dest => isPermutation dest e.len
      | none => false
    | _ => true

/-- R7 check 8: every `BE16` has `len = 2`, and every `BE32` has `len = 4`. -/
def Inputs.scalarLensOk (c : Inputs) : Bool :=
  c.fieldTable.all fun e =>
    match e.fmt with
    | .be16 => e.len == 2
    | .be32 => e.len == 4
    | _ => true

/-- R7 check 9: all header-1 entries come before all header-2 entries. -/
def Inputs.hdrOrderOk (c : Inputs) : Bool :=
  noPair (fun e f => e.hdr == 2 && f.hdr == 1) c.fieldTable

/-- A configuration is well-formed when all nine checks of R7 hold. DESIGN CHOICE (log 19): R6 calls `HDR2_BIT` a bit of the
primary header, but no check of R7 asks that it be exactly one bit, so any 16-bit value of it is accepted. -/
def Inputs.wf (c : Inputs) : Bool :=
  c.hdrsOk && c.masksOk && c.bitsDistinct && c.hdr2BitFree && c.lensOk && c.remapLensOk && c.remapPermsOk &&
    c.scalarLensOk && c.hdrOrderOk

/-- R235: `PORT_ERRORS` excludes `Ok` and the decoder's own statuses. -/
def portErrorsOk (l : List Status) : Bool :=
  !l.contains .ok && !l.contains .fifoNoDataAvailable && !l.contains .fifoMoreDataAvailable &&
    !l.contains .dmpNotSupported

end Sys2Proof
end

