-- ==== Sys2Proof/Decode.lean ====
section
/-! DEFINITION. Byte assembly (R10), the status codes (R93), and the decoding of a request or a header value into the
opcode-table rows it selects (R82, R83, R94), with the encoder after it. The opcode bits are those of
spec/opcode_table.json, the default table's (log 11). -/

namespace Sys2Proof

/-! ## Conversions (R10) -/

/-- `be16(b0, b1) = (b0 << 8) | b1` (R10). -/
def be16 (b0 b1 : Byte) : Half := (b0.setWidth 16 <<< 8) ||| b1.setWidth 16

/-- `be32(b0, b1, b2, b3)` (R10). -/
def be32 (b0 b1 b2 b3 : Byte) : Full :=
  (b0.setWidth 32 <<< 24) ||| (b1.setWidth 32 <<< 16) ||| (b2.setWidth 32 <<< 8) ||| b3.setWidth 32

/-- The byte at index `i` (R9). No rule reads past the end of a list; 0 stands there only to make the function total. -/
def byteAt (bs : List Byte) (i : Nat) : Byte := bs.getD i 0

/-- `le16(bs, o)` (R10). -/
def le16 (bs : List Byte) (o : Nat) : Half := be16 (byteAt bs (o + 1)) (byteAt bs o)

/-- `le32(bs, o)` (R10). -/
def le32 (bs : List Byte) (o : Nat) : Full :=
  be32 (byteAt bs (o + 3)) (byteAt bs (o + 2)) (byteAt bs (o + 1)) (byteAt bs o)

/-- `sext_N(v)`: an N-bit value read as two's complement (R10). -/
def sext {n : Nat} (v : BitVec n) : Int := v.toInt

/-- `zext_N(v)`: the value unchanged (R10). -/
def zext {n : Nat} (v : BitVec n) : Int := v.toNat

/-- The value of a header or of the footer from its two wire bytes (R84, R60). -/
def headerValue (bs : List Byte) : Half := be16 (byteAt bs 0) (byteAt bs 1)

/-- The two wire bytes of a 16-bit value, most significant first (R58). -/
def wireBytes (h : Half) : List Byte := [(h >>> 8).setWidth 8, h.setWidth 8]

/-! ## Status codes (R93) -/

/-- The 4-bit code of a status (R93). -/
def Status.code : Status → BitVec 4
  | .ok => 0x0
  | .paramError => 0x1
  | .notImplemented => 0x2
  | .wrongDeviceId => 0x3
  | .noDataAvailable => 0x4
  | .busError => 0x5
  | .dmpNotSupported => 0x6
  | .dmpVerifyFailed => 0x7
  | .fifoNoDataAvailable => 0x8
  | .fifoMoreDataAvailable => 0x9
  | .sensorNotSupported => 0xA
  | .invalidDmpRegister => 0xB
  | .reserved n => 0xC + BitVec.ofNat 4 n.val

/-- The status a 4-bit code stands for (R93). -/
def Status.ofCode (c : BitVec 4) : Status :=
  match c.toNat with
  | 0 => .ok
  | 1 => .paramError
  | 2 => .notImplemented
  | 3 => .wrongDeviceId
  | 4 => .noDataAvailable
  | 5 => .busError
  | 6 => .dmpNotSupported
  | 7 => .dmpVerifyFailed
  | 8 => .fifoNoDataAvailable
  | 9 => .fifoMoreDataAvailable
  | 10 => .sensorNotSupported
  | 11 => .invalidDmpRegister
  | 12 => .reserved 0
  | 13 => .reserved 1
  | 14 => .reserved 2
  | _ => .reserved 3

/-! ## Decoding -/

/-- The header-1 bits that stand for one row each (R82), in the order the decoder acts on them: the secondary header
follows the primary one, then come the fields in scan order (R140, R86). -/
def hdr1Ops : List (Half × Instr) :=
  [(0x0008, .secondaryHeader), (0x8000, .rawAccel), (0x4000, .rawGyro), (0x2000, .compass), (0x1000, .als),
   (0x0800, .quat6), (0x0400, .quat9), (0x0200, .pquat6), (0x0100, .geomag), (0x0080, .pressure),
   (0x0040, .gyroCalibr), (0x0020, .compassCalibr), (0x0010, .stepDetector)]

/-- The header-2 bits that stand for one row each (R83): the fields in scan order, then the bits with no payload. -/
def hdr2Ops : List (Half × Instr) :=
  [(0x4000, .accelAccuracy), (0x2000, .gyroAccuracy), (0x1000, .compassAccuracy), (0x0800, .fsync),
   (0x0400, .pickup), (0x0080, .activityRecog), (0x0040, .secondaryOnOff), (0x0100, .batchModeEn),
   (0x8000, .reservedHdr2Top), (0x0200, .reservedHdr2Mid)]

/-- The rows of a list whose bit a header value sets. -/
def selected (ops : List (Half × Instr)) (w : Half) : List Instr :=
  (ops.filter fun op => w &&& op.1 != 0).map (·.2)

/-- The instructions a primary header value selects (R82). Every value is legal (R90). -/
def hdr1Instrs (w : Half) : List Instr :=
  selected hdr1Ops w ++ (if w.setWidth 3 = 0 then [] else [.reservedHdr1Low (w.setWidth 3)])

/-- The instructions a secondary header value selects (R83). Every value is legal (R90). -/
def hdr2Instrs (w : Half) : List Instr :=
  selected hdr2Ops w ++ (if w.setWidth 6 = 0 then [] else [.reservedHdr2Low (w.setWidth 6)])

/-- Why bytes are no instruction. -/
inductive DecodeError where
  /-- The list ends before the slot's bytes do. -/
  | truncated
  /-- A request that is not the strobe `req = 1` ("A request that carries any other value does not exist", R94). -/
  | noSuchRequest
  deriving DecidableEq, Repr

/-- What decoding answers: the instructions selected and the bytes that follow, or why there are none. -/
inductive Decoded where
  | ok (instrs : List Instr) (rest : List Byte)
  | error (e : DecodeError)
  deriving DecidableEq, Repr

/-- The instructions that the bytes of a slot select, with the bytes that follow. Total on any bytes: a header value
selects zero or more rows, and a record's first and last two bytes are the header and the footer whatever they hold. -/
def decode : Slot → List Byte → Decoded
  | .request fw, b :: rest =>
    if b = 1 then .ok [if fw then .decode else .decodeNoFw] rest else .error .noSuchRequest
  | .head, _ :: _ :: rest => .ok [.primaryHeader] rest
  | .bits1, b0 :: b1 :: rest => .ok (hdr1Instrs (be16 b0 b1)) rest
  | .bits2, b0 :: b1 :: rest => .ok (hdr2Instrs (be16 b0 b1)) rest
  | .tail, _ :: _ :: rest => .ok [.footer] rest
  | _, _ => .error .truncated

/-! ## Encoding -/

/-- The slot an instruction stands in (the format column of the opcode table). -/
def slotOf : Instr → Slot
  | .decode => .request true
  | .decodeNoFw => .request false
  | .primaryHeader => .head
  | .secondaryHeader | .rawAccel | .rawGyro | .compass | .als | .quat6 | .quat9 | .pquat6 | .geomag | .pressure
  | .gyroCalibr | .compassCalibr | .stepDetector | .reservedHdr1Low _ => .bits1
  | .accelAccuracy | .gyroAccuracy | .compassAccuracy | .fsync | .pickup | .activityRecog | .secondaryOnOff
  | .batchModeEn | .reservedHdr2Top | .reservedHdr2Mid | .reservedHdr2Low _ => .bits2
  | .footer => .tail

/-- The match value of an instruction's row in the opcode table; for a group of ignored bits, the set bits of it. -/
def opcodeWord : Instr → Half
  | .decode => 0x0001
  | .decodeNoFw => 0x0001
  | .primaryHeader => 0x0000
  | .secondaryHeader => 0x0008
  | .rawAccel => 0x8000
  | .rawGyro => 0x4000
  | .compass => 0x2000
  | .als => 0x1000
  | .quat6 => 0x0800
  | .quat9 => 0x0400
  | .pquat6 => 0x0200
  | .geomag => 0x0100
  | .pressure => 0x0080
  | .gyroCalibr => 0x0040
  | .compassCalibr => 0x0020
  | .stepDetector => 0x0010
  | .accelAccuracy => 0x4000
  | .gyroAccuracy => 0x2000
  | .compassAccuracy => 0x1000
  | .fsync => 0x0800
  | .pickup => 0x0400
  | .activityRecog => 0x0080
  | .secondaryOnOff => 0x0040
  | .batchModeEn => 0x0100
  | .reservedHdr1Low bits => bits.setWidth 16
  | .reservedHdr2Top => 0x8000
  | .reservedHdr2Mid => 0x0200
  | .reservedHdr2Low bits => bits.setWidth 16
  | .footer => 0x0000

/-- The slot's width in bytes: the request is one byte, a header or the footer two. -/
def Slot.width : Slot → Nat
  | .request _ => 1
  | _ => 2

/-- The bytes of an instruction: the request strobe, or a 16-bit value most significant byte first (R58, R94). -/
def encode (i : Instr) : List Byte :=
  match slotOf i with
  | .request _ => [(opcodeWord i).setWidth 8]
  | _ => wireBytes (opcodeWord i)

/-! ## The table's words -/

/-- The single instruction of a list, or none. -/
def onlyOne : List Instr → Option Instr
  | [i] => some i
  | _ => none

/-- The instructions the decoder reads from a slot's bytes; none where it refuses. -/
def instrsAt (slot : Slot) (bs : List Byte) : List Instr :=
  match decode slot bs with
  | .ok is _ => is
  | .error _ => []

/-- The instruction the decoder reads from a word of the opcode table. The word does not say which slot it stands in (the
two headers use the same bit positions), so the slots are tried in turn: a request of one byte; the header-1 bits, then
the header-2 bits, where the word selects exactly one row; the first row that the word selects as a primary header; and a
word that selects none is a record's first two bytes. A request is read as with `FW_PRESENT = 1`. Log 10. -/
def decodeTableWord (nbits w : Nat) : Option Instr :=
  if nbits ≤ 8 ∧ w = 1 then (instrsAt (.request true) [BitVec.ofNat 8 w]).head?
  else if 65536 ≤ w then none
  else
    let bs := wireBytes (BitVec.ofNat 16 w)
    match onlyOne (instrsAt .bits1 bs) with
    | some i => some i
    | none =>
      match onlyOne (instrsAt .bits2 bs) with
      | some i => some i
      | none => (instrsAt .bits1 bs ++ instrsAt .head bs).head?

end Sys2Proof
end

