-- ==== Sys2Proof/Machine/Tables.lean ====
section
/-! DEFINITION. The default tables (R88, R183 to R188) and the parameter values of R6. -/

namespace Sys2Proof.Machine

/-- The default `FIELD_TABLE`, in scan order (R88). -/
def defaultFieldTable : List Entry :=
  [⟨1, 0x8000, .rawAccel, 6, .remap .pquat6⟩,
   ⟨1, 0x4000, .rawGyro, 12, .remap .rawGyro⟩,
   ⟨1, 0x2000, .compass, 6, .remap .pquat6⟩,
   ⟨1, 0x1000, .als, 8, .raw⟩,
   ⟨1, 0x0800, .quat6, 12, .remap .quat6⟩,
   ⟨1, 0x0400, .quat9, 14, .remap .quat9⟩,
   ⟨1, 0x0200, .pquat6, 6, .remap .pquat6⟩,
   ⟨1, 0x0100, .geomag, 14, .remap .quat9⟩,
   ⟨1, 0x0080, .pressure, 6, .raw⟩,
   ⟨1, 0x0040, .gyroCalibr, 12, .remap .quat6⟩,
   ⟨1, 0x0020, .compassCalibr, 12, .remap .quat6⟩,
   ⟨1, 0x0010, .stepDetector, 4, .be32⟩,
   ⟨2, 0x4000, .accelAccuracy, 2, .be16⟩,
   ⟨2, 0x2000, .gyroAccuracy, 2, .be16⟩,
   ⟨2, 0x1000, .compassAccuracy, 2, .be16⟩,
   ⟨2, 0x0800, .fsync, 2, .be16⟩,
   ⟨2, 0x0400, .pickup, 2, .be16⟩,
   ⟨2, 0x0080, .activityRecog, 6, .remap .activity⟩,
   ⟨2, 0x0040, .secondaryOnOff, 2, .remap .secOnOff⟩]

/-- The default `PERM_TABLES` (R183 to R188). -/
def defaultPermTables : List PermTable :=
  [⟨.pquat6, [1, 0, 3, 2, 5, 4]⟩,
   ⟨.quat6, [3, 2, 1, 0, 7, 6, 5, 4, 11, 10, 9, 8]⟩,
   ⟨.quat9, [3, 2, 1, 0, 7, 6, 5, 4, 11, 10, 9, 8, 13, 12]⟩,
   ⟨.rawGyro, [1, 0, 3, 2, 5, 4, 7, 6, 9, 8, 11, 10]⟩,
   ⟨.activity, [0, 1, 5, 4, 3, 2]⟩,
   ⟨.secOnOff, [1, 0]⟩]

/-- The parameter values of R6: no firmware yet (R37), Transactional reads, the default tables, `HDR2_BIT = 0x0008`,
`MAX_FIELD_LEN = 14`. -/
def defaultInputs : Inputs where
  fwPresent := false
  readMode := .transactional
  fieldTable := defaultFieldTable
  permTables := defaultPermTables
  hdr2Bit := 0x0008
  maxFieldLen := 14

/-- The default `PORT_ERRORS` (R6, R235). -/
def defaultPortErrors : List Status := [.paramError, .notImplemented, .busError]

end Sys2Proof.Machine
end

