-- ==== Sys2Proof/Machine/State.lean ====
section
/-! DEFINITION. The machine's state as plain data, the reasons a step can stop, and the state after reset. -/

namespace Sys2Proof.Machine

/-- An element of a record (R25). `fld k` is an index into `FIELD_TABLE`. -/
inductive Elem where
  | hdr1
  | hdr2
  | fld (k : Nat)
  | footer
  deriving DecidableEq, Repr

/-- The phase register (R25): the element to extract next, and whether the length has been queried again for it. -/
inductive Phase where
  | idle
  | start
  | need (e : Elem) (queried : Bool)
  | finish (s : Status)
  deriving DecidableEq, Repr

/-- The canonical bytes of a field that an attempt extracted (R24). -/
structure FieldVal where
  name : FieldName
  bytes : List Byte
  deriving DecidableEq, Repr

/-- A record (R24). `fld` lists the fields that hold a value, by rising code of their names; a field it does not list is
`none` (R35). -/
structure Record where
  header : Half
  header2 : Half
  fld : List FieldVal
  footer : Option Half
  deriving DecidableEq, Repr

/-- A response of the caller port (R28). -/
structure Response where
  status : Status
  record : Option Record
  deriving DecidableEq, Repr

/-- A move of an agent (R20). Which one comes next is a draw; a schedule lists them (log 3). -/
inductive Move where
  /-- The decoder takes one step (R21). -/
  | decoder
  /-- The producer appends a non-empty byte list (R57). -/
  | append (first : Byte) (rest : List Byte)
  /-- The caller issues `DECODE` (R28). -/
  | request
  /-- The platform sets the configuration inputs (R66, R269). -/
  | configure (c : Inputs)
  /-- The decoder is reset, with the inputs that hold from then on (R260, R66). -/
  | reset (c : Inputs)
  deriving DecidableEq, Repr

/-- The whole machine: the decoder's registers, the FIFO, the caller port's response, the configuration, and, as the
model's own fields, the agents' moves and the port oracle's draws still to come. -/
structure State where
  /-- The phase register (R25). -/
  phase : Phase
  /-- The remaining known length (R23). -/
  rem : Half
  /-- The working record (R24). -/
  record : Record
  /-- The bytes appended and not committed, oldest first (R30). -/
  q : List Byte
  /-- The number of bytes of `q` the attempt has read (R30). -/
  cur : Nat
  /-- The pending response (R28, R37). -/
  response : Option Response
  /-- The configuration inputs (R29). -/
  inputs : Inputs
  /-- `FIFO_DEPTH` (R6, D9). -/
  fifoDepth : Half
  /-- `PORT_ERRORS` (R6). -/
  portErrors : List Status
  /-- The model's own: the moves still to come; the decoder moves where none is listed. Log 3. -/
  schedule : List Move
  /-- The model's own: the port oracle's draws that are listed; `Config.portDraw` draws where none is. Log 4. -/
  oracle : List PortDraw
  /-- The model's own: the COUNT and READ transactions made, which index `Config.portDraw`. Log 4. -/
  txns : Nat
  deriving DecidableEq, Repr

/-- Why the machine stops with a fault. None is a status the hardware returns (R240). -/
inductive Fault where
  /-- A READ of more bytes than the FIFO can still give (R245). Raised by the extraction step. Safe: the model stops where
  the chip does something the source does not give. -/
  | fifoUnderflow
  /-- A producer append that would exceed `FIFO_DEPTH` (R246). Raised by the producer's move. Safe: the overflow policy is
  OPEN. -/
  | fifoOverflow
  /-- The phase names an entry that `FIELD_TABLE` lacks. Raised by the element step. Safe: no run reaches such a phase.
  Log 12. -/
  | noSuchEntry
  deriving DecidableEq, Repr

/-- Why a step is refused. -/
inductive Refusal where
  /-- The instruction has no meaning yet. Raised by `exec` alone. Safe. -/
  | notModelled (mnemonic : String)
  /-- The tables fail R7 (R247). Raised by the step before any agent moves, and by a lookup in such a table. Safe. -/
  | illFormedTable
  /-- `PORT_ERRORS` holds `Ok` or a status of the decoder's own (R235). Raised by the step before any agent moves. Safe. -/
  | illFormedPortErrors
  /-- A change of the configuration that R66 and R269 do not allow. Raised by the platform's move. Safe. -/
  | configChange
  deriving DecidableEq, Repr

/-- A record with nothing in it (R37, R121). -/
def Record.empty : Record where
  header := 0
  header2 := 0
  fld := []
  footer := none

/-- The machine after reset (R37). The FIFO's contents are OPEN there: the empty list is log 5's choice; `FIFO_DEPTH` is
log 6's free value; `schedule`, `oracle` and `txns` are the model's own (logs 3 and 4). -/
def State.reset : State where
  phase := .idle
  rem := 0
  record := Record.empty
  q := []
  cur := 0
  response := none
  inputs := defaultInputs
  fifoDepth := Config.fifoDepth
  portErrors := defaultPortErrors
  schedule := []
  oracle := []
  txns := 0

end Sys2Proof.Machine
end

