-- ==== Sys2Proof/Machine/Flags.lean ====
section
/-! DEFINITION. The decoder's condition codes (R34): the presence bits, which follow from the headers (R32), and the
statuses that complete an attempt. -/

namespace Sys2Proof.Machine

/-- `present(Hdr2)` (R32): `HDR2_BIT` is a mask, of which any set bit announces the secondary header (log 19). -/
def hdr2Present (c : Inputs) (h1 : Half) : Bool := h1 &&& c.hdr2Bit != 0

/-- `present(E)` for an entry of `FIELD_TABLE` (R32). -/
def entryPresent (h1 h2 : Half) (e : Entry) : Bool := (if e.hdr = 1 then h1 else h2) &&& e.mask != 0

/-- The status an attempt completes with, from the count left after the footer (R212). -/
def completionStatus (rem : Half) : Status :=
  if rem.toNat > 0 then .fifoMoreDataAvailable else .ok

/-- The statuses that publish the record and commit the bytes (R214, R215). -/
def publishes (st : Status) : Bool := st == .ok || st == .fifoMoreDataAvailable

/-- The tier of a status a response carries (R231, R239). -/
inductive Tier where
  | success
  | recoverableByRetry
  | untilFirmwareIsPresent
  | fatalToTheCall
  deriving DecidableEq, Repr

/-- The tier of a status (R231): a status that is not the decoder's own is the port's, passed up verbatim (R233). DESIGN
CHOICE (log 18): `Ok` is a success, as R231's table has it, though R213 says that the source places both completion statuses
among those recoverable by a retry. -/
def tierOf : Status → Tier
  | .ok => .success
  | .fifoMoreDataAvailable | .fifoNoDataAvailable => .recoverableByRetry
  | .dmpNotSupported => .untilFirmwareIsPresent
  | _ => .fatalToTheCall

end Sys2Proof.Machine
end

