-- ==== Sys2Proof/Machine/Operands.lean ====
section
/-! DEFINITION. The operand forms: the elements' lengths (R26), the order of the elements (R140), the byte-reorder
pipeline (R180 to R189), the record's fields by name (R24), and the views a consumer takes of canonical bytes (R190). -/

namespace Sys2Proof.Machine

/-! ## Element lengths and order -/

/-- `HEADER_LEN` (R6). -/
def headerLen : Nat := 2

/-- `FOOTER_LEN` (R6). -/
def footerLen : Nat := 2

/-- `len(e)` (R26); none for an index past the end of `FIELD_TABLE`. -/
def elemLen (c : Inputs) : Elem → Option Nat
  | .hdr1 => some headerLen
  | .hdr2 => some headerLen
  | .fld k => c.fieldTable[k]?.map (·.len)
  | .footer => some footerLen

/-- The first entry of a list that is present, the list's first entry having index `k`; the footer where none is. -/
def firstFrom (h1 h2 : Half) : List Entry → Nat → Elem
  | [], _ => .footer
  | e :: es, k => if entryPresent h1 h2 e then .fld k else firstFrom h1 h2 es (k + 1)

/-- `firstField(j)` (R140). -/
def firstField (c : Inputs) (r : Record) (j : Nat) : Elem :=
  firstFrom r.header r.header2 (c.fieldTable.drop j) j

/-- `next(e)` (R140). The footer has no next element: its extraction ends in `Finish` (R212). -/
def nextElem (c : Inputs) (r : Record) : Elem → Elem
  | .hdr1 => if hdr2Present c r.header then .hdr2 else firstField c r 0
  | .hdr2 => firstField c r 0
  | .fld k => firstField c r (k + 1)
  | .footer => .footer

/-! ## The byte-reorder pipeline -/

/-- The scatter stage (R181): lane by lane, wire byte `w[i]` goes to index `T[i]` of `c`. -/
def scatter : List Nat → List Byte → List (Option Byte) → List (Option Byte)
  | t :: ts, w :: ws, c => scatter ts ws (c.set t (some w))
  | _, _, c => c

/-- Every element of a list of options, where all are there. -/
def allSome {α : Type} : List (Option α) → Option (List α)
  | [] => some []
  | none :: _ => none
  | some a :: l => (allSome l).map (a :: ·)

/-- `remap(T, w)` (R181): none exactly where `T` is no permutation of `0 .. |w|-1`, since some canonical byte is then not
written. -/
def remap (dest : List Nat) (w : List Byte) : Option (List Byte) :=
  if dest.length = w.length then allSome (scatter dest w (List.replicate w.length none)) else none

/-- `wire(T, c)[i] = c[T[i]]` (R191): the wire bytes that `remap` takes to `c`. -/
def wire (dest : List Nat) (c : List Byte) : List Byte := dest.map fun t => byteAt c t

/-- `canon(fmt, w)` (R180); none where the format names no table, or one that is ill-formed (R194). -/
def canon (c : Inputs) : Fmt → List Byte → Option (List Byte)
  | .remap t, w => match c.permTable t with
    | some dest => remap dest w
    | none => none
  | .be16, w => some w
  | .be32, w => some w
  | .raw, w => some w

/-- The wire bytes of a field with these canonical bytes: the inverse of `canon` (R191, R182, R189). -/
def uncanon (c : Inputs) : Fmt → List Byte → Option (List Byte)
  | .remap t, b => (c.permTable t).map fun dest => wire dest b
  | .be16, b => some b
  | .be32, b => some b
  | .raw, b => some b

/-! ## The record's fields -/

/-- A number for each field name, by which a record lists its fields. -/
def nameCode : FieldName → Nat
  | .rawAccel => 0
  | .rawGyro => 1
  | .compass => 2
  | .als => 3
  | .quat6 => 4
  | .quat9 => 5
  | .pquat6 => 6
  | .geomag => 7
  | .pressure => 8
  | .gyroCalibr => 9
  | .compassCalibr => 10
  | .stepDetector => 11
  | .accelAccuracy => 12
  | .gyroAccuracy => 13
  | .compassAccuracy => 14
  | .fsync => 15
  | .pickup => 16
  | .activityRecog => 17
  | .secondaryOnOff => 18
  | .other n => 19 + n

/-- The bytes a list of fields holds for a name (R35: none where it holds none). -/
def fldGet (n : FieldName) : List FieldVal → Option (List Byte)
  | [] => none
  | v :: l => if v.name = n then some v.bytes else fldGet n l

/-- The list with a field's value written, in its place by the names' codes. -/
def fldSet (n : FieldName) (bs : List Byte) : List FieldVal → List FieldVal
  | [] => [⟨n, bs⟩]
  | v :: l =>
    if v.name = n then ⟨n, bs⟩ :: l
    else if nameCode n < nameCode v.name then ⟨n, bs⟩ :: v :: l
    else v :: fldSet n bs l

/-- `rec.fld[name]` (R24). -/
def Record.get (r : Record) (n : FieldName) : Option (List Byte) := fldGet n r.fld

/-- `rec.fld[name] <- some bs` (R143). -/
def Record.set (r : Record) (n : FieldName) (bs : List Byte) : Record := { r with fld := fldSet n bs r.fld }

/-- `apply(e, bs)` on the working record (R143); none where a lookup fails in an ill-formed table, or for an index past the
end of `FIELD_TABLE`. -/
def applyElem (c : Inputs) (e : Elem) (bs : List Byte) (r : Record) : Option Record :=
  match e with
  | .hdr1 => some { r with header := headerValue bs }
  | .hdr2 => some { r with header2 := headerValue bs }
  | .fld k => match c.fieldTable[k]? with
    | some ent => (canon c ent.fmt bs).map fun cs => r.set ent.name cs
    | none => none
  | .footer => some { r with footer := some (headerValue bs) }

/-! ## Record length and layout on the wire -/

/-- The total length of the entries of a list that are present. -/
def presentLen (h1 h2 : Half) : List Entry → Nat
  | [] => 0
  | e :: es => (if entryPresent h1 h2 e then e.len else 0) + presentLen h1 h2 es

/-- `L(h1, h2)` (R81). The last sum counts only where the primary header announces a secondary one. -/
def recordLen (c : Inputs) (h1 h2 : Half) : Nat :=
  headerLen + (if hdr2Present c h1 then headerLen else 0)
    + presentLen h1 h2 (c.fieldTable.filter fun e => e.hdr == 1)
    + (if hdr2Present c h1 then presentLen h1 h2 (c.fieldTable.filter fun e => e.hdr == 2) else 0)
    + footerLen

/-- The wire bytes of the present fields of a record, in table order (R80, R86); none where a present field holds no value
or its format names no table. -/
def fieldsOnWire (c : Inputs) (r : Record) : List Entry → Option (List Byte)
  | [] => some []
  | e :: es =>
    if entryPresent r.header r.header2 e then
      match r.get e.name with
      | some bs => match uncanon c e.fmt bs, fieldsOnWire c r es with
        | some w, some ws => some (w ++ ws)
        | _, _ => none
      | none => none
    else fieldsOnWire c r es

/-- A record on the wire (R80). -/
def recordOnWire (c : Inputs) (r : Record) : Option (List Byte) :=
  match fieldsOnWire c r c.fieldTable, r.footer with
  | some ws, some f =>
    some (wireBytes r.header ++ (if hdr2Present c r.header then wireBytes r.header2 else []) ++ ws ++ wireBytes f)
  | _, _ => none

/-! ## Views of canonical bytes -/

/-- An element a consumer reads from canonical bytes (R190): its place, its width in bits, its signedness, its name. -/
structure ElementView where
  offset : Nat
  width : Nat
  signed : Bool
  name : String
  deriving DecidableEq, Repr

/-- The elements of a default field that goes through a permutation table, as R190 lists them; the other fields have none
there. -/
def views : FieldName → List ElementView
  | .rawAccel | .compass => [⟨0, 16, true, "X"⟩, ⟨2, 16, true, "Y"⟩, ⟨4, 16, true, "Z"⟩]
  | .rawGyro =>
    [⟨0, 16, true, "X"⟩, ⟨2, 16, true, "Y"⟩, ⟨4, 16, true, "Z"⟩, ⟨6, 16, true, "BiasX"⟩, ⟨8, 16, true, "BiasY"⟩,
     ⟨10, 16, true, "BiasZ"⟩]
  | .quat6 => [⟨0, 32, true, "Q1"⟩, ⟨4, 32, true, "Q2"⟩, ⟨8, 32, true, "Q3"⟩]
  | .quat9 | .geomag =>
    [⟨0, 32, true, "Q1"⟩, ⟨4, 32, true, "Q2"⟩, ⟨8, 32, true, "Q3"⟩, ⟨12, 16, true, "Accuracy"⟩]
  | .pquat6 => [⟨0, 16, true, "Q1"⟩, ⟨2, 16, true, "Q2"⟩, ⟨4, 16, true, "Q3"⟩]
  | .gyroCalibr | .compassCalibr => [⟨0, 32, true, "X"⟩, ⟨4, 32, true, "Y"⟩, ⟨8, 32, true, "Z"⟩]
  | .activityRecog => [⟨0, 8, false, "State_Start"⟩, ⟨1, 8, false, "State_End"⟩, ⟨2, 32, false, "Timestamp"⟩]
  | .secondaryOnOff => [⟨0, 16, false, "Sensors"⟩]
  | _ => []

/-- The number a consumer reads for an element: `sext_N` or `zext_N` of `le_N(c, offset)` (R190). -/
def viewValue (v : ElementView) (c : List Byte) : Int :=
  match v.width with
  | 8 => if v.signed then sext (byteAt c v.offset) else zext (byteAt c v.offset)
  | 16 => if v.signed then sext (le16 c v.offset) else zext (le16 c v.offset)
  | _ => if v.signed then sext (le32 c v.offset) else zext (le32 c v.offset)

/-- The numeric value of a scalar field (R182, R85); none for the formats that have none or are read by elements. -/
def scalarValue : Fmt → List Byte → Option Nat
  | .be16, c => some (be16 (byteAt c 0) (byteAt c 1)).toNat
  | .be32, c => some (be32 (byteAt c 0) (byteAt c 1) (byteAt c 2) (byteAt c 3)).toNat
  | .remap _, _ => none
  | .raw, _ => none

end Sys2Proof.Machine
end

