-- ==== Sys2Proof/Machine/Ops.lean ====
section
/-! DEFINITION. The named operations of the decoder: the FIFO port's transactions (R54 to R56, R72), the early return
(R236) and the return from an attempt (R214, R237), the attempt's start (R120, R121), and the element step that every
header, field and footer goes through (R141, R142). -/

namespace Sys2Proof.Machine

/-- The result type of a step. -/
abbrev StepResult := Host.Outcome State Fault Refusal

/-! ## The FIFO port -/

/-- The port oracle's draw for the next transaction: the next one listed, or the free value (R27, log 4). -/
def State.draw (s : State) : PortDraw :=
  match s.oracle with
  | d :: _ => d
  | [] => Config.portDraw s.txns

/-- The status the next transaction answers: `Ok` or a member of `PORT_ERRORS` (R27, R54). Every such status is some draw's
answer; a draw of any other status stands for `Ok` (log 4). -/
def State.portStatus (s : State) : Status :=
  if s.portErrors.contains s.draw.st then s.draw.st else .ok

/-- The state once a draw is used up. -/
def State.afterDraw (s : State) : State := { s with oracle := s.oracle.tail, txns := s.txns + 1 }

/-- The number of bytes the attempt can still read, `|q| - cur` (R54). -/
def State.readable (s : State) : Nat := s.q.length - s.cur

/-- `FifoCount()` (R54): the status, the count (meaningless where the status is not `Ok`), and the state after it. -/
def fifoCount (s : State) : Status × Half × State :=
  (s.portStatus, BitVec.ofNat 16 s.readable, s.afterDraw)

/-- How a READ ends. -/
inductive ReadResult where
  | data (bs : List Byte) (s : State)
  | failed (st : Status) (s : State)
  | underflow

/-- The FIFO after a READ of `n` bytes that succeeds (R55). -/
def takeBytes (n : Nat) (s : State) : State :=
  match s.inputs.readMode with
  | .transactional => { s with cur := s.cur + n }
  | .destructive => { s with q := s.q.drop n }

/-- The bytes a READ of `n` bytes returns (R55). -/
def nextBytes (n : Nat) (s : State) : List Byte :=
  match s.inputs.readMode with
  | .transactional => (s.q.drop s.cur).take n
  | .destructive => s.q.take n

/-- The FIFO after a failed READ of `n` bytes (R72): `lost` is the oracle's draw, of which at most `n` bytes go. -/
def loseBytes (lost n : Nat) (s : State) : State :=
  match s.inputs.readMode with
  | .transactional => s
  | .destructive => { s with q := s.q.drop (min lost n) }

/-- `FifoRead(n)` (R55, R72). -/
def fifoRead (n : Nat) (s : State) : ReadResult :=
  if s.portStatus = .ok then
    if n ≤ s.readable then .data (nextBytes n s) (takeBytes n s.afterDraw) else .underflow
  else .failed s.portStatus (loseBytes s.draw.lost n s.afterDraw)

/-- `FifoRelease(commit)` (R56). -/
def fifoRelease (commit : Bool) (s : State) : State :=
  match s.inputs.readMode with
  | .transactional => if commit then { s with q := s.q.drop s.cur, cur := 0 } else { s with cur := 0 }
  | .destructive => s

/-! ## Early return and the return from an attempt -/

/-- `raise S`, the early return (R236): the Finish step of status `S` comes next. -/
def raiseStatus (st : Status) (s : State) : State := { s with phase := .finish st }

/-- The Finish step (R214): release, respond, and go back to Idle. -/
def finishAttempt (st : Status) (s : State) : State :=
  { fifoRelease (publishes st) s with
    response := some { status := st, record := if publishes st then some s.record else none }
    phase := .idle }

/-! ## The start of an attempt -/

/-- The Start step (R120, R121). -/
def startAttempt (s : State) : State :=
  if s.inputs.fwPresent then
    { s with record := Record.empty, rem := 0, phase := .need .hdr1 false }
  else raiseStatus .dmpNotSupported s

/-! ## The element step -/

/-- The re-query (R141). -/
def requery (e : Elem) (s : State) : State :=
  match fifoCount s with
  | (st, c, s') => if st = .ok then { s' with rem := c, phase := .need e true } else raiseStatus st s'

/-- The phase after an element's extraction (R142). -/
def phaseAfter (c : Inputs) (r : Record) (rem : Half) : Elem → Phase
  | .footer => .finish (completionStatus rem)
  | e => .need (nextElem c r e) false

/-- The extraction of an element of `n` bytes (R142). -/
def extract (e : Elem) (n : Nat) (s : State) : StepResult :=
  match fifoRead n s with
  | .underflow => .fault .fifoUnderflow
  | .failed st s' => .next (raiseStatus st s')
  | .data bs s' =>
    match applyElem s'.inputs e bs s'.record with
    | none => .refused .illFormedTable
    | some r =>
      .next { s' with
        record := r
        rem := s'.rem - BitVec.ofNat 16 n
        phase := phaseAfter s'.inputs r (s'.rem - BitVec.ofNat 16 n) e }

/-- The decoder step at `phase = Need e queried` (R141, R142). -/
def elementStep (e : Elem) (queried : Bool) (s : State) : StepResult :=
  match elemLen s.inputs e with
  | none => .fault .noSuchEntry
  | some n =>
    if s.rem.toNat < n then
      if queried then .next (raiseStatus .fifoNoDataAvailable s) else .next (requery e s)
    else extract e n s

/-- Whether the phase register says that the length has been queried again for this element (R144: it says so of no element
but the one it names). -/
def queriedFor (e : Elem) : Phase → Bool
  | .need e' queried => e' == e && queried
  | _ => false

/-- The element step of an element, with `queried` as the phase register has it. -/
def elementInstr (e : Elem) (s : State) : StepResult := elementStep e (queriedFor e s.phase) s

/-- The index of the first entry of a list with this name, the list's first entry having index `k`. -/
def indexFrom (n : FieldName) : List Entry → Nat → Option Nat
  | [], _ => none
  | e :: es, k => if e.name = n then some k else indexFrom n es (k + 1)

/-- The index of the field with this name: the entry the phase register names, where it has the name, or else the first
entry of `FIELD_TABLE` that has it. -/
def fieldIndex (n : FieldName) (s : State) : Option Nat :=
  match s.phase with
  | .need (.fld k) _ =>
    if (s.inputs.fieldTable[k]?.map (·.name)) = some n then some k else indexFrom n s.inputs.fieldTable 0
  | _ => indexFrom n s.inputs.fieldTable 0

/-- A header bit with no entry (R90, R91): no bytes, no status, and the header value is kept. -/
def ignoredBit (s : State) : StepResult := .next s

/-- The extraction of the field with this name. Where a substituted `FIELD_TABLE` has no such entry, the field's header bit
is a bit with no entry (R90). -/
def fieldInstr (n : FieldName) (s : State) : StepResult :=
  match fieldIndex n s with
  | some k => elementInstr (.fld k) s
  | none => ignoredBit s

end Sys2Proof.Machine
end

