-- ==== Sys2Proof/Machine/Caller.lean ====
section
/-! DEFINITION. The meanings of the two rows of the caller port. Both are the one request strobe (R94), so each does what
`FW_PRESENT` says: a row whose condition the input does not meet behaves as the other row. -/

namespace Sys2Proof.Machine

/-- `DECODE` (R121; R120 where `FW_PRESENT = 0`). -/
def execDecode (s : State) : StepResult := .next (startAttempt s)

/-- `DECODE_NO_FW` (R120; R121 where `FW_PRESENT = 1`). -/
def execDecodeNoFw (s : State) : StepResult := .next (startAttempt s)

end Sys2Proof.Machine
end

