-- ==== Sys2Proof/Machine/Fields.lean ====
section
/-! DEFINITION. The meanings of the 19 field rows (R150 to R168). The length and the format are those of the entry of
this name in `FIELD_TABLE`; the docstrings give the default table's. -/

namespace Sys2Proof.Machine

/-- `RAW_ACCEL` (R150): 6 bytes through PQUAT6. -/
def execRawAccel (s : State) : StepResult := fieldInstr .rawAccel s

/-- `RAW_GYRO` (R151): sample and bias, 12 bytes through RAW_GYRO. -/
def execRawGyro (s : State) : StepResult := fieldInstr .rawGyro s

/-- `COMPASS` (R152): 6 bytes through PQUAT6. -/
def execCompass (s : State) : StepResult := fieldInstr .compass s

/-- `ALS` (R153): 8 bytes as they stand. -/
def execAls (s : State) : StepResult := fieldInstr .als s

/-- `QUAT6` (R154): 12 bytes through QUAT6. -/
def execQuat6 (s : State) : StepResult := fieldInstr .quat6 s

/-- `QUAT9` (R155): 14 bytes through QUAT9. -/
def execQuat9 (s : State) : StepResult := fieldInstr .quat9 s

/-- `PQUAT6` (R156): 6 bytes through PQUAT6. -/
def execPquat6 (s : State) : StepResult := fieldInstr .pquat6 s

/-- `GEOMAG` (R157): 14 bytes through QUAT9. -/
def execGeomag (s : State) : StepResult := fieldInstr .geomag s

/-- `PRESSURE` (R158): 6 bytes as they stand. -/
def execPressure (s : State) : StepResult := fieldInstr .pressure s

/-- `GYRO_CALIBR` (R159): 12 bytes through QUAT6. -/
def execGyroCalibr (s : State) : StepResult := fieldInstr .gyroCalibr s

/-- `COMPASS_CALIBR` (R160): 12 bytes through QUAT6. -/
def execCompassCalibr (s : State) : StepResult := fieldInstr .compassCalibr s

/-- `STEP_DETECTOR` (R161): a big-endian 32-bit scalar. -/
def execStepDetector (s : State) : StepResult := fieldInstr .stepDetector s

/-- `ACCEL_ACCURACY` (R162): a big-endian 16-bit scalar. -/
def execAccelAccuracy (s : State) : StepResult := fieldInstr .accelAccuracy s

/-- `GYRO_ACCURACY` (R163): a big-endian 16-bit scalar. -/
def execGyroAccuracy (s : State) : StepResult := fieldInstr .gyroAccuracy s

/-- `COMPASS_ACCURACY` (R164): a big-endian 16-bit scalar. -/
def execCompassAccuracy (s : State) : StepResult := fieldInstr .compassAccuracy s

/-- `FSYNC` (R165): a big-endian 16-bit scalar. -/
def execFsync (s : State) : StepResult := fieldInstr .fsync s

/-- `PICKUP` (R166): a big-endian 16-bit scalar. -/
def execPickup (s : State) : StepResult := fieldInstr .pickup s

/-- `ACTIVITY_RECOG` (R167): 6 bytes through ACTIVITY. -/
def execActivityRecog (s : State) : StepResult := fieldInstr .activityRecog s

/-- `SECONDARY_ON_OFF` (R168): 2 bytes through SEC_ON_OFF. -/
def execSecondaryOnOff (s : State) : StepResult := fieldInstr .secondaryOnOff s

end Sys2Proof.Machine
end

