-- ==== Sys2Proof/Machine/Footer.lean ====
section
/-! DEFINITION. The meaning of the footer row (R210), whose extraction picks the completion status (R212). -/

namespace Sys2Proof.Machine

/-- `FOOTER` (R210). -/
def execFooter (s : State) : StepResult := elementInstr .footer s

end Sys2Proof.Machine
end

