-- ==== Sys2Proof/Machine/Headers.lean ====
section
/-! DEFINITION. The meanings of the two header rows (R122, R123) and of the header bits that gate no field (R90, R91). -/

namespace Sys2Proof.Machine

/-- `PRIMARY_HEADER` (R122). -/
def execPrimaryHeader (s : State) : StepResult := elementInstr .hdr1 s

/-- `SECONDARY_HEADER` (R123). -/
def execSecondaryHeader (s : State) : StepResult := elementInstr .hdr2 s

/-- `BATCH_MODE_EN` (R91). -/
def execBatchModeEn (s : State) : StepResult := ignoredBit s

/-- `RESERVED_HDR1_2_0` (R90): whichever of the bits are set. -/
def execReservedHdr1Low (_bits : BitVec 3) (s : State) : StepResult := ignoredBit s

/-- `RESERVED_HDR2_15` (R90). -/
def execReservedHdr2Top (s : State) : StepResult := ignoredBit s

/-- `RESERVED_HDR2_9` (R90). -/
def execReservedHdr2Mid (s : State) : StepResult := ignoredBit s

/-- `RESERVED_HDR2_5_0` (R90): whichever of the bits are set. -/
def execReservedHdr2Low (_bits : BitVec 6) (s : State) : StepResult := ignoredBit s

end Sys2Proof.Machine
end

