-- ==== Sys2Proof/Machine/Dispatch.lean ====
section
/-! DEFINITION. One arm per row of the opcode table, each a call of the row's meaning. -/

namespace Sys2Proof.Machine

def exec (i : Instr) (s : State) : Host.Outcome State Fault Refusal :=
  match i with
  | .decode => Sys2Proof.Machine.execDecode s
  | .decodeNoFw => Sys2Proof.Machine.execDecodeNoFw s
  | .primaryHeader => Sys2Proof.Machine.execPrimaryHeader s
  | .secondaryHeader => Sys2Proof.Machine.execSecondaryHeader s
  | .rawAccel => Sys2Proof.Machine.execRawAccel s
  | .rawGyro => Sys2Proof.Machine.execRawGyro s
  | .compass => Sys2Proof.Machine.execCompass s
  | .als => Sys2Proof.Machine.execAls s
  | .quat6 => Sys2Proof.Machine.execQuat6 s
  | .quat9 => Sys2Proof.Machine.execQuat9 s
  | .pquat6 => Sys2Proof.Machine.execPquat6 s
  | .geomag => Sys2Proof.Machine.execGeomag s
  | .pressure => Sys2Proof.Machine.execPressure s
  | .gyroCalibr => Sys2Proof.Machine.execGyroCalibr s
  | .compassCalibr => Sys2Proof.Machine.execCompassCalibr s
  | .stepDetector => Sys2Proof.Machine.execStepDetector s
  | .accelAccuracy => Sys2Proof.Machine.execAccelAccuracy s
  | .gyroAccuracy => Sys2Proof.Machine.execGyroAccuracy s
  | .compassAccuracy => Sys2Proof.Machine.execCompassAccuracy s
  | .fsync => Sys2Proof.Machine.execFsync s
  | .pickup => Sys2Proof.Machine.execPickup s
  | .activityRecog => Sys2Proof.Machine.execActivityRecog s
  | .secondaryOnOff => Sys2Proof.Machine.execSecondaryOnOff s
  | .batchModeEn => Sys2Proof.Machine.execBatchModeEn s
  | .reservedHdr1Low bits => Sys2Proof.Machine.execReservedHdr1Low bits s
  | .reservedHdr2Top => Sys2Proof.Machine.execReservedHdr2Top s
  | .reservedHdr2Mid => Sys2Proof.Machine.execReservedHdr2Mid s
  | .reservedHdr2Low bits => Sys2Proof.Machine.execReservedHdr2Low bits s
  | .footer => Sys2Proof.Machine.execFooter s

end Sys2Proof.Machine
end

