-- ==== Sys2Proof/Machine/Turn.lean ====
section
/-! DEFINITION. The agents' moves (R20): the decoder's turn, the producer's append (R57), the caller's request (R28), the
platform's change of configuration (R66, R269) and reset (R260, R261); and how an instruction is placed for the host. -/

namespace Sys2Proof.Machine

/-! ## The decoder's turn -/

/-- The row of the opcode table that extracts the field of this name; none for a name of a substituted table. -/
def instrOfName : FieldName → Option Instr
  | .rawAccel => some .rawAccel
  | .rawGyro => some .rawGyro
  | .compass => some .compass
  | .als => some .als
  | .quat6 => some .quat6
  | .quat9 => some .quat9
  | .pquat6 => some .pquat6
  | .geomag => some .geomag
  | .pressure => some .pressure
  | .gyroCalibr => some .gyroCalibr
  | .compassCalibr => some .compassCalibr
  | .stepDetector => some .stepDetector
  | .accelAccuracy => some .accelAccuracy
  | .gyroAccuracy => some .gyroAccuracy
  | .compassAccuracy => some .compassAccuracy
  | .fsync => some .fsync
  | .pickup => some .pickup
  | .activityRecog => some .activityRecog
  | .secondaryOnOff => some .secondaryOnOff
  | .other _ => none

/-- The instruction the phase register names (R25). Idle and Finish name none, nor does a field of a substituted table whose
name is no row of the opcode table. -/
def fetch (s : State) : Option Instr :=
  match s.phase with
  | .start => if s.inputs.fwPresent then some .decode else some .decodeNoFw
  | .need .hdr1 _ => some .primaryHeader
  | .need .hdr2 _ => some .secondaryHeader
  | .need (.fld k) _ => match s.inputs.fieldTable[k]? with
    | some e => instrOfName e.name
    | none => none
  | .need .footer _ => some .footer
  | .idle => none
  | .finish _ => none

/-- The decoder's step where the phase register names no row of the opcode table: Idle waits for a request (R262), Finish
ends the attempt (R214), and an entry of a substituted table is extracted as every element is (R142). -/
def stepWithoutRow (s : State) : StepResult :=
  match s.phase with
  | .idle => .next s
  | .start => .next (startAttempt s)
  | .need e queried => elementStep e queried s
  | .finish st => .next (finishAttempt st s)

/-- The decoder takes one step (R21). -/
def decoderTurn (s : State) : StepResult :=
  match fetch s with
  | some i => exec i s
  | none => stepWithoutRow s

/-! ## The other agents -/

/-- `Append(bs)` (R57): the fault where the FIFO would exceed `FIFO_DEPTH` (R246). -/
def producerAppend (bs : List Byte) (s : State) : StepResult :=
  if s.q.length + bs.length ≤ s.fifoDepth.toNat then .next { s with q := s.q ++ bs } else .fault .fifoOverflow

/-- The caller issues `DECODE` in Idle (R28). It has taken the response of the attempt before (log 8). -/
def acceptRequest (s : State) : State := { s with phase := .start, response := none }

/-- The platform sets the configuration inputs: only `FW_PRESENT` may change, and only in Idle (R66, R269, D15). -/
def configureInputs (c : Inputs) (s : State) : StepResult :=
  if c = s.inputs then .next s
  else if s.phase = .idle ∧ { s.inputs with fwPresent := c.fwPresent } = c then .next { s with inputs := c }
  else .refused .configChange

/-- A reset of the decoder, in any phase (R260, R261): the registers go to their reset values, the FIFO keeps its bytes, and
the configuration inputs hold as given from then on (R66). -/
def resetDecoder (c : Inputs) (s : State) : State :=
  { s with phase := .idle, rem := 0, record := Record.empty, cur := 0, response := none, inputs := c }

/-- The next move: the first one scheduled, or the decoder's where none is. A request waits while an attempt runs, and the
decoder moves in its place (R248). An ill-formed configuration is refused before any move (R247, R235). -/
def takeTurn (s : State) : StepResult :=
  if !s.inputs.wf then .refused .illFormedTable
  else if !portErrorsOk s.portErrors then .refused .illFormedPortErrors
  else match s.schedule with
    | [] => decoderTurn s
    | .decoder :: rest => decoderTurn { s with schedule := rest }
    | .append b bs :: rest => producerAppend (b :: bs) { s with schedule := rest }
    | .request :: rest =>
      if s.phase = .idle then .next (acceptRequest { s with schedule := rest }) else decoderTurn s
    | .configure c :: rest => configureInputs c { s with schedule := rest }
    | .reset c :: rest => .next (resetDecoder c { s with schedule := rest })

/-! ## Placing an instruction -/

/-- The name of the field an instruction extracts. -/
def fieldOf : Instr → Option FieldName
  | .rawAccel => some .rawAccel
  | .rawGyro => some .rawGyro
  | .compass => some .compass
  | .als => some .als
  | .quat6 => some .quat6
  | .quat9 => some .quat9
  | .pquat6 => some .pquat6
  | .geomag => some .geomag
  | .pressure => some .pressure
  | .gyroCalibr => some .gyroCalibr
  | .compassCalibr => some .compassCalibr
  | .stepDetector => some .stepDetector
  | .accelAccuracy => some .accelAccuracy
  | .gyroAccuracy => some .gyroAccuracy
  | .compassAccuracy => some .compassAccuracy
  | .fsync => some .fsync
  | .pickup => some .pickup
  | .activityRecog => some .activityRecog
  | .secondaryOnOff => some .secondaryOnOff
  | .decode | .decodeNoFw | .primaryHeader | .secondaryHeader | .batchModeEn | .reservedHdr1Low _ | .reservedHdr2Top
  | .reservedHdr2Mid | .reservedHdr2Low _ | .footer => none

/-- The element an instruction extracts in this state; none for a request, for an ignored bit, and for a field that a
substituted `FIELD_TABLE` lacks. -/
def elemOf (i : Instr) (s : State) : Option Elem :=
  match i with
  | .primaryHeader => some .hdr1
  | .secondaryHeader => some .hdr2
  | .footer => some .footer
  | i => match fieldOf i with
    | some n => (fieldIndex n s).map .fld
    | none => none

/-- The headers that select an instruction: its own word as header 1, or as header 2 behind a header 1 that announces it. -/
def headersFor (c : Inputs) (i : Instr) : Half × Half :=
  match slotOf i with
  | .bits1 => (opcodeWord i, 0)
  | .bits2 => (c.hdr2Bit, opcodeWord i)
  | _ => (0, 0)

/-- The operand bytes of a placed instruction: zeros, as many as the longest element has. -/
def placedBytes : List Byte := List.replicate 14 0

/-- The state in which the decoder moves next and runs the instruction (log 10). For a request, the phase is Start and
`FW_PRESENT` is as the row says. For an element, the headers select it, the phase names it, and its bytes, all zeros, stand
in the FIFO, are counted, and are read without a port error. An ignored bit takes no step of its own (R169): its header is
in place, and the phase is the one that follows it. -/
def placeInstr (i : Instr) (s : State) : State :=
  match i with
  | .decode => { s with schedule := [], phase := .start, inputs := { s.inputs with fwPresent := true } }
  | .decodeNoFw => { s with schedule := [], phase := .start, inputs := { s.inputs with fwPresent := false } }
  | i =>
    { s with
      schedule := []
      phase := .need ((elemOf i s).getD .footer) false
      rem := BitVec.ofNat 16 placedBytes.length
      record := { Record.empty with header := (headersFor s.inputs i).1, header2 := (headersFor s.inputs i).2 }
      q := s.q.take s.cur ++ placedBytes ++ s.q.drop s.cur
      oracle := { st := .ok, lost := 0 } :: s.oracle }

end Sys2Proof.Machine
end

