-- ==== Sys2Proof/Machine/Step.lean ====
section
/-! DEFINITION. One step of the machine, and the host's way to place an instruction. -/

namespace Sys2Proof.Machine

/-- One step: the next agent's move. -/
def step (s : State) : Host.Outcome State Fault Refusal := takeTurn s

/-- The state with the instruction of a table word placed where the next step runs it (log 10). -/
def State.withFetchWord (s : State) (nbits w : Nat) : State :=
  match decodeTableWord nbits w with
  | some i => placeInstr i s
  | none => s

end Sys2Proof.Machine
end

