-- ==== Sys2Proof/Safety.lean ====
section
/-! DEFINITION. What claims say of a run: the invariants of the machine's state, the accounting of an attempt's bytes and
fields, the statuses a response can carry, and the launch premises of R264. -/

namespace Sys2Proof.Machine

/-! ## The canonical forms -/

/-- The FIFO's form (R30): `cur ≤ |q| ≤ FIFO_DEPTH`, and `cur = 0` in Destructive mode. -/
def fifoWf (s : State) : Bool :=
  decide (s.cur ≤ s.q.length) && decide (s.q.length ≤ s.fifoDepth.toNat)
    && (s.inputs.readMode == .transactional || s.cur == 0)

/-- The codes of a list of fields rise strictly: the one form of a record's fields. -/
def fldSorted : List FieldVal → Bool
  | [] => true
  | v :: l => l.all (fun w => decide (nameCode v.name < nameCode w.name)) && fldSorted l

/-- The form of a record. -/
def recordWf (r : Record) : Bool := fldSorted r.fld

/-! ## The machine's invariant -/

/-- `cur = 0` in Idle and Start (R30). -/
def restsAtZero (s : State) : Bool :=
  match s.phase with
  | .idle | .start => s.cur == 0
  | _ => true

/-- `rem ≤ |q| - cur` in `Need` (R69). -/
def knownIsThere (s : State) : Bool :=
  match s.phase with
  | .need _ _ => decide (s.rem.toNat ≤ s.readable)
  | _ => true

/-- A field that the phase register names is a present entry of `FIELD_TABLE` (R25, R140). -/
def namesPresent (s : State) : Bool :=
  match s.phase with
  | .need (.fld k) _ => match s.inputs.fieldTable[k]? with
    | some e => entryPresent s.record.header s.record.header2 e
    | none => false
  | _ => true

/-- A response carries a record exactly when its status publishes one (R28, R215). -/
def respondsWell (s : State) : Bool :=
  match s.response with
  | some r => r.record.isSome == publishes r.status && (r.record.all recordWf)
  | none => true

/-- The invariant of the machine (R30, R69, R25, R28). -/
def StateInv (s : State) : Bool :=
  fifoWf s && restsAtZero s && knownIsThere s && namesPresent s && recordWf s.record && respondsWell s

/-! ## The accounting of an attempt -/

/-- The bytes of the elements that come before this one in a record with these headers (R80). -/
def bytesBefore (c : Inputs) (h1 h2 : Half) : Elem → Nat
  | .hdr1 => 0
  | .hdr2 => 2
  | .fld k => 2 + (if hdr2Present c h1 then 2 else 0) + presentLen h1 h2 (c.fieldTable.take k)
  | .footer => 2 + (if hdr2Present c h1 then 2 else 0) + presentLen h1 h2 c.fieldTable

/-- The number of entries of `FIELD_TABLE` that come before an element. -/
def entriesBefore (c : Inputs) : Elem → Nat
  | .hdr1 | .hdr2 => 0
  | .fld k => k
  | .footer => c.fieldTable.length

/-- A field holds a value of its entry's length where it is present, and none where it is not (R24, R35). -/
def fieldMatches (r : Record) (e : Entry) : Bool :=
  (r.get e.name).map List.length == if entryPresent r.header r.header2 e then some e.len else none

/-- No two entries have one name. R7 does not ask for this; R24 and R216 speak of one field per entry. -/
def namesDistinct (c : Inputs) : Bool := noPair (fun e f => e.name == f.name) c.fieldTable

/-- A secondary header that is not announced is 0 (R124, R216). -/
def header2Absent (c : Inputs) (r : Record) : Bool := hdr2Present c r.header || r.header2 == 0

/-- The headers are as the phase says: none read yet, a secondary one announced, or, past the headers, a secondary one that
is 0 where it is not announced (R121, R122, R124). -/
def headersAccounted (s : State) : Bool :=
  match s.phase with
  | .need .hdr1 _ => s.record.header == 0 && s.record.header2 == 0
  | .need .hdr2 _ => hdr2Present s.inputs s.record.header
  | .need _ _ => header2Absent s.inputs s.record
  | _ => true

/-- The first three clauses of R216. -/
def recordComplete (c : Inputs) (r : Record) : Bool :=
  r.footer.isSome && c.fieldTable.all (fieldMatches r) && header2Absent c r

/-- The working record at an element: what comes before it has been extracted, and nothing else. -/
def recordReached (c : Inputs) (e : Elem) (r : Record) : Bool :=
  r.footer.isNone
    && (c.fieldTable.take (entriesBefore c e)).all (fieldMatches r)
    && (c.fieldTable.drop (entriesBefore c e)).all (fun f => (r.get f.name).isNone)

/-- The bytes read are those of the elements extracted (R70, R216): in Transactional mode `cur` counts them. -/
def bytesAccounted (s : State) : Bool :=
  match s.inputs.readMode, s.phase with
  | .transactional, .need e _ => s.cur == bytesBefore s.inputs s.record.header s.record.header2 e
  | .transactional, .finish st =>
    !publishes st || s.cur == recordLen s.inputs s.record.header s.record.header2
  | _, _ => true

/-- The wire bytes of what comes before an element in a record (R80), from the record's headers and its fields before it. -/
def wireBefore (c : Inputs) (r : Record) : Elem → Option (List Byte)
  | .hdr1 => some []
  | .hdr2 => some (wireBytes r.header)
  | e => (fieldsOnWire c r (c.fieldTable.take (entriesBefore c e))).map fun ws =>
      wireBytes r.header ++ (if hdr2Present c r.header then wireBytes r.header2 else []) ++ ws

/-- In Transactional mode the bytes the attempt has read are the wire bytes of the working record's part before the element
that comes next, or of the whole record that is about to be published (R70, R80). -/
def bytesMatch (s : State) : Bool :=
  match s.inputs.readMode, s.phase with
  | .transactional, .need e _ => wireBefore s.inputs s.record e == some (s.q.take s.cur)
  | .transactional, .finish st => !publishes st || recordOnWire s.inputs s.record == some (s.q.take s.cur)
  | _, _ => true

/-- The working record holds what the phase says, and a record that is about to be published or that a response carries is
complete (R216). -/
def recordAccounted (s : State) : Bool :=
  (match s.phase with
    | .need e _ => recordReached s.inputs e s.record
    | .finish st => !publishes st || recordComplete s.inputs s.record
    | _ => true)
  && (match s.response with
    | some r => r.record.all (recordComplete s.inputs)
    | none => true)

/-- The accounting of an attempt (R70, R216): its headers and bytes, and, where every entry has a name of its own, its
fields, and which bytes they came from. -/
def Accounted (s : State) : Bool :=
  headersAccounted s && bytesAccounted s && (!namesDistinct s.inputs || (recordAccounted s && bytesMatch s))

/-! ## Statuses -/

/-- A status a response can carry (R231). -/
def mayRespond (portErrors : List Status) (st : Status) : Bool :=
  st == .ok || st == .fifoMoreDataAvailable || st == .fifoNoDataAvailable || st == .dmpNotSupported
    || portErrors.contains st

/-- The status about to be given, and the one given, are among those of R231. -/
def StatusesListed (s : State) : Bool :=
  (match s.phase with
    | .finish st => mayRespond s.portErrors st
    | _ => true)
  && (match s.response with
    | some r => mayRespond s.portErrors r.status
    | none => true)

/-! ## Launch premises (R264) -/

/-- The bytes of one complete record (R80). -/
def IsRecord (c : Inputs) (w : List Byte) : Prop :=
  ∃ r : Record, recordComplete c r = true ∧ recordOnWire c r = some w

/-- `Aligned`: zero or more complete records, followed by a prefix of one. -/
def Aligned (c : Inputs) (bs : List Byte) : Prop :=
  ∃ (whole : List (List Byte)) (part rest : List Byte),
    (∀ w ∈ whole, IsRecord c w) ∧ IsRecord c (part ++ rest) ∧ bs = whole.flatten ++ part

/-- The bytes the producer appends in a schedule. -/
def appended : List Move → List Byte
  | [] => []
  | .append b bs :: l => b :: bs ++ appended l
  | _ :: l => appended l

/-- `ProducerWellFormed`: every append continues the stream, so that every complete record in it has the shape of R80 under
the FIELD_TABLE configured when it comes. `stream` is what the FIFO held at launch and what was appended since. -/
def producerWellFormed (c : Inputs) (stream : List Byte) : List Move → Prop
  | [] => True
  | .append b bs :: l => Aligned c (stream ++ b :: bs) ∧ producerWellFormed c (stream ++ b :: bs) l
  | .reset c' :: l => producerWellFormed c' stream l
  | _ :: l => producerWellFormed c stream l

/-- `NoOverflow`: no append of the run exceeds `FIFO_DEPTH` (R246). What an attempt commits makes room for what is appended
after it. -/
def NoOverflow (s : State) : Prop := ∀ k, core.run k s ≠ .fault .fifoOverflow

/-- `TableOK`: the tables are well-formed (R7), those that a reset brings too. -/
def tablesOk (c : Inputs) : List Move → Bool
  | [] => c.wf
  | .reset c' :: l => c.wf && tablesOk c' l
  | _ :: l => tablesOk c l

/-- `StaticConfig`: the configuration is constant between resets (R66): a move that sets the inputs sets them to what they
are. -/
def staticConfig (c : Inputs) : List Move → Bool
  | [] => true
  | .configure c' :: l => c' == c && staticConfig c l
  | .reset c' :: l => staticConfig c' l
  | _ :: l => staticConfig c l

/-- The launch premises of R264, by name. `NoFault` is that the state is one, since a fault is no state (log 9).
`SoleReader` holds of every run, since no move but the decoder's reads the FIFO (log 7). -/
structure Launch (s : State) : Prop where
  /-- `Idle`. -/
  idle : s.phase = .idle
  /-- `Aligned`. -/
  aligned : Aligned s.inputs s.q
  /-- `ProducerWellFormed`. -/
  producer : producerWellFormed s.inputs s.q s.schedule
  /-- `NoOverflow`. -/
  noOverflow : NoOverflow s
  /-- `TableOK`. -/
  tables : tablesOk s.inputs s.schedule = true
  /-- `StaticConfig`. -/
  static : staticConfig s.inputs s.schedule = true

/-- The schedule leaves attempts alone: it sets the inputs to nothing but what they are, and holds no reset. -/
def undisturbed (c : Inputs) : List Move → Bool
  | [] => true
  | .configure c' :: l => c' == c && undisturbed c l
  | .reset _ :: _ => false
  | _ :: l => undisturbed c l

/-- No transaction of the run is answered by an error of the port. -/
def NoPortErrors (s : State) : Prop := ∀ k t, core.run k s = .next t → t.portStatus = .ok

end Sys2Proof.Machine
end

