-- ==== Sys2Proof/Certificates/Slice0/Obligations.lean ====
section
/-! DEFINITION. The statements for the provers. The states a statement expects are written out here, field by field. -/

namespace Sys2Proof.Expect

open Sys2Proof.Machine

/-- A port transaction has used up one draw of the oracle: the model's own bookkeeping (log 4), which is why the statements
that speak of it are derived ones. -/
def transacted (s : State) : State := { s with oracle := s.oracle.tail, txns := s.txns + 1 }

/-- A READ of `n` bytes succeeded (R55). -/
def readDone (n : Nat) (s : State) : State :=
  { transacted s with
    cur := if s.inputs.readMode = .transactional then s.cur + n else s.cur
    q := if s.inputs.readMode = .transactional then s.q else s.q.drop n }

/-- The bytes it returned (R55). -/
def readBytes (n : Nat) (s : State) : List Byte :=
  if s.inputs.readMode = .transactional then (s.q.drop s.cur).take n else s.q.take n

/-- A READ of `n` bytes failed (R72). -/
def readFailed (n : Nat) (s : State) : State :=
  { transacted s with
    q := if s.inputs.readMode = .transactional then s.q else s.q.drop (min s.draw.lost n) }

/-- An element of `n` bytes can be extracted: they are known (R142), the port answers `Ok`, and they are there (R55). -/
abbrev Ready (n : Nat) (s : State) : Prop :=
  n ≤ s.rem.toNat ∧ s.portStatus = .ok ∧ n ≤ s.q.length - s.cur

/-- The tables are the default ones (R88, R183 to R188). -/
abbrev DefaultTables (s : State) : Prop :=
  s.inputs.fieldTable = defaultFieldTable ∧ s.inputs.permTables = defaultPermTables

/-- The field of this row: entry `k`, of `len` bytes, is extracted under this name, its canonical bytes being `shape` of its
wire bytes; the phase goes to the next present entry, or the footer. It holds in whatever phase the instruction is run,
which is the model's choice (log 13). -/
def FieldExtracted (i : Instr) (k : Nat) (name : FieldName) (len : Nat) (shape : List Byte → List Byte) : Prop :=
  ∀ s : State, DefaultTables s → Ready len s →
    exec i s = .next { readDone len s with
      record := s.record.set name (shape (readBytes len s))
      rem := s.rem - BitVec.ofNat 16 len
      phase := .need (firstField s.inputs s.record (k + 1)) false }

/-- The unsigned value of an element of canonical bytes, least significant byte first (R190). -/
def leValue (v : ElementView) (c : List Byte) : Nat :=
  match v.width with
  | 8 => (byteAt c v.offset).toNat
  | 16 => (le16 c v.offset).toNat
  | _ => (le32 c v.offset).toNat

/-- The unsigned value of the same bytes of a wire list, most significant byte first (R192). -/
def beValue (v : ElementView) (w : List Byte) : Nat :=
  match v.width with
  | 8 => (byteAt w v.offset).toNat
  | 16 => (be16 (byteAt w v.offset) (byteAt w (v.offset + 1))).toNat
  | _ => (be32 (byteAt w v.offset) (byteAt w (v.offset + 1)) (byteAt w (v.offset + 2)) (byteAt w (v.offset + 3))).toNat

/-- The nine conditions of R7, in its order. -/
structure TablesWellFormed (c : Inputs) : Prop where
  hdrs : ∀ e ∈ c.fieldTable, e.hdr = 1 ∨ e.hdr = 2
  masks : ∀ e ∈ c.fieldTable, ∃ b, (List.range 16).filter (fun i => e.mask.getLsbD i) = [b]
  distinct : ∀ (i j : Nat) (e f : Entry), i < j → c.fieldTable[i]? = some e → c.fieldTable[j]? = some f →
    ¬ (e.hdr = f.hdr ∧ e.mask = f.mask)
  hdr2BitFree : ∀ e ∈ c.fieldTable, ¬ (e.hdr = 1 ∧ e.mask = c.hdr2Bit)
  lens : ∀ e ∈ c.fieldTable, 1 ≤ e.len ∧ e.len ≤ c.maxFieldLen
  remapLens : ∀ e ∈ c.fieldTable, ∀ t, e.fmt = .remap t → ∃ dest, c.permTable t = some dest ∧ dest.length = e.len
  remapPerms : ∀ e ∈ c.fieldTable, ∀ t dest, e.fmt = .remap t → c.permTable t = some dest →
    ∀ i, i < e.len → i ∈ dest
  scalarLens : ∀ e ∈ c.fieldTable, (e.fmt = .be16 → e.len = 2) ∧ (e.fmt = .be32 → e.len = 4)
  order : ∀ (i j : Nat) (e f : Entry), i < j → c.fieldTable[i]? = some e → c.fieldTable[j]? = some f →
    ¬ (e.hdr = 2 ∧ f.hdr = 1)

/-- The configuration is one under which steps are taken (R247, R235). -/
abbrev Configured (s : State) : Prop := s.inputs.wf = true ∧ portErrorsOk s.portErrors = true

/-- An attempt is about to start, under a schedule (log 3) that holds no reset and changes no input, and whose appends never
exceed `FIFO_DEPTH`. Other moves, appends among them, may fall anywhere in the attempt (R20). -/
abbrev AtStart (s : State) : Prop :=
  Configured s ∧ StateInv s = true ∧ s.phase = .start ∧ undisturbed s.inputs s.schedule = true ∧ NoOverflow s

/-- A complete record (R216) in its one form, whose fields are fields of the table, and its bytes on the wire (R80). -/
abbrev RecordAs (c : Inputs) (r : Record) (w : List Byte) : Prop :=
  recordComplete c r = true ∧ recordWf r = true ∧ (∀ v ∈ r.fld, ∃ e ∈ c.fieldTable, e.name = v.name) ∧
    recordOnWire c r = some w

end Sys2Proof.Expect

open Sys2Proof Sys2Proof.Machine Sys2Proof.Expect

/-! ## Encoding -/

/-- R82, R83, R90, R94: decoding what `encode` writes gives the instruction back, and no bit of either header value is
dropped: the opcode words of the instructions it selects make up the value. -/
def Obligations.HeaderBitsRoundTrip : Prop :=
  (∀ i : Instr, i.wf = true → decode (slotOf i) (encode i) = .ok [i] []) ∧
  (∀ w : Half, ((hdr1Instrs w).map opcodeWord).foldl (· ||| ·) 0 = w ∧ ∀ i ∈ hdr1Instrs w, i.wf = true ∧ slotOf i = .bits1) ∧
  (∀ w : Half, ((hdr2Instrs w).map opcodeWord).foldl (· ||| ·) 0 = w ∧ ∀ i ∈ hdr2Instrs w, i.wf = true ∧ slotOf i = .bits2)

/-- R82, R83, R91, R94: words written out from the spec's bit maps decode to the rows they stand for. -/
def Obligations.OpcodeWordsDecode : Prop :=
  decode (.request true) [0x01] = .ok [.decode] [] ∧
  decode (.request false) [0x01] = .ok [.decodeNoFw] [] ∧
  decode (.request true) [0x02] = .error .noSuchRequest ∧
  decode .head [0x80, 0x00] = .ok [.primaryHeader] [] ∧
  decode .bits1 [0x00, 0x08] = .ok [.secondaryHeader] [] ∧
  decode .bits1 [0x80, 0x00] = .ok [.rawAccel] [] ∧
  decode .bits1 [0x00, 0x80] = .ok [.pressure] [] ∧
  decode .bits1 [0x04, 0x10] = .ok [.quat9, .stepDetector] [] ∧
  decode .bits2 [0x40, 0x00] = .ok [.accelAccuracy] [] ∧
  decode .bits2 [0x00, 0xC0] = .ok [.activityRecog, .secondaryOnOff] [] ∧
  decode .bits2 [0x01, 0x00] = .ok [.batchModeEn] [] ∧
  decode .tail [0x00, 0x2A] = .ok [.footer] []

/-- R93: the sixteen status codes, each with its name, one to one. -/
def Obligations.StatusCodesAgree : Prop :=
  (∀ st : Status, Status.ofCode st.code = st) ∧ (∀ c : BitVec 4, (Status.ofCode c).code = c) ∧
  Status.ok.code = 0x0 ∧ Status.paramError.code = 0x1 ∧ Status.notImplemented.code = 0x2 ∧
  Status.wrongDeviceId.code = 0x3 ∧ Status.noDataAvailable.code = 0x4 ∧ Status.busError.code = 0x5 ∧
  Status.dmpNotSupported.code = 0x6 ∧ Status.dmpVerifyFailed.code = 0x7 ∧ Status.fifoNoDataAvailable.code = 0x8 ∧
  Status.fifoMoreDataAvailable.code = 0x9 ∧ Status.sensorNotSupported.code = 0xA ∧
  Status.invalidDmpRegister.code = 0xB ∧ ∀ n : Fin 4, (Status.reserved n).code.toNat = 12 + n.val

/-- R84: a header's value is `(b0 << 8) | b1`, unsigned; its bit 15 is bit 7 of `b0`. -/
def Obligations.HeaderAssembly : Prop :=
  ∀ b0 b1 : Byte, headerValue [b0, b1] = (b0.setWidth 16 <<< 8) ||| b1.setWidth 16 ∧
    (headerValue [b0, b1]).toNat = b0.toNat * 256 + b1.toNat ∧
    (headerValue [b0, b1]).getLsbD 15 = b0.getLsbD 7

/-- R82, R83, R86, R140: under the default table the rows that two header values decode to are the entries that the machine
finds present, in its scan order; and it reads a secondary header exactly where the primary one decodes to that row. -/
def Obligations.DecodedRowsAreScanned : Prop :=
  ∀ h1 h2 : Half,
    (hdr1Instrs h1).filterMap fieldOf
      = ((defaultFieldTable.filter fun e => e.hdr == 1).filter fun e => entryPresent h1 h2 e).map (·.name) ∧
    (hdr2Instrs h2).filterMap fieldOf
      = ((defaultFieldTable.filter fun e => e.hdr == 2).filter fun e => entryPresent h1 h2 e).map (·.name) ∧
    (hdr2Present defaultInputs h1 = true ↔ Instr.secondaryHeader ∈ hdr1Instrs h1)

/-- R90, R91: bits with no entry select nothing: setting any of bits 2..0 of header 1, and any of bits 15, 9, 8 and 5..0 of
header 2, changes neither which elements are present nor the record's length. -/
def Obligations.IgnoredBitsSelectNothing : Prop :=
  ∀ h1 h2 x y : Half, x &&& 0xFFF8 = 0 → y &&& 0x7CC0 = 0 →
    (∀ e ∈ defaultFieldTable, entryPresent (h1 ||| x) (h2 ||| y) e = entryPresent h1 h2 e) ∧
    hdr2Present defaultInputs (h1 ||| x) = hdr2Present defaultInputs h1 ∧
    recordLen defaultInputs (h1 ||| x) (h2 ||| y) = recordLen defaultInputs h1 h2

/-- R81: the record's length under any table, and under the default one: 4 to 136 bytes; 4 where bits 15..3 of header 1 are
clear, 136 exactly where they and every field bit of header 2 are set; 10 for the source's scenario. -/
def Obligations.RecordLengthRule : Prop :=
  (∀ (c : Inputs) (h1 h2 : Half), recordLen c h1 h2 =
    2 + (if h1 &&& c.hdr2Bit ≠ 0 then 2 else 0)
      + ((c.fieldTable.filter fun e => decide (e.hdr = 1 ∧ h1 &&& e.mask ≠ 0)).map (·.len)).sum
      + (if h1 &&& c.hdr2Bit ≠ 0 then
          ((c.fieldTable.filter fun e => decide (e.hdr = 2 ∧ h2 &&& e.mask ≠ 0)).map (·.len)).sum else 0)
      + 2) ∧
  (∀ h1 h2 : Half,
    4 ≤ recordLen defaultInputs h1 h2 ∧ recordLen defaultInputs h1 h2 ≤ 136 ∧
    (h1 &&& 0xFFF8 = 0 → recordLen defaultInputs h1 h2 = 4) ∧
    (recordLen defaultInputs h1 h2 = 136 ↔ h1 &&& 0xFFF8 = 0xFFF8 ∧ h2 &&& 0x7CC0 = 0x7CC0)) ∧
  ∀ h2 : Half, recordLen defaultInputs 0x8000 h2 = 10

/-! ## Element order and lengths -/

/-- R26: the element length function. -/
def Obligations.ElementLengths : Prop :=
  ∀ c : Inputs, elemLen c .hdr1 = some 2 ∧ elemLen c .hdr2 = some 2 ∧ elemLen c .footer = some 2 ∧
    ∀ k e, c.fieldTable[k]? = some e → elemLen c (.fld k) = some e.len

/-- R140: `firstField(j)` is the least present entry from `j` on, or the footer; the next element follows from it. -/
def Obligations.NextElementRule : Prop :=
  ∀ (c : Inputs) (r : Record),
    (∀ j k, firstField c r j = .fld k ↔
      j ≤ k ∧ (∃ e, c.fieldTable[k]? = some e ∧ (if e.hdr = 1 then r.header else r.header2) &&& e.mask ≠ 0) ∧
      ∀ m e, j ≤ m → m < k → c.fieldTable[m]? = some e → (if e.hdr = 1 then r.header else r.header2) &&& e.mask = 0) ∧
    (∀ j, firstField c r j = .footer ↔
      ∀ m e, j ≤ m → c.fieldTable[m]? = some e → (if e.hdr = 1 then r.header else r.header2) &&& e.mask = 0) ∧
    nextElem c r .hdr1 = (if r.header &&& c.hdr2Bit ≠ 0 then .hdr2 else firstField c r 0) ∧
    nextElem c r .hdr2 = firstField c r 0 ∧
    (∀ k, nextElem c r (.fld k) = firstField c r (k + 1))

/-! ## The byte-reorder pipeline -/

/-- R181: `remap` answers exactly for permutations, and scatters: wire byte `w[i]` stands at `c[T[i]]`. -/
def Obligations.RemapScatters : Prop :=
  ∀ (dest : List Nat) (w : List Byte),
    ((remap dest w).isSome = isPermutation dest w.length) ∧
    ∀ out, remap dest w = some out → out.length = w.length ∧
      ∀ i j : Nat, dest[i]? = some j → out[j]? = w[i]?

/-- R191: the round trip of a table, which holds exactly when the table is a permutation. -/
def Obligations.RemapRoundTrip : Prop :=
  ∀ (dest : List Nat) (n : Nat), dest.length = n →
    (isPermutation dest n = true ↔ ∀ c : List Byte, c.length = n → remap dest (wire dest c) = some c) ∧
    (isPermutation dest n = true → ∀ w : List Byte, w.length = n →
      ∃ c, remap dest w = some c ∧ c.length = n ∧ wire dest c = w)

/-- R183 to R188: the default tables, their effect, and the fields that use each. -/
def Obligations.DefaultTablesReorder : Prop :=
  ∀ w0 w1 w2 w3 w4 w5 w6 w7 w8 w9 w10 w11 w12 w13 : Byte,
    (defaultPermTables.map (·.dest) =
      [[1, 0, 3, 2, 5, 4], [3, 2, 1, 0, 7, 6, 5, 4, 11, 10, 9, 8],
       [3, 2, 1, 0, 7, 6, 5, 4, 11, 10, 9, 8, 13, 12], [1, 0, 3, 2, 5, 4, 7, 6, 9, 8, 11, 10],
       [0, 1, 5, 4, 3, 2], [1, 0]]) ∧
    canon defaultInputs (.remap .pquat6) [w0, w1, w2, w3, w4, w5] = some [w1, w0, w3, w2, w5, w4] ∧
    canon defaultInputs (.remap .quat6) [w0, w1, w2, w3, w4, w5, w6, w7, w8, w9, w10, w11]
      = some [w3, w2, w1, w0, w7, w6, w5, w4, w11, w10, w9, w8] ∧
    canon defaultInputs (.remap .quat9) [w0, w1, w2, w3, w4, w5, w6, w7, w8, w9, w10, w11, w12, w13]
      = some [w3, w2, w1, w0, w7, w6, w5, w4, w11, w10, w9, w8, w13, w12] ∧
    canon defaultInputs (.remap .rawGyro) [w0, w1, w2, w3, w4, w5, w6, w7, w8, w9, w10, w11]
      = some [w1, w0, w3, w2, w5, w4, w7, w6, w9, w8, w11, w10] ∧
    canon defaultInputs (.remap .activity) [w0, w1, w2, w3, w4, w5] = some [w0, w1, w5, w4, w3, w2] ∧
    canon defaultInputs (.remap .secOnOff) [w0, w1] = some [w1, w0] ∧
    (defaultFieldTable.filter fun e => e.fmt == .remap .pquat6).map (·.name) = [.rawAccel, .compass, .pquat6] ∧
    (defaultFieldTable.filter fun e => e.fmt == .remap .quat6).map (·.name) = [.quat6, .gyroCalibr, .compassCalibr] ∧
    (defaultFieldTable.filter fun e => e.fmt == .remap .quat9).map (·.name) = [.quat9, .geomag] ∧
    (defaultFieldTable.filter fun e => e.fmt == .remap .rawGyro).map (·.name) = [.rawGyro] ∧
    (defaultFieldTable.filter fun e => e.fmt == .remap .activity).map (·.name) = [.activityRecog] ∧
    (defaultFieldTable.filter fun e => e.fmt == .remap .secOnOff).map (·.name) = [.secondaryOnOff]

/-- R192: every default table is an involution, and reverses the bytes of each element of R190's layout; scatter and gather
agree; the little-endian value of each canonical element is the big-endian value of the same bytes on the wire. -/
def Obligations.DefaultElementsAreBigEndian : Prop :=
  ∀ e ∈ defaultFieldTable, ∀ t dest, e.fmt = .remap t → defaultInputs.permTable t = some dest →
    (∀ i j : Nat, dest[i]? = some j → dest[j]? = some i) ∧
    (∀ v ∈ views e.name, ∀ i, i < v.width / 8 →
      dest[v.offset + i]? = some (v.offset + (v.width / 8 - 1 - i))) ∧
    ∀ w : List Byte, w.length = e.len →
      canon defaultInputs e.fmt w = some (dest.map (byteAt w)) ∧
      ∀ v ∈ views e.name, leValue v (dest.map (byteAt w)) = beValue v w

/-! ## The FIFO port -/

/-- R54: COUNT answers the number of bytes the attempt can still read, and changes neither `q` nor `cur`. -/
def Obligations.CountTransaction : Prop :=
  ∀ s : State, s.q.length < 65536 →
    ((fifoCount s).1 = .ok → (fifoCount s).2.1.toNat = s.q.length - s.cur) ∧
    ((fifoCount s).1 = .ok ∨ (fifoCount s).1 ∈ s.portErrors) ∧ (fifoCount s).2.2 = transacted s

/-- R55, R72: READ returns the next bytes in order and advances past them; it faults where they are not there; where it
fails, a Transactional FIFO is unchanged, and a Destructive one loses the drawn number of bytes, at most `n`. -/
def Obligations.ReadTransaction : Prop :=
  ∀ (s : State) (n : Nat),
    (s.portStatus = .ok → n ≤ s.q.length - s.cur → fifoRead n s = .data (readBytes n s) (readDone n s)) ∧
    (s.portStatus = .ok → s.q.length - s.cur < n → fifoRead n s = .underflow) ∧
    (s.portStatus ≠ .ok → fifoRead n s = .failed s.portStatus (readFailed n s))

/-- R56: RELEASE commits, rewinds, or, in Destructive mode, does nothing. -/
def Obligations.ReleaseTransaction : Prop :=
  ∀ s : State,
    (s.inputs.readMode = .transactional →
      fifoRelease true s = { s with q := s.q.drop s.cur, cur := 0 } ∧ fifoRelease false s = { s with cur := 0 }) ∧
    (s.inputs.readMode = .destructive → ∀ commit, fifoRelease commit s = s)

/-! ## The instructions -/

/-- R120: with no firmware a request ends in `DMPNotSupported` with no port transaction, and the attempt's end (R214) leaves
the FIFO as it was. That either request row does so, and in whatever phase it is run, is the model's choice (log 13). -/
def Obligations.StartWithoutFirmware : Prop :=
  (∀ s : State, s.inputs.fwPresent = false →
    exec .decode s = .next { s with phase := .finish .dmpNotSupported } ∧
    exec .decodeNoFw s = .next { s with phase := .finish .dmpNotSupported }) ∧
  (∀ s : State, s.phase = .finish .dmpNotSupported → s.cur = 0 →
    decoderTurn s = .next { s with phase := .idle, response := some { status := .dmpNotSupported, record := none } })

/-- R121: with firmware a request clears the record and the count, and the primary header comes next; the step after it is
one COUNT. That either request row does so, and in whatever phase it is run, is the model's choice (log 13). -/
def Obligations.StartWithFirmware : Prop :=
  ∀ s : State, s.inputs.fwPresent = true →
    ∃ t, t = { s with record := { header := 0, header2 := 0, fld := [], footer := none }, rem := 0,
                      phase := .need .hdr1 false } ∧
      exec .decode s = .next t ∧ exec .decodeNoFw s = .next t ∧ (∀ n, t.record.get n = none) ∧
      ∃ u, exec .primaryHeader t = .next u ∧ u.txns = t.txns + 1 ∧ u.q = t.q ∧ u.cur = t.cur ∧
        (u.phase = .need .hdr1 true ∨ u.phase = .finish s.portStatus)

/-- R122: the primary header's two bytes become `rec.header`; the secondary header comes next where it is announced, and
otherwise the first present field. -/
def Obligations.PrimaryHeaderExtracted : Prop :=
  ∀ s : State, Ready 2 s →
    ∃ r, r = { s.record with header := be16 (byteAt (readBytes 2 s) 0) (byteAt (readBytes 2 s) 1) } ∧
      exec .primaryHeader s = .next { readDone 2 s with
        record := r
        rem := s.rem - 2
        phase := .need (if r.header &&& s.inputs.hdr2Bit ≠ 0 then .hdr2 else firstField s.inputs r 0) false }

/-- R123: the secondary header's two bytes become `rec.header2`; the first present field comes next. -/
def Obligations.SecondaryHeaderExtracted : Prop :=
  ∀ s : State, Ready 2 s →
    ∃ r, r = { s.record with header2 := be16 (byteAt (readBytes 2 s) 0) (byteAt (readBytes 2 s) 1) } ∧
      exec .secondaryHeader s = .next { readDone 2 s with
        record := r
        rem := s.rem - 2
        phase := .need (firstField s.inputs r 0) false }

/-- R150, R152, R156 (RAW_ACCEL, COMPASS, PQUAT6): 6 bytes through PQUAT6. -/
def Obligations.SixByteAxesExtracted : Prop :=
  ∀ shape : List Byte → List Byte,
    shape = (fun w => [byteAt w 1, byteAt w 0, byteAt w 3, byteAt w 2, byteAt w 5, byteAt w 4]) →
    FieldExtracted .rawAccel 0 .rawAccel 6 shape ∧ FieldExtracted .compass 2 .compass 6 shape ∧
    FieldExtracted .pquat6 6 .pquat6 6 shape

/-- R151 (RAW_GYRO): 12 bytes, sample and bias, through RAW_GYRO. -/
def Obligations.RawGyroExtracted : Prop :=
  FieldExtracted .rawGyro 1 .rawGyro 12 fun w =>
    [byteAt w 1, byteAt w 0, byteAt w 3, byteAt w 2, byteAt w 5, byteAt w 4,
     byteAt w 7, byteAt w 6, byteAt w 9, byteAt w 8, byteAt w 11, byteAt w 10]

/-- R154, R159, R160 (QUAT6, GYRO_CALIBR, COMPASS_CALIBR): 12 bytes through QUAT6. -/
def Obligations.TwelveByteAxesExtracted : Prop :=
  ∀ shape : List Byte → List Byte,
    shape = (fun w => [byteAt w 3, byteAt w 2, byteAt w 1, byteAt w 0, byteAt w 7, byteAt w 6, byteAt w 5, byteAt w 4,
                       byteAt w 11, byteAt w 10, byteAt w 9, byteAt w 8]) →
    FieldExtracted .quat6 4 .quat6 12 shape ∧ FieldExtracted .gyroCalibr 9 .gyroCalibr 12 shape ∧
    FieldExtracted .compassCalibr 10 .compassCalibr 12 shape

/-- R155, R157 (QUAT9, GEOMAG): 14 bytes through QUAT9. -/
def Obligations.NineAxisExtracted : Prop :=
  ∀ shape : List Byte → List Byte,
    shape = (fun w => [byteAt w 3, byteAt w 2, byteAt w 1, byteAt w 0, byteAt w 7, byteAt w 6, byteAt w 5, byteAt w 4,
                       byteAt w 11, byteAt w 10, byteAt w 9, byteAt w 8, byteAt w 13, byteAt w 12]) →
    FieldExtracted .quat9 5 .quat9 14 shape ∧ FieldExtracted .geomag 7 .geomag 14 shape

/-- R153, R158 (ALS, PRESSURE): 8 and 6 bytes as they stand. -/
def Obligations.RawFieldsExtracted : Prop :=
  FieldExtracted .als 3 .als 8 (fun w => w) ∧ FieldExtracted .pressure 8 .pressure 6 (fun w => w)

/-- R161 (STEP_DETECTOR): 4 bytes as they stand, whose value is `be32`. -/
def Obligations.StepDetectorExtracted : Prop :=
  FieldExtracted .stepDetector 11 .stepDetector 4 (fun w => w) ∧
  ∀ b0 b1 b2 b3 : Byte, scalarValue .be32 [b0, b1, b2, b3]
    = some (b0.toNat * 16777216 + b1.toNat * 65536 + b2.toNat * 256 + b3.toNat)

/-- R162 to R166 (ACCEL_ACCURACY, GYRO_ACCURACY, COMPASS_ACCURACY, FSYNC, PICKUP): 2 bytes as they stand, whose value is
`be16`. -/
def Obligations.ScalarFieldsExtracted : Prop :=
  FieldExtracted .accelAccuracy 12 .accelAccuracy 2 (fun w => w) ∧
  FieldExtracted .gyroAccuracy 13 .gyroAccuracy 2 (fun w => w) ∧
  FieldExtracted .compassAccuracy 14 .compassAccuracy 2 (fun w => w) ∧
  FieldExtracted .fsync 15 .fsync 2 (fun w => w) ∧
  FieldExtracted .pickup 16 .pickup 2 (fun w => w) ∧
  ∀ b0 b1 : Byte, scalarValue .be16 [b0, b1] = some (b0.toNat * 256 + b1.toNat)

/-- R167, R168 (ACTIVITY_RECOG, SECONDARY_ON_OFF): 6 bytes through ACTIVITY, and 2 bytes through SEC_ON_OFF. -/
def Obligations.ActivityFieldsExtracted : Prop :=
  FieldExtracted .activityRecog 17 .activityRecog 6
    (fun w => [byteAt w 0, byteAt w 1, byteAt w 5, byteAt w 4, byteAt w 3, byteAt w 2]) ∧
  FieldExtracted .secondaryOnOff 18 .secondaryOnOff 2 (fun w => [byteAt w 1, byteAt w 0])

/-- R210, R212: the footer's two bytes become `rec.footer`, and the count left picks the completion status, with no COUNT. -/
def Obligations.FooterExtracted : Prop :=
  ∀ s : State, Ready 2 s →
    exec .footer s = .next { readDone 2 s with
      record := { s.record with footer := some (be16 (byteAt (readBytes 2 s) 0) (byteAt (readBytes 2 s) 1)) }
      rem := s.rem - 2
      phase := .finish (if s.rem.toNat > 2 then .fifoMoreDataAvailable else .ok) }

/-- R90, R91 (BATCH_MODE_EN, RESERVED_HDR1_2_0, RESERVED_HDR2_15, RESERVED_HDR2_9, RESERVED_HDR2_5_0): no bytes, no status,
and the header is kept. -/
def Obligations.IgnoredBitsDoNothing : Prop :=
  ∀ s : State, exec .batchModeEn s = .next s ∧ (∀ bits, exec (.reservedHdr1Low bits) s = .next s) ∧
    exec .reservedHdr2Top s = .next s ∧ exec .reservedHdr2Mid s = .next s ∧
    (∀ bits, exec (.reservedHdr2Low bits) s = .next s)

/-- R24, R35, R143: a field that is written reads back, and the others are as they were; a cleared record holds none. -/
def Obligations.RecordFieldsIndependent : Prop :=
  ∀ (r : Record) (n : FieldName) (bs : List Byte),
    (r.set n bs).get n = some bs ∧ (∀ m, m ≠ n → (r.set n bs).get m = r.get m) ∧
    (r.set n bs).header = r.header ∧ (r.set n bs).header2 = r.header2 ∧ (r.set n bs).footer = r.footer ∧
    (recordWf r = true → recordWf (r.set n bs) = true) ∧ Record.empty.get n = none

/-- The frame of every element's instruction (PRIMARY_HEADER, SECONDARY_HEADER, the 19 fields, FOOTER): the configuration,
the response and the schedule stay; at most one port transaction is made; a Transactional FIFO keeps every byte, and a
Destructive one loses at most the element's bytes, from its head; and of the record only the element's own part changes. -/
def Obligations.ElementFrame : Prop :=
  ∀ (i : Instr) (s t : State) (e : Elem) (n : Nat),
    elemOf i s = some e → elemLen s.inputs e = some n → exec i s = .next t →
    t.inputs = s.inputs ∧ t.fifoDepth = s.fifoDepth ∧ t.portErrors = s.portErrors ∧ t.schedule = s.schedule ∧
    t.response = s.response ∧ (t.txns = s.txns ∨ t.txns = s.txns + 1) ∧
    (s.inputs.readMode = .transactional → t.q = s.q ∧ (t.cur = s.cur ∨ t.cur = s.cur + n)) ∧
    (s.inputs.readMode = .destructive → t.cur = s.cur ∧ ∃ k, k ≤ n ∧ t.q = s.q.drop k) ∧
    (e ≠ .hdr1 → t.record.header = s.record.header) ∧
    (e ≠ .hdr2 → t.record.header2 = s.record.header2) ∧
    (e ≠ .footer → t.record.footer = s.record.footer) ∧
    (∀ name, (∀ k ent, e = .fld k → s.inputs.fieldTable[k]? = some ent → ent.name ≠ name) →
      t.record.get name = s.record.get name)

/-! ## The generic dispatcher -/

/-- R141: the step at `Need e queried` with too small a count: one COUNT where none was made for this element, whose answer
replaces the count; its error status ends the attempt; a second shortage ends it with `FIFONoDataAvailable`. -/
def Obligations.AvailabilityRule : Prop :=
  ∀ (s : State) (e : Elem) (queried : Bool) (n : Nat),
    s.phase = .need e queried → elemLen s.inputs e = some n → s.rem.toNat < n →
    ∃ t, t = (if queried = false then
          (if s.portStatus ≠ .ok then { transacted s with phase := .finish s.portStatus }
           else { transacted s with rem := BitVec.ofNat 16 (s.q.length - s.cur), phase := .need e true })
        else { s with phase := .finish .fifoNoDataAvailable }) ∧
      decoderTurn s = .next t ∧ ∀ i, elemOf i s = some e → exec i s = .next t

/-- R142, R143: the step at `Need e queried` with a count that suffices: one READ and no COUNT; its error status ends the
attempt; otherwise `apply` writes the element, the count goes down by its length, and the next element, or Finish, comes. -/
def Obligations.ExtractionRule : Prop :=
  ∀ (s : State) (e : Elem) (queried : Bool) (n : Nat),
    s.phase = .need e queried → elemLen s.inputs e = some n → n ≤ s.rem.toNat → n ≤ s.q.length - s.cur →
    fifoWf s = true → s.inputs.wf = true →
    (s.portStatus ≠ .ok → decoderTurn s = .next { readFailed n s with phase := .finish s.portStatus }) ∧
    (s.portStatus = .ok →
      ∃ r, decoderTurn s = .next { readDone n s with
            record := r
            rem := s.rem - BitVec.ofNat 16 n
            phase := if e = .footer then
                .finish (if s.rem.toNat - n > 0 then .fifoMoreDataAvailable else .ok)
              else .need (nextElem s.inputs r e) false } ∧
        (s.rem - BitVec.ofNat 16 n).toNat = s.rem.toNat - n ∧
        (e = .hdr1 → r = { s.record with header := headerValue (readBytes n s) }) ∧
        (e = .hdr2 → r = { s.record with header2 := headerValue (readBytes n s) }) ∧
        (e = .footer → r = { s.record with footer := some (headerValue (readBytes n s)) }) ∧
        (∀ k ent, e = .fld k → s.inputs.fieldTable[k]? = some ent →
          ∃ c, canon s.inputs ent.fmt (readBytes n s) = some c ∧ c.length = n ∧ r = s.record.set ent.name c))

/-- R245: a READ of bytes that are not there is the fault `FifoUnderflow`. -/
def Obligations.UnderflowFaults : Prop :=
  ∀ (i : Instr) (s : State) (e : Elem) (n : Nat),
    elemOf i s = some e → elemLen s.inputs e = some n → n ≤ s.rem.toNat → s.portStatus = .ok →
    s.q.length - s.cur < n → exec i s = .fault .fifoUnderflow

/-- R214, R215: the Finish step releases the FIFO, gives the response, which carries the record exactly where the status
publishes it, and goes to Idle. -/
def Obligations.FinishStep : Prop :=
  ∀ (s : State) (st : Status), s.phase = .finish st →
    decoderTurn s = .next { s with
      q := if s.inputs.readMode = .transactional ∧ (st = .ok ∨ st = .fifoMoreDataAvailable) then s.q.drop s.cur else s.q
      cur := if s.inputs.readMode = .transactional then 0 else s.cur
      response := some { status := st,
                         record := if st = .ok ∨ st = .fifoMoreDataAvailable then some s.record else none }
      phase := .idle }

/-! ## The agents -/

/-- A step on the decoder's turn is the instruction that the phase register names, run on the state: nothing is done around
it but that a scheduled turn is used up; a request that waits stays in the schedule (R248). The schedule is the model's
(log 3). -/
def Obligations.StepRunsFetchedInstruction : Prop :=
  ∀ (s : State) (i : Instr), Configured s → fetch s = some i →
    (s.schedule = [] → step s = exec i s) ∧
    (∀ rest, s.schedule = .decoder :: rest → step s = exec i { s with schedule := rest }) ∧
    (∀ rest, s.schedule = .request :: rest → step s = exec i s)

/-- The phase register names the rows: the request by `FW_PRESENT`, the headers and the footer, and for a field of the
default table the row whose opcode word is the entry's mask, in the header the entry says. -/
def Obligations.PhaseNamesTheRow : Prop :=
  ∀ s : State,
    (s.phase = .start → fetch s = some (if s.inputs.fwPresent then .decode else .decodeNoFw)) ∧
    (∀ b, s.phase = .need .hdr1 b → fetch s = some .primaryHeader) ∧
    (∀ b, s.phase = .need .hdr2 b → fetch s = some .secondaryHeader) ∧
    (∀ b, s.phase = .need .footer b → fetch s = some .footer) ∧
    (∀ k b e, s.phase = .need (.fld k) b → s.inputs.fieldTable = defaultFieldTable → defaultFieldTable[k]? = some e →
      ∃ i, fetch s = some i ∧ opcodeWord i = e.mask ∧ slotOf i = (if e.hdr = 1 then .bits1 else .bits2) ∧
        fieldOf i = some e.name ∧ elemOf i s = some (.fld k))

/-- R28, R262: in Idle the decoder waits; a request sets the phase to Start. R248: while an attempt runs the request
waits. The model's choices: the moves stand in a schedule (log 3), and the request takes away the response before (log 8). -/
def Obligations.RequestRule : Prop :=
  ∀ s : State, Configured s →
    (s.phase = .idle → s.schedule = [] → step s = .next s) ∧
    (∀ rest, s.phase = .idle → s.schedule = .request :: rest →
      step s = .next { s with schedule := rest, phase := .start, response := none }) ∧
    (∀ rest t, s.phase ≠ .idle → s.schedule = .request :: rest → step s = .next t → t.schedule = .request :: rest)

/-- R57, R246: an append adds its bytes at the end where they fit, and is the fault `FifoOverflow` where they do not. The
schedule is the model's (log 3). -/
def Obligations.AppendRule : Prop :=
  ∀ (s : State) (b : Byte) (bs : List Byte) (rest : List Move), Configured s → s.schedule = .append b bs :: rest →
    (s.q.length + (bs.length + 1) ≤ s.fifoDepth.toNat →
      step s = .next { s with schedule := rest, q := s.q ++ (b :: bs) }) ∧
    (s.fifoDepth.toNat < s.q.length + (bs.length + 1) → step s = .fault .fifoOverflow)

/-- R66, R269: only `FW_PRESENT` may change, and only in Idle; any other change is refused. The schedule is the model's
(log 3). -/
def Obligations.ConfigurationRule : Prop :=
  ∀ (s : State) (c : Inputs) (rest : List Move), Configured s → s.schedule = .configure c :: rest →
    (s.phase = .idle → { s.inputs with fwPresent := c.fwPresent } = c →
      step s = .next { s with schedule := rest, inputs := c }) ∧
    (c ≠ s.inputs → s.phase ≠ .idle → step s = .refused .configChange) ∧
    ({ s.inputs with fwPresent := c.fwPresent } ≠ c → step s = .refused .configChange)

/-- R260, R261: a reset, in any phase, puts every register at its reset value, gives no response, and keeps the FIFO's
bytes, with the cursor at 0. The schedule (log 3) and that a reset brings the inputs that hold from then on (log 15) are the
model's. -/
def Obligations.DecoderResetRule : Prop :=
  ∀ (s : State) (c : Inputs) (rest : List Move), Configured s → s.schedule = .reset c :: rest →
    step s = .next { s with
      schedule := rest
      phase := .idle
      rem := 0
      record := { header := 0, header2 := 0, fld := [], footer := none }
      response := none
      cur := 0
      inputs := c }

/-- R7, R247: the nine conditions are what the model checks, and a configuration that fails one is refused before any move,
whatever the schedule and the phase. -/
def Obligations.IllFormedTablesRefused : Prop :=
  ∀ s : State, (s.inputs.wf = true ↔ TablesWellFormed s.inputs) ∧
    (¬ TablesWellFormed s.inputs → step s = .refused .illFormedTable)

/-- R235 says what `PORT_ERRORS` excludes; that a machine with such a set is refused is the model's choice (log 14). -/
def Obligations.BadPortErrorsRefused : Prop :=
  ∀ s : State, s.inputs.wf = true →
    (.ok ∈ s.portErrors ∨ .fifoNoDataAvailable ∈ s.portErrors ∨ .fifoMoreDataAvailable ∈ s.portErrors ∨
      .dmpNotSupported ∈ s.portErrors) →
    step s = .refused .illFormedPortErrors

/-- R37: the values after reset. -/
def Obligations.ResetValues : Prop :=
  State.reset.phase = .idle ∧ State.reset.rem = 0 ∧
    State.reset.record = { header := 0, header2 := 0, fld := [], footer := none } ∧
    State.reset.response = none ∧ State.reset.cur = 0 ∧ State.reset.inputs.fwPresent = false ∧
    State.reset.inputs.readMode = .transactional ∧ State.reset.inputs.fieldTable = defaultFieldTable ∧
    State.reset.inputs.permTables = defaultPermTables ∧ State.reset.inputs.hdr2Bit = 0x0008

/-- R7: the default configuration is well-formed, its names are distinct, and the default `PORT_ERRORS` is as R235 asks. -/
def Obligations.DefaultConfigurationWellFormed : Prop :=
  defaultInputs.wf = true ∧ namesDistinct defaultInputs = true ∧ portErrorsOk defaultPortErrors = true

/-! ## Rules of the whole machine -/

/-- R23, R146: the count changes only where the attempt's start or a reset sets it to 0, where a COUNT of the element that the
phase names sets it to `|q| - cur`, and where the extraction of that element takes off its length, which is there; so it never
wraps. -/
def Obligations.CountWritesOnly : Prop :=
  ∀ s t : State, fifoWf s = true → step s = .next t →
    t.rem = s.rem ∨
    (t.rem = 0 ∧ ((s.phase = .start ∧ t.phase = .need .hdr1 false) ∨ ∃ c rest, s.schedule = .reset c :: rest)) ∨
    (∃ e, s.phase = .need e false ∧ t.phase = .need e true ∧ t.txns = s.txns + 1 ∧
      t.rem.toNat = s.q.length - s.cur) ∨
    ∃ e b n, s.phase = .need e b ∧ elemLen s.inputs e = some n ∧ t.txns = s.txns + 1 ∧ n ≤ s.rem.toNat ∧
      t.rem.toNat = s.rem.toNat - n

/-- R56, R65, R236: in Transactional mode no move takes a byte from the FIFO but the Finish step of a published record, which
drops the bytes the attempt has read; every other move keeps the bytes and may append to them. -/
def Obligations.OnlyCommitTakesBytes : Prop :=
  ∀ s t : State, step s = .next t → s.inputs.readMode = .transactional →
    (∃ bs, t.q = s.q ++ bs) ∨
    (∃ st, s.phase = .finish st ∧ (st = .ok ∨ st = .fifoMoreDataAvailable) ∧ t.q = s.q.drop s.cur)

/-- R21: a step makes at most one COUNT or READ. -/
def Obligations.OneTransactionPerStep : Prop :=
  ∀ s t : State, step s = .next t →
    (t.txns = s.txns ∧ t.oracle = s.oracle) ∨
    (t.txns = s.txns + 1 ∧ t.oracle = s.oracle.tail ∧ ∃ e b, s.phase = .need e b)

/-- R214, R215: only the Finish step gives a response, with the status the phase holds, and a record only where that status
publishes it. That a request takes the response before away is the model's choice (log 8). -/
def Obligations.OnlyFinishResponds : Prop :=
  ∀ s t : State, step s = .next t →
    t.response = s.response ∨ t.response = none ∨
    ∃ st, s.phase = .finish st ∧ t.phase = .idle ∧
      t.response = some { status := st,
                          record := if st = .ok ∨ st = .fifoMoreDataAvailable then some s.record else none }

/-- R66: no step changes the configuration but the platform's own moves; `FIFO_DEPTH` and `PORT_ERRORS` never change. -/
def Obligations.ConfigurationIsStatic : Prop :=
  ∀ s t : State, step s = .next t →
    t.fifoDepth = s.fifoDepth ∧ t.portErrors = s.portErrors ∧
    (t.inputs = s.inputs ∨ ∃ c rest, (s.schedule = .configure c :: rest ∨ s.schedule = .reset c :: rest) ∧ t.inputs = c)

/-- R69, R194, R245: from a state of the invariant no step of the decoder reads past the FIFO's bytes, names an entry that is
not there, or fails in a lookup. -/
def Obligations.NoUnderflow : Prop :=
  ∀ s : State, Configured s → StateInv s = true →
    step s ≠ .fault .fifoUnderflow ∧ step s ≠ .fault .noSuchEntry ∧ step s ≠ .refused .illFormedTable

/-! ## Invariants -/

/-- R30, R69, R25, R28: every step keeps the invariant: the FIFO's form, `cur = 0` at rest, `rem ≤ |q| - cur` in `Need`, a
field that is named is a present entry, and a response carries a record exactly where its status publishes one. -/
def Obligations.StepKeepsInvariant : Prop :=
  ∀ s t : State, StateInv s = true → step s = .next t → StateInv t = true

/-- R70, R80, R216: every step keeps the accounting: the bytes read are those of the elements extracted, the working record
holds what comes before the element named and nothing else, the bytes read are its wire bytes, and a published record is
complete. -/
def Obligations.StepKeepsAccounting : Prop :=
  ∀ s t : State, StateInv s = true → Accounted s = true → step s = .next t → Accounted t = true

/-- R231, R234: every step keeps the statuses among those the decoder can return. -/
def Obligations.StepKeepsStatusesListed : Prop :=
  ∀ s t : State, StatusesListed s = true → step s = .next t → StatusesListed t = true

/-- The three invariants hold at reset. -/
def Obligations.ResetMeetsInvariants : Prop :=
  StateInv State.reset = true ∧ Accounted State.reset = true ∧ StatusesListed State.reset = true

/-! ## Whole attempts

The moves stand in a schedule (log 3), and the port's answers are draws (log 4), which is why these are derived statements. -/

/-- R25, R230: an attempt that is not reset takes at most `2 |FIELD_TABLE| + 8` steps beside the moves of its schedule (log 3),
and ends in Idle with a response, whatever the port answers (log 4) and the producer appends. -/
def Obligations.AttemptEnds : Prop :=
  ∀ s : State, AtStart s →
    ∃ k t, k ≤ s.schedule.length + (2 * s.inputs.fieldTable.length + 8) ∧ core.run k s = .next t ∧ t.phase = .idle ∧
      t.response.isSome = true

/-- R71, R80, R171, R214, R216, R217: an attempt on a FIFO that begins with the wire bytes of a complete record returns that
record, whatever is appended meanwhile (`a`), commits exactly its bytes, and makes one COUNT and a READ for each element. Its
status is `FIFOMoreDataAvailable` where more bytes were there at its start, and `Ok` where none were and none came. -/
def Obligations.CompleteRecordDecoded : Prop :=
  ∀ (s : State) (r : Record) (w rest : List Byte), AtStart s → NoPortErrors s → s.inputs.fwPresent = true →
    s.inputs.readMode = .transactional → namesDistinct s.inputs = true → RecordAs s.inputs r w → s.q = w ++ rest →
    ∃ k t a st, k ≤ s.schedule.length + (2 * s.inputs.fieldTable.length + 8) ∧ core.run k s = .next t ∧
      t.phase = .idle ∧ appended s.schedule = a ++ appended t.schedule ∧ t.q = rest ++ a ∧ t.cur = 0 ∧
      t.response = some { status := st, record := some r } ∧ (st = .ok ∨ st = .fifoMoreDataAvailable) ∧
      (rest ≠ [] → st = .fifoMoreDataAvailable) ∧ (rest = [] → a = [] → st = .ok) ∧
      t.txns = s.txns + 3 + (if r.header &&& s.inputs.hdr2Bit ≠ 0 then 1 else 0)
        + (s.inputs.fieldTable.filter fun e => entryPresent r.header r.header2 e).length

/-- R71, R232, R236: an attempt on a FIFO that holds, with all that is yet to be appended, only a proper prefix of a record
returns `FIFONoDataAvailable` with no record, and leaves every byte in the FIFO, before those appended meanwhile (`a`). -/
def Obligations.PartialRecordRewound : Prop :=
  ∀ (s : State) (r : Record) (w rest : List Byte), AtStart s → NoPortErrors s → s.inputs.fwPresent = true →
    s.inputs.readMode = .transactional → namesDistinct s.inputs = true → RecordAs s.inputs r w → rest ≠ [] →
    w = s.q ++ appended s.schedule ++ rest →
    ∃ k t a, k ≤ s.schedule.length + (2 * s.inputs.fieldTable.length + 8) ∧ core.run k s = .next t ∧
      t.phase = .idle ∧ appended s.schedule = a ++ appended t.schedule ∧ t.q = s.q ++ a ∧ t.cur = 0 ∧
      t.response = some { status := .fifoNoDataAvailable, record := none }

/-- R71, R171, R264, R268, R65: from a launch in Transactional mode, any number of attempts, with appends anywhere in and
between them, keep to the stream's records. `ws` are its complete records and `part` a proper prefix of one more. In every
state of the run, the FIFO and what is yet to be appended are the stream without its first `n` records, and a record that a
response carries is the one those end with. With firmware and no port error, a response with no record is
`FIFONoDataAvailable`. A reset may come, if it brings the same inputs. -/
def Obligations.AlignedStreamDecoded : Prop :=
  ∀ (s : State) (ws : List (List Byte)) (part rest : List Byte), Launch s → StateInv s = true → s.response = none →
    s.inputs.readMode = .transactional → namesDistinct s.inputs = true →
    (∀ c, Move.reset c ∈ s.schedule → c = s.inputs) →
    (∀ w ∈ ws, IsRecord s.inputs w) → IsRecord s.inputs (part ++ rest) → rest ≠ [] →
    s.q ++ appended s.schedule = ws.flatten ++ part →
    ∀ k t, core.run k s = .next t →
      ∃ n, n ≤ ws.length ∧ t.q ++ appended t.schedule = (ws.drop n).flatten ++ part ∧
        ∀ resp, t.response = some resp →
          (∀ r, resp.record = some r → ∃ m w, n = m + 1 ∧ ws[m]? = some w ∧ recordOnWire s.inputs r = some w) ∧
          (resp.record = none → NoPortErrors s → s.inputs.fwPresent = true → resp.status = .fifoNoDataAvailable)
end

