-- ==== Sys2Proof/Laws/Bytes.lean ====
section
/-! SUPPORT. The byte assembly of R10 as arithmetic, and headers to the wire and back. -/

namespace Sys2Proof

theorem be16_toNat (b0 b1 : Byte) : (be16 b0 b1).toNat = b0.toNat * 256 + b1.toNat := by
  have h0 := b0.isLt
  have h1 := b1.isLt
  have hs : (b0.setWidth 16 <<< 8).toNat = 2 ^ 8 * b0.toNat := by
    simp only [BitVec.toNat_shiftLeft, BitVec.toNat_setWidth, Nat.shiftLeft_eq]
    omega
  have hz : (b1.setWidth 16).toNat = b1.toNat := by
    simp only [BitVec.toNat_setWidth]
    omega
  rw [be16, BitVec.toNat_or, hs, hz, ← Nat.two_pow_add_eq_or_of_lt h1]
  omega

theorem byte_shift_toNat (b : Byte) {k : Nat} (h : k ≤ 24) : (b.setWidth 32 <<< k).toNat = 2 ^ k * b.toNat := by
  have hb := b.isLt
  have hk : 2 ^ k ≤ 2 ^ 24 := Nat.pow_le_pow_right (by omega) h
  have hlt : b.toNat * 2 ^ k < 2 ^ 32 := by
    calc b.toNat * 2 ^ k ≤ 255 * 2 ^ 24 := Nat.mul_le_mul (by omega) hk
      _ < 2 ^ 32 := by omega
  simp only [BitVec.toNat_shiftLeft, BitVec.toNat_setWidth, Nat.shiftLeft_eq]
  rw [Nat.mod_eq_of_lt (show b.toNat < 2 ^ 32 by omega), Nat.mod_eq_of_lt hlt, Nat.mul_comm]

theorem be32_toNat (b0 b1 b2 b3 : Byte) : (be32 b0 b1 b2 b3).toNat
    = b0.toNat * 16777216 + b1.toNat * 65536 + b2.toNat * 256 + b3.toNat := by
  have h1 := b1.isLt
  have h2 := b2.isLt
  have h3 := b3.isLt
  have hz : (b3.setWidth 32).toNat = b3.toNat := by
    simp only [BitVec.toNat_setWidth]
    omega
  have e1 : 2 ^ 24 * b0.toNat ||| 2 ^ 16 * b1.toNat = 2 ^ 16 * (2 ^ 8 * b0.toNat + b1.toNat) := by
    rw [← Nat.two_pow_add_eq_or_of_lt (show 2 ^ 16 * b1.toNat < 2 ^ 24 by omega)]
    omega
  have e2 : 2 ^ 16 * (2 ^ 8 * b0.toNat + b1.toNat) ||| 2 ^ 8 * b2.toNat
      = 2 ^ 8 * (2 ^ 8 * (2 ^ 8 * b0.toNat + b1.toNat) + b2.toNat) := by
    rw [← Nat.two_pow_add_eq_or_of_lt (show 2 ^ 8 * b2.toNat < 2 ^ 16 by omega)]
    omega
  rw [be32, BitVec.toNat_or, BitVec.toNat_or, BitVec.toNat_or, byte_shift_toNat b0 (by omega),
    byte_shift_toNat b1 (by omega), byte_shift_toNat b2 (by omega), hz, e1, e2, ← Nat.two_pow_add_eq_or_of_lt h3]
  omega

/-- A 16-bit value read from its wire bytes is the value (R58, R84). -/
theorem headerValue_wireBytes (h : Half) (rest : List Byte) : headerValue (wireBytes h ++ rest) = h := by
  apply BitVec.eq_of_toNat_eq
  have : headerValue (wireBytes h ++ rest) = be16 ((h >>> 8).setWidth 8) (h.setWidth 8) := rfl
  rw [this, be16_toNat]
  have := h.isLt
  simp only [BitVec.toNat_setWidth, BitVec.toNat_ushiftRight, Nat.shiftRight_eq_div_pow]
  omega

@[simp] theorem wireBytes_length (h : Half) : (wireBytes h).length = 2 := rfl

end Sys2Proof
end

