-- ==== Sys2Proof/Laws/State.lean ====
section
/-! SUPPORT. What each named update does to each field of the state, so that no later proof unfolds a record update. -/

namespace Sys2Proof.Machine

variable (s : State)

/-! ## The port oracle's draw -/

@[simp] theorem afterDraw_phase  : (s.afterDraw).phase = s.phase := rfl

@[simp] theorem afterDraw_rem  : (s.afterDraw).rem = s.rem := rfl

@[simp] theorem afterDraw_record  : (s.afterDraw).record = s.record := rfl

@[simp] theorem afterDraw_q  : (s.afterDraw).q = s.q := rfl

@[simp] theorem afterDraw_cur  : (s.afterDraw).cur = s.cur := rfl

@[simp] theorem afterDraw_response  : (s.afterDraw).response = s.response := rfl

@[simp] theorem afterDraw_inputs  : (s.afterDraw).inputs = s.inputs := rfl

@[simp] theorem afterDraw_fifoDepth  : (s.afterDraw).fifoDepth = s.fifoDepth := rfl

@[simp] theorem afterDraw_portErrors  : (s.afterDraw).portErrors = s.portErrors := rfl

@[simp] theorem afterDraw_schedule  : (s.afterDraw).schedule = s.schedule := rfl

@[simp] theorem afterDraw_oracle  : (s.afterDraw).oracle = s.oracle.tail := rfl

@[simp] theorem afterDraw_txns  : (s.afterDraw).txns = s.txns + 1 := rfl

@[simp] theorem afterDraw_readable : s.afterDraw.readable = s.readable := rfl

/-! ## Early return -/

@[simp] theorem raiseStatus_phase (st : Status) : (raiseStatus st s).phase = .finish st := rfl

@[simp] theorem raiseStatus_rem (st : Status) : (raiseStatus st s).rem = s.rem := rfl

@[simp] theorem raiseStatus_record (st : Status) : (raiseStatus st s).record = s.record := rfl

@[simp] theorem raiseStatus_q (st : Status) : (raiseStatus st s).q = s.q := rfl

@[simp] theorem raiseStatus_cur (st : Status) : (raiseStatus st s).cur = s.cur := rfl

@[simp] theorem raiseStatus_response (st : Status) : (raiseStatus st s).response = s.response := rfl

@[simp] theorem raiseStatus_inputs (st : Status) : (raiseStatus st s).inputs = s.inputs := rfl

@[simp] theorem raiseStatus_fifoDepth (st : Status) : (raiseStatus st s).fifoDepth = s.fifoDepth := rfl

@[simp] theorem raiseStatus_portErrors (st : Status) : (raiseStatus st s).portErrors = s.portErrors := rfl

@[simp] theorem raiseStatus_schedule (st : Status) : (raiseStatus st s).schedule = s.schedule := rfl

@[simp] theorem raiseStatus_oracle (st : Status) : (raiseStatus st s).oracle = s.oracle := rfl

@[simp] theorem raiseStatus_txns (st : Status) : (raiseStatus st s).txns = s.txns := rfl

/-! ## READ -/

@[simp] theorem takeBytes_phase (n : Nat) : (takeBytes n s).phase = s.phase := by unfold takeBytes; split <;> rfl

@[simp] theorem takeBytes_rem (n : Nat) : (takeBytes n s).rem = s.rem := by unfold takeBytes; split <;> rfl

@[simp] theorem takeBytes_record (n : Nat) : (takeBytes n s).record = s.record := by unfold takeBytes; split <;> rfl

@[simp] theorem takeBytes_response (n : Nat) : (takeBytes n s).response = s.response := by unfold takeBytes; split <;> rfl

@[simp] theorem takeBytes_inputs (n : Nat) : (takeBytes n s).inputs = s.inputs := by unfold takeBytes; split <;> rfl

@[simp] theorem takeBytes_fifoDepth (n : Nat) : (takeBytes n s).fifoDepth = s.fifoDepth := by unfold takeBytes; split <;> rfl

@[simp] theorem takeBytes_portErrors (n : Nat) : (takeBytes n s).portErrors = s.portErrors := by unfold takeBytes; split <;> rfl

@[simp] theorem takeBytes_schedule (n : Nat) : (takeBytes n s).schedule = s.schedule := by unfold takeBytes; split <;> rfl

@[simp] theorem takeBytes_oracle (n : Nat) : (takeBytes n s).oracle = s.oracle := by unfold takeBytes; split <;> rfl

@[simp] theorem takeBytes_txns (n : Nat) : (takeBytes n s).txns = s.txns := by unfold takeBytes; split <;> rfl

@[simp] theorem loseBytes_phase (k n : Nat) : (loseBytes k n s).phase = s.phase := by unfold loseBytes; split <;> rfl

@[simp] theorem loseBytes_rem (k n : Nat) : (loseBytes k n s).rem = s.rem := by unfold loseBytes; split <;> rfl

@[simp] theorem loseBytes_record (k n : Nat) : (loseBytes k n s).record = s.record := by unfold loseBytes; split <;> rfl

@[simp] theorem loseBytes_cur (k n : Nat) : (loseBytes k n s).cur = s.cur := by unfold loseBytes; split <;> rfl

@[simp] theorem loseBytes_response (k n : Nat) : (loseBytes k n s).response = s.response := by unfold loseBytes; split <;> rfl

@[simp] theorem loseBytes_inputs (k n : Nat) : (loseBytes k n s).inputs = s.inputs := by unfold loseBytes; split <;> rfl

@[simp] theorem loseBytes_fifoDepth (k n : Nat) : (loseBytes k n s).fifoDepth = s.fifoDepth := by unfold loseBytes; split <;> rfl

@[simp] theorem loseBytes_portErrors (k n : Nat) : (loseBytes k n s).portErrors = s.portErrors := by unfold loseBytes; split <;> rfl

@[simp] theorem loseBytes_schedule (k n : Nat) : (loseBytes k n s).schedule = s.schedule := by unfold loseBytes; split <;> rfl

@[simp] theorem loseBytes_oracle (k n : Nat) : (loseBytes k n s).oracle = s.oracle := by unfold loseBytes; split <;> rfl

@[simp] theorem loseBytes_txns (k n : Nat) : (loseBytes k n s).txns = s.txns := by unfold loseBytes; split <;> rfl

/-! ## RELEASE -/

@[simp] theorem fifoRelease_phase (commit : Bool) : (fifoRelease commit s).phase = s.phase := by unfold fifoRelease; split <;> (try split) <;> rfl

@[simp] theorem fifoRelease_rem (commit : Bool) : (fifoRelease commit s).rem = s.rem := by unfold fifoRelease; split <;> (try split) <;> rfl

@[simp] theorem fifoRelease_record (commit : Bool) : (fifoRelease commit s).record = s.record := by unfold fifoRelease; split <;> (try split) <;> rfl

@[simp] theorem fifoRelease_response (commit : Bool) : (fifoRelease commit s).response = s.response := by unfold fifoRelease; split <;> (try split) <;> rfl

@[simp] theorem fifoRelease_inputs (commit : Bool) : (fifoRelease commit s).inputs = s.inputs := by unfold fifoRelease; split <;> (try split) <;> rfl

@[simp] theorem fifoRelease_fifoDepth (commit : Bool) : (fifoRelease commit s).fifoDepth = s.fifoDepth := by unfold fifoRelease; split <;> (try split) <;> rfl

@[simp] theorem fifoRelease_portErrors (commit : Bool) : (fifoRelease commit s).portErrors = s.portErrors := by unfold fifoRelease; split <;> (try split) <;> rfl

@[simp] theorem fifoRelease_schedule (commit : Bool) : (fifoRelease commit s).schedule = s.schedule := by unfold fifoRelease; split <;> (try split) <;> rfl

@[simp] theorem fifoRelease_oracle (commit : Bool) : (fifoRelease commit s).oracle = s.oracle := by unfold fifoRelease; split <;> (try split) <;> rfl

@[simp] theorem fifoRelease_txns (commit : Bool) : (fifoRelease commit s).txns = s.txns := by unfold fifoRelease; split <;> (try split) <;> rfl

/-! ## The end of an attempt -/

@[simp] theorem finishAttempt_phase (st : Status) : (finishAttempt st s).phase = .idle := by unfold finishAttempt; simp

@[simp] theorem finishAttempt_rem (st : Status) : (finishAttempt st s).rem = s.rem := by unfold finishAttempt; simp

@[simp] theorem finishAttempt_record (st : Status) : (finishAttempt st s).record = s.record := by unfold finishAttempt; simp

@[simp] theorem finishAttempt_q (st : Status) : (finishAttempt st s).q = (fifoRelease (publishes st) s).q := by unfold finishAttempt; simp

@[simp] theorem finishAttempt_cur (st : Status) : (finishAttempt st s).cur = (fifoRelease (publishes st) s).cur := by unfold finishAttempt; simp

@[simp] theorem finishAttempt_response (st : Status) : (finishAttempt st s).response = some { status := st, record := if publishes st then some s.record else none } := by unfold finishAttempt; simp

@[simp] theorem finishAttempt_inputs (st : Status) : (finishAttempt st s).inputs = s.inputs := by unfold finishAttempt; simp

@[simp] theorem finishAttempt_fifoDepth (st : Status) : (finishAttempt st s).fifoDepth = s.fifoDepth := by unfold finishAttempt; simp

@[simp] theorem finishAttempt_portErrors (st : Status) : (finishAttempt st s).portErrors = s.portErrors := by unfold finishAttempt; simp

@[simp] theorem finishAttempt_schedule (st : Status) : (finishAttempt st s).schedule = s.schedule := by unfold finishAttempt; simp

@[simp] theorem finishAttempt_oracle (st : Status) : (finishAttempt st s).oracle = s.oracle := by unfold finishAttempt; simp

@[simp] theorem finishAttempt_txns (st : Status) : (finishAttempt st s).txns = s.txns := by unfold finishAttempt; simp

/-! ## The start of an attempt -/

@[simp] theorem startAttempt_q  : (startAttempt s).q = s.q := by unfold startAttempt; split <;> rfl

@[simp] theorem startAttempt_cur  : (startAttempt s).cur = s.cur := by unfold startAttempt; split <;> rfl

@[simp] theorem startAttempt_response  : (startAttempt s).response = s.response := by unfold startAttempt; split <;> rfl

@[simp] theorem startAttempt_inputs  : (startAttempt s).inputs = s.inputs := by unfold startAttempt; split <;> rfl

@[simp] theorem startAttempt_fifoDepth  : (startAttempt s).fifoDepth = s.fifoDepth := by unfold startAttempt; split <;> rfl

@[simp] theorem startAttempt_portErrors  : (startAttempt s).portErrors = s.portErrors := by unfold startAttempt; split <;> rfl

@[simp] theorem startAttempt_schedule  : (startAttempt s).schedule = s.schedule := by unfold startAttempt; split <;> rfl

@[simp] theorem startAttempt_oracle  : (startAttempt s).oracle = s.oracle := by unfold startAttempt; split <;> rfl

@[simp] theorem startAttempt_txns  : (startAttempt s).txns = s.txns := by unfold startAttempt; split <;> rfl

/-! ## The re-query -/

@[simp] theorem requery_record (e : Elem) : (requery e s).record = s.record := by unfold requery fifoCount; dsimp only; split <;> rfl

@[simp] theorem requery_q (e : Elem) : (requery e s).q = s.q := by unfold requery fifoCount; dsimp only; split <;> rfl

@[simp] theorem requery_cur (e : Elem) : (requery e s).cur = s.cur := by unfold requery fifoCount; dsimp only; split <;> rfl

@[simp] theorem requery_response (e : Elem) : (requery e s).response = s.response := by unfold requery fifoCount; dsimp only; split <;> rfl

@[simp] theorem requery_inputs (e : Elem) : (requery e s).inputs = s.inputs := by unfold requery fifoCount; dsimp only; split <;> rfl

@[simp] theorem requery_fifoDepth (e : Elem) : (requery e s).fifoDepth = s.fifoDepth := by unfold requery fifoCount; dsimp only; split <;> rfl

@[simp] theorem requery_portErrors (e : Elem) : (requery e s).portErrors = s.portErrors := by unfold requery fifoCount; dsimp only; split <;> rfl

@[simp] theorem requery_schedule (e : Elem) : (requery e s).schedule = s.schedule := by unfold requery fifoCount; dsimp only; split <;> rfl

@[simp] theorem requery_oracle (e : Elem) : (requery e s).oracle = s.oracle.tail := by unfold requery fifoCount; dsimp only; split <;> rfl

@[simp] theorem requery_txns (e : Elem) : (requery e s).txns = s.txns + 1 := by unfold requery fifoCount; dsimp only; split <;> rfl

/-! ## The other agents -/

@[simp] theorem acceptRequest_phase  : (acceptRequest s).phase = .start := rfl

@[simp] theorem acceptRequest_rem  : (acceptRequest s).rem = s.rem := rfl

@[simp] theorem acceptRequest_record  : (acceptRequest s).record = s.record := rfl

@[simp] theorem acceptRequest_q  : (acceptRequest s).q = s.q := rfl

@[simp] theorem acceptRequest_cur  : (acceptRequest s).cur = s.cur := rfl

@[simp] theorem acceptRequest_response  : (acceptRequest s).response = none := rfl

@[simp] theorem acceptRequest_inputs  : (acceptRequest s).inputs = s.inputs := rfl

@[simp] theorem acceptRequest_fifoDepth  : (acceptRequest s).fifoDepth = s.fifoDepth := rfl

@[simp] theorem acceptRequest_portErrors  : (acceptRequest s).portErrors = s.portErrors := rfl

@[simp] theorem acceptRequest_schedule  : (acceptRequest s).schedule = s.schedule := rfl

@[simp] theorem acceptRequest_oracle  : (acceptRequest s).oracle = s.oracle := rfl

@[simp] theorem acceptRequest_txns  : (acceptRequest s).txns = s.txns := rfl

@[simp] theorem resetDecoder_phase (c : Inputs) : (resetDecoder c s).phase = .idle := rfl

@[simp] theorem resetDecoder_rem (c : Inputs) : (resetDecoder c s).rem = 0 := rfl

@[simp] theorem resetDecoder_record (c : Inputs) : (resetDecoder c s).record = Record.empty := rfl

@[simp] theorem resetDecoder_q (c : Inputs) : (resetDecoder c s).q = s.q := rfl

@[simp] theorem resetDecoder_cur (c : Inputs) : (resetDecoder c s).cur = 0 := rfl

@[simp] theorem resetDecoder_response (c : Inputs) : (resetDecoder c s).response = none := rfl

@[simp] theorem resetDecoder_inputs (c : Inputs) : (resetDecoder c s).inputs = c := rfl

@[simp] theorem resetDecoder_fifoDepth (c : Inputs) : (resetDecoder c s).fifoDepth = s.fifoDepth := rfl

@[simp] theorem resetDecoder_portErrors (c : Inputs) : (resetDecoder c s).portErrors = s.portErrors := rfl

@[simp] theorem resetDecoder_schedule (c : Inputs) : (resetDecoder c s).schedule = s.schedule := rfl

@[simp] theorem resetDecoder_oracle (c : Inputs) : (resetDecoder c s).oracle = s.oracle := rfl

@[simp] theorem resetDecoder_txns (c : Inputs) : (resetDecoder c s).txns = s.txns := rfl

/-! ## The record -/

@[simp] theorem set_header (r : Record) (n : FieldName) (bs : List Byte) : (r.set n bs).header = r.header := rfl

@[simp] theorem set_header2 (r : Record) (n : FieldName) (bs : List Byte) : (r.set n bs).header2 = r.header2 := rfl

@[simp] theorem set_footer (r : Record) (n : FieldName) (bs : List Byte) : (r.set n bs).footer = r.footer := rfl

@[simp] theorem set_fld (r : Record) (n : FieldName) (bs : List Byte) : (r.set n bs).fld = fldSet n bs r.fld := rfl

end Sys2Proof.Machine
end

