-- ==== Sys2Proof/Laws/Ops.lean ====
section
/-! SUPPORT. What each shared operation can do, said once: the FIFO port, the element step, the decoder's turn, and the
step of the machine. -/

namespace Sys2Proof.Machine

/-! ## The FIFO port -/

/-- A status the port answers is `Ok` or a member of `PORT_ERRORS` (R27). -/
theorem portStatus_mem (s : State) : s.portStatus = .ok ∨ s.portStatus ∈ s.portErrors := by
  unfold State.portStatus
  split
  · next h => exact .inr (by simpa using h)
  · exact .inl rfl

theorem takeBytes_transactional {s : State} (h : s.inputs.readMode = .transactional) (n : Nat) :
    takeBytes n s = { s with cur := s.cur + n } := by
  simp [takeBytes, h]

theorem takeBytes_destructive {s : State} (h : s.inputs.readMode = .destructive) (n : Nat) :
    takeBytes n s = { s with q := s.q.drop n } := by
  simp [takeBytes, h]

theorem loseBytes_transactional {s : State} (h : s.inputs.readMode = .transactional) (k n : Nat) :
    loseBytes k n s = s := by
  simp [loseBytes, h]

theorem loseBytes_destructive {s : State} (h : s.inputs.readMode = .destructive) (k n : Nat) :
    loseBytes k n s = { s with q := s.q.drop (min k n) } := by
  simp [loseBytes, h]

theorem readMode_cases (m : ReadMode) : m = .transactional ∨ m = .destructive := by
  cases m <;> simp

/-- A READ of bytes that are there returns as many bytes as it asks for (R27). -/
theorem nextBytes_length {s : State} {n : Nat} (h : n ≤ s.readable) : (nextBytes n s).length = n := by
  unfold State.readable at h
  unfold nextBytes
  split
  · simp only [List.length_take, List.length_drop]; omega
  · simp only [List.length_take]; omega

/-- READ takes `n` from what is readable (R55). -/
theorem takeBytes_readable {s : State} (n : Nat) : (takeBytes n s).readable = s.readable - n := by
  unfold takeBytes State.readable
  split <;> simp only [List.length_drop] <;> omega

/-! ## The element step -/

/-- The port's status depends on the oracle, its counter and `PORT_ERRORS` alone. -/
theorem portStatus_congr {s t : State} (ho : t.oracle = s.oracle) (hx : t.txns = s.txns)
    (hp : t.portErrors = s.portErrors) : t.portStatus = s.portStatus := by
  unfold State.portStatus State.draw
  rw [ho, hx, hp]

/-- A re-query that is answered (R141). -/
theorem requery_ok {s : State} (h : s.portStatus = .ok) (e : Elem) :
    requery e s = { s.afterDraw with rem := BitVec.ofNat 16 s.readable, phase := .need e true } := by
  simp [requery, fifoCount, h]

/-- A re-query that fails (R141, R233). -/
theorem requery_error {s : State} (h : s.portStatus ≠ .ok) (e : Elem) :
    requery e s = raiseStatus s.portStatus s.afterDraw := by
  simp [requery, fifoCount, h]

/-- Everything an element step can do where it answers a next state (R141, R142). -/
theorem elementStep_next {e : Elem} {queried : Bool} {s t : State} (h : elementStep e queried s = .next t) :
    ∃ n, elemLen s.inputs e = some n ∧
      ((s.rem.toNat < n ∧ queried = true ∧ t = raiseStatus .fifoNoDataAvailable s) ∨
       (s.rem.toNat < n ∧ queried = false ∧ s.portStatus = .ok ∧
          t = { s.afterDraw with rem := BitVec.ofNat 16 s.readable, phase := .need e true }) ∨
       (s.rem.toNat < n ∧ queried = false ∧ s.portStatus ≠ .ok ∧ t = raiseStatus s.portStatus s.afterDraw) ∨
       (n ≤ s.rem.toNat ∧ s.portStatus ≠ .ok ∧
          t = raiseStatus s.portStatus (loseBytes s.draw.lost n s.afterDraw)) ∨
       (n ≤ s.rem.toNat ∧ s.portStatus = .ok ∧ n ≤ s.readable ∧
          ∃ r, applyElem s.inputs e (nextBytes n s) s.record = some r ∧
            t = { takeBytes n s.afterDraw with
                    record := r
                    rem := s.rem - BitVec.ofNat 16 n
                    phase := phaseAfter s.inputs r (s.rem - BitVec.ofNat 16 n) e })) := by
  unfold elementStep at h
  split at h
  · cases h
  · next n hn =>
    refine ⟨n, hn, ?_⟩
    split at h
    · next hlt =>
      split at h
      · next hq => cases h; exact .inl ⟨hlt, hq, rfl⟩
      · next hq =>
        have hq : queried = false := by simpa using hq
        cases h
        by_cases hp : s.portStatus = .ok
        · exact .inr (.inl ⟨hlt, hq, hp, by simp [requery, fifoCount, hp]⟩)
        · exact .inr (.inr (.inl ⟨hlt, hq, hp, by simp [requery, fifoCount, hp]⟩))
    · next hge =>
      have hge : n ≤ s.rem.toNat := by omega
      unfold extract fifoRead at h
      by_cases hp : s.portStatus = .ok
      · by_cases hr : n ≤ s.readable
        · simp only [hp, hr, if_true] at h
          split at h
          · cases h
          · next r hrec =>
            cases h
            refine .inr (.inr (.inr (.inr ⟨hge, hp, hr, r, by simpa using hrec, by simp⟩)))
        · simp [hp, hr] at h
      · simp only [hp, if_false] at h
        cases h
        exact .inr (.inr (.inr (.inl ⟨hge, hp, rfl⟩)))

/-- The extraction of an element whose bytes are known and there, with no port error (R142). -/
theorem elementStep_extracts {e : Elem} {queried : Bool} {s : State} {n : Nat} {r : Record}
    (hn : elemLen s.inputs e = some n) (hrem : n ≤ s.rem.toNat) (hp : s.portStatus = .ok) (hr : n ≤ s.readable)
    (ha : applyElem s.inputs e (nextBytes n s) s.record = some r) :
    elementStep e queried s = .next { takeBytes n s.afterDraw with
      record := r
      rem := s.rem - BitVec.ofNat 16 n
      phase := phaseAfter s.inputs r (s.rem - BitVec.ofNat 16 n) e } := by
  have : ¬ s.rem.toNat < n := by omega
  simp [elementStep, hn, this, extract, fifoRead, hp, hr, ha]

/-! ## The instructions -/

theorem indexFrom_spec {n : FieldName} {l : List Entry} {j k : Nat} (h : indexFrom n l j = some k) :
    j ≤ k ∧ (l[k - j]?.map (·.name)) = some n := by
  induction l generalizing j with
  | nil => simp [indexFrom] at h
  | cons e es ih =>
    unfold indexFrom at h
    split at h
    · next he => cases h; simp [he]
    · obtain ⟨h1, h2⟩ := ih h
      refine ⟨by omega, ?_⟩
      have : k - j = (k - (j + 1)) + 1 := by omega
      rw [this, List.getElem?_cons_succ]
      exact h2

theorem fieldIndex_spec {n : FieldName} {s : State} {k : Nat} (h : fieldIndex n s = some k) :
    (s.inputs.fieldTable[k]?.map (·.name)) = some n := by
  have aux : ∀ {k}, indexFrom n s.inputs.fieldTable 0 = some k →
      (s.inputs.fieldTable[k]?.map (·.name)) = some n := fun h => by
    simpa using (indexFrom_spec h).2
  unfold fieldIndex at h
  split at h
  · split at h
    · next hk => cases h; exact hk
    · exact aux h
  · exact aux h

/-- The field instruction of a name works on the entry of that name, or, where there is none, is an ignored bit. -/
theorem fieldInstr_eq (n : FieldName) (s : State) :
    fieldInstr n s = match (fieldIndex n s).map Elem.fld with
      | some e => elementInstr e s
      | none => .next s := by
  unfold fieldInstr ignoredBit
  cases fieldIndex n s <;> rfl

theorem exec_of_fieldOf {i : Instr} {n : FieldName} (h : fieldOf i = some n) (s : State) :
    exec i s = fieldInstr n s := by
  cases i <;> simp only [fieldOf] at h <;> cases h <;> rfl

/-- An instruction that extracts an element is that element's step (R142). -/
theorem exec_of_elemOf {i : Instr} {s : State} {e : Elem} (h : elemOf i s = some e) :
    exec i s = elementInstr e s := by
  by_cases hf : ∃ n, fieldOf i = some n
  · obtain ⟨n, hn⟩ := hf
    rw [exec_of_fieldOf hn, fieldInstr_eq]
    have : elemOf i s = (fieldIndex n s).map .fld := by
      cases i <;> simp only [fieldOf] at hn <;> cases hn <;> rfl
    rw [← this, h]
  · cases i <;> simp [fieldOf] at hf <;> simp [elemOf, fieldOf] at h <;> subst h <;> rfl

/-! ## The decoder's turn -/

theorem decoderTurn_idle {s : State} (h : s.phase = .idle) : decoderTurn s = .next s := by
  simp [decoderTurn, fetch, stepWithoutRow, h]

theorem decoderTurn_start {s : State} (h : s.phase = .start) : decoderTurn s = .next (startAttempt s) := by
  unfold decoderTurn fetch
  rw [h]
  cases hf : s.inputs.fwPresent <;> simp [exec, execDecode, execDecodeNoFw]

theorem decoderTurn_finish {s : State} {st : Status} (h : s.phase = .finish st) :
    decoderTurn s = .next (finishAttempt st s) := by
  simp [decoderTurn, fetch, stepWithoutRow, h]

theorem fieldOf_instrOfName {n : FieldName} {i : Instr} (h : instrOfName n = some i) : fieldOf i = some n := by
  cases n <;> simp only [instrOfName] at h <;> cases h <;> rfl

theorem queriedFor_need (e : Elem) (b : Bool) : queriedFor e (.need e b) = b := by
  simp [queriedFor]

/-- In `Need` the decoder's turn is the step of the element that the phase register names. -/
theorem decoderTurn_need {s : State} {e : Elem} {b : Bool} (h : s.phase = .need e b) :
    decoderTurn s = elementStep e b s := by
  have key : elementInstr e s = elementStep e b s := by rw [elementInstr, h, queriedFor_need]
  cases e with
  | hdr1 => simpa [decoderTurn, fetch, h, exec, execPrimaryHeader] using key
  | hdr2 => simpa [decoderTurn, fetch, h, exec, execSecondaryHeader] using key
  | footer => simpa [decoderTurn, fetch, h, exec, execFooter] using key
  | fld k =>
    unfold decoderTurn fetch
    rw [h]
    cases hk : s.inputs.fieldTable[k]? with
    | none => simp [stepWithoutRow, h, hk]
    | some ent =>
      cases hi : instrOfName ent.name with
      | none => simp [stepWithoutRow, h, hk, hi]
      | some i =>
        have hx : fieldIndex ent.name s = some k := by simp [fieldIndex, h, hk]
        simp only [hk, hi]
        rw [exec_of_fieldOf (fieldOf_instrOfName hi), fieldInstr, hx]
        exact key

/-- Everything the decoder's turn can do where it answers a next state (R25). -/
theorem decoderTurn_next {s t : State} (h : decoderTurn s = .next t) :
    (s.phase = .idle ∧ t = s) ∨ (s.phase = .start ∧ t = startAttempt s) ∨
    (∃ st, s.phase = .finish st ∧ t = finishAttempt st s) ∨
    (∃ e b, s.phase = .need e b ∧ elementStep e b s = .next t) := by
  cases hp : s.phase with
  | idle => rw [decoderTurn_idle hp] at h; cases h; exact .inl ⟨rfl, rfl⟩
  | start => rw [decoderTurn_start hp] at h; cases h; exact .inr (.inl ⟨rfl, rfl⟩)
  | finish st => rw [decoderTurn_finish hp] at h; cases h; exact .inr (.inr (.inl ⟨st, rfl, rfl⟩))
  | need e b => rw [decoderTurn_need hp] at h; exact .inr (.inr (.inr ⟨e, b, rfl, h⟩))

/-! ## The machine's step -/

/-- Everything a step can do where it answers a next state: the move that comes next. -/
theorem step_next {s t : State} (h : step s = .next t) :
    s.inputs.wf = true ∧ portErrorsOk s.portErrors = true ∧
    ((s.schedule = [] ∧ decoderTurn s = .next t) ∨
     (∃ rest, s.schedule = .decoder :: rest ∧ decoderTurn { s with schedule := rest } = .next t) ∨
     (∃ b bs rest, s.schedule = .append b bs :: rest ∧ s.q.length + (bs.length + 1) ≤ s.fifoDepth.toNat ∧
        t = { s with schedule := rest, q := s.q ++ b :: bs }) ∨
     (∃ rest, s.schedule = .request :: rest ∧ s.phase = .idle ∧ t = acceptRequest { s with schedule := rest }) ∨
     (∃ rest, s.schedule = .request :: rest ∧ s.phase ≠ .idle ∧ decoderTurn s = .next t) ∨
     (∃ c rest, s.schedule = .configure c :: rest ∧
        (c = s.inputs ∨ s.phase = .idle ∧ { s.inputs with fwPresent := c.fwPresent } = c) ∧
        t = { s with schedule := rest, inputs := c }) ∨
     (∃ c rest, s.schedule = .reset c :: rest ∧ t = resetDecoder c { s with schedule := rest })) := by
  unfold step takeTurn at h
  split at h
  · cases h
  · next h1 =>
    split at h
    · cases h
    · next h2 =>
      refine ⟨by simpa using h1, by simpa using h2, ?_⟩
      split at h
      · next hs => exact .inl ⟨hs, h⟩
      · next rest hs => exact .inr (.inl ⟨rest, hs, h⟩)
      · next b bs rest hs =>
        unfold producerAppend at h
        split at h
        · next hle => cases h; exact .inr (.inr (.inl ⟨b, bs, rest, hs, by simpa using hle, rfl⟩))
        · cases h
      · next rest hs =>
        split at h
        · next hi => cases h; exact .inr (.inr (.inr (.inl ⟨rest, hs, hi, rfl⟩)))
        · next hi => exact .inr (.inr (.inr (.inr (.inl ⟨rest, hs, hi, h⟩))))
      · next c rest hs =>
        unfold configureInputs at h
        refine .inr (.inr (.inr (.inr (.inr (.inl ⟨c, rest, hs, ?_⟩)))))
        split at h
        · next hc => cases h; exact ⟨.inl hc, by rw [hc]⟩
        · split at h
          · next hc => cases h; exact ⟨.inr hc, rfl⟩
          · cases h
      · next c rest hs => cases h; exact .inr (.inr (.inr (.inr (.inr (.inr ⟨c, rest, hs, rfl⟩)))))

/-- The same by agent: the decoder's turn, on the state with some schedule, or a move of another agent. -/
theorem step_cases {s t : State} (h : step s = .next t) :
    (∃ sch, decoderTurn { s with schedule := sch } = .next t) ∨
    (∃ b bs rest, s.q.length + (bs.length + 1) ≤ s.fifoDepth.toNat ∧
        t = { s with schedule := rest, q := s.q ++ b :: bs }) ∨
    (∃ rest, s.phase = .idle ∧ t = acceptRequest { s with schedule := rest }) ∨
    (∃ c rest, s.schedule = .configure c :: rest ∧
        (c = s.inputs ∨ s.phase = .idle ∧ { s.inputs with fwPresent := c.fwPresent } = c) ∧
        t = { s with schedule := rest, inputs := c }) ∨
    (∃ c rest, s.schedule = .reset c :: rest ∧ t = resetDecoder c { s with schedule := rest }) := by
  obtain ⟨-, -, ⟨-, h⟩ | ⟨rest, -, h⟩ | ⟨b, bs, rest, -, h⟩ | ⟨rest, -, h⟩ | ⟨rest, -, -, h⟩ | ⟨c, rest, h⟩ |
    ⟨c, rest, h⟩⟩ := step_next h
  · exact .inl ⟨s.schedule, h⟩
  · exact .inl ⟨rest, h⟩
  · exact .inr (.inl ⟨b, bs, rest, h⟩)
  · exact .inr (.inr (.inl ⟨rest, h⟩))
  · exact .inl ⟨s.schedule, h⟩
  · exact .inr (.inr (.inr (.inl ⟨c, rest, h⟩)))
  · exact .inr (.inr (.inr (.inr ⟨c, rest, h⟩)))

/-- The decoder's turn leaves the schedule and the configuration alone. -/
theorem decoderTurn_static {s t : State} (h : decoderTurn s = .next t) :
    t.schedule = s.schedule ∧ t.inputs = s.inputs ∧ t.fifoDepth = s.fifoDepth ∧ t.portErrors = s.portErrors := by
  rcases decoderTurn_next h with ⟨-, rfl⟩ | ⟨-, rfl⟩ | ⟨st, -, rfl⟩ | ⟨e, b, -, h⟩
  · simp
  · simp
  · simp
  · obtain ⟨n, -, ⟨-, -, rfl⟩ | ⟨-, -, -, rfl⟩ | ⟨-, -, -, rfl⟩ | ⟨-, -, rfl⟩ | ⟨-, -, -, r, -, rfl⟩⟩ :=
      elementStep_next h <;> simp

end Sys2Proof.Machine
end

