-- ==== Sys2Proof/Laws/Fifo.lean ====
section
/-! SUPPORT. Every operation on the FIFO keeps its form (R30), and reset has it. -/

namespace Sys2Proof.Machine

theorem fifoWf_iff (s : State) : fifoWf s = true ↔
    s.cur ≤ s.q.length ∧ s.q.length ≤ s.fifoDepth.toNat ∧
      (s.inputs.readMode = .transactional ∨ s.cur = 0) := by
  simp [fifoWf, and_assoc]

theorem fifoWf_reset : fifoWf State.reset = true := by
  rw [fifoWf_iff]; simp [State.reset, defaultInputs]

theorem fifoWf_afterDraw {s : State} (h : fifoWf s = true) : fifoWf s.afterDraw = true := h

/-- A READ keeps the FIFO's form. -/
theorem fifoWf_takeBytes {s : State} {n : Nat} (h : fifoWf s = true) (hn : n ≤ s.readable) :
    fifoWf (takeBytes n s) = true := by
  rw [fifoWf_iff] at *
  unfold State.readable at hn
  rcases readMode_cases s.inputs.readMode with hm | hm
  · simp only [takeBytes_transactional hm, hm, true_or, and_true]; omega
  · have h0 : s.cur = 0 := by simpa [hm] using h.2.2
    simp only [takeBytes_destructive hm, List.length_drop, h0]
    exact ⟨by omega, by omega, .inr trivial⟩

/-- A failed READ keeps the FIFO's form. -/
theorem fifoWf_loseBytes {s : State} (k n : Nat) (h : fifoWf s = true) : fifoWf (loseBytes k n s) = true := by
  rcases readMode_cases s.inputs.readMode with hm | hm
  · rw [loseBytes_transactional hm]; exact h
  · rw [fifoWf_iff] at *
    have h0 : s.cur = 0 := by simpa [hm] using h.2.2
    simp only [loseBytes_destructive hm, List.length_drop, h0]
    exact ⟨by omega, by omega, .inr trivial⟩

/-- RELEASE keeps the FIFO's form, and leaves the cursor at 0. -/
theorem fifoWf_fifoRelease {s : State} (commit : Bool) (h : fifoWf s = true) :
    fifoWf (fifoRelease commit s) = true ∧ (fifoRelease commit s).cur = 0 := by
  simp only [fifoWf_iff] at *
  rcases readMode_cases s.inputs.readMode with hm | hm
  · cases commit <;> simp [fifoRelease, hm] <;> omega
  · have h0 : s.cur = 0 := by simpa [hm] using h.2.2
    simp only [fifoRelease, hm, h0]
    exact ⟨⟨by omega, h.2.1, .inr trivial⟩, trivial⟩

/-- The producer's append keeps the FIFO's form. -/
theorem fifoWf_append {s : State} {bs : List Byte} (h : fifoWf s = true)
    (hd : s.q.length + bs.length ≤ s.fifoDepth.toNat) : fifoWf { s with q := s.q ++ bs } = true := by
  simp only [fifoWf_iff, List.length_append] at *
  refine ⟨by omega, by omega, h.2.2⟩

/-- A reset keeps the FIFO's form: the bytes stay, and the cursor goes to 0 (R261). -/
theorem fifoWf_resetDecoder {s : State} (c : Inputs) (h : fifoWf s = true) : fifoWf (resetDecoder c s) = true := by
  simp only [fifoWf_iff, resetDecoder_cur, resetDecoder_q, resetDecoder_fifoDepth] at *
  exact ⟨by omega, h.2.1, .inr trivial⟩

end Sys2Proof.Machine
end

