-- ==== Sys2Proof/Laws/Record.lean ====
section
/-! SUPPORT. The record's fields: what is written reads back, the other names are left alone, and the one form of the list is
kept. -/

namespace Sys2Proof.Machine

theorem nameCode_injective {a b : FieldName} (h : nameCode a = nameCode b) : a = b := by
  cases a <;> cases b <;> simp [nameCode] at h <;> first | rfl | omega | (rw [h])

@[simp] theorem fldGet_fldSet_same (n : FieldName) (bs : List Byte) (l : List FieldVal) :
    fldGet n (fldSet n bs l) = some bs := by
  induction l with
  | nil => simp [fldSet, fldGet]
  | cons v l ih =>
    unfold fldSet
    split
    · simp [fldGet]
    · next hv =>
      split
      · simp [fldGet]
      · simp [fldGet, hv, ih]

@[simp] theorem fldGet_fldSet_other {n m : FieldName} (h : m ≠ n) (bs : List Byte) (l : List FieldVal) :
    fldGet m (fldSet n bs l) = fldGet m l := by
  induction l with
  | nil => simp [fldSet, fldGet, Ne.symm h]
  | cons v l ih =>
    unfold fldSet
    split
    · next hv => simp [fldGet, hv, Ne.symm h]
    · split
      · simp [fldGet, Ne.symm h]
      · simp [fldGet, ih]

/-- `rec.fld[name] <- some bs` is read back (R143). -/
@[simp] theorem get_set_same (r : Record) (n : FieldName) (bs : List Byte) : (r.set n bs).get n = some bs := by
  simp [Record.get]

/-- It changes no other field. -/
@[simp] theorem get_set_other {n m : FieldName} (h : m ≠ n) (r : Record) (bs : List Byte) :
    (r.set n bs).get m = r.get m := by
  simp [Record.get, h]

@[simp] theorem get_empty (n : FieldName) : Record.empty.get n = none := rfl

theorem mem_fldSet {n : FieldName} {bs : List Byte} {l : List FieldVal} {w : FieldVal} (h : w ∈ fldSet n bs l) :
    w = ⟨n, bs⟩ ∨ w ∈ l := by
  induction l with
  | nil => simpa [fldSet] using h
  | cons v l ih =>
    unfold fldSet at h
    split at h
    · rcases List.mem_cons.mp h with h | h
      · exact .inl h
      · exact .inr (List.mem_cons_of_mem _ h)
    · split at h
      · rcases List.mem_cons.mp h with h | h
        · exact .inl h
        · exact .inr h
      · rcases List.mem_cons.mp h with h | h
        · exact .inr (by simp [h])
        · rcases ih h with h | h
          · exact .inl h
          · exact .inr (List.mem_cons_of_mem _ h)

/-- Writing a field keeps the one form of the list. -/
theorem fldSorted_fldSet (n : FieldName) (bs : List Byte) {l : List FieldVal} (h : fldSorted l = true) :
    fldSorted (fldSet n bs l) = true := by
  induction l with
  | nil => simp [fldSet, fldSorted]
  | cons v l ih =>
    simp only [fldSorted, Bool.and_eq_true, List.all_eq_true, decide_eq_true_eq] at h
    unfold fldSet
    split
    · next hv => simpa [fldSorted, ← hv] using h
    · next hv =>
      have hc : nameCode v.name ≠ nameCode n := fun hc => hv (nameCode_injective hc)
      split
      · next hlt =>
        simp only [fldSorted, Bool.and_eq_true, List.all_eq_true, decide_eq_true_eq]
        refine ⟨fun w hw => ?_, h⟩
        rcases List.mem_cons.mp hw with hw | hw
        · rw [hw]; exact hlt
        · have := h.1 w hw; omega
      · next hge =>
        simp only [fldSorted, Bool.and_eq_true, List.all_eq_true, decide_eq_true_eq]
        refine ⟨fun w hw => ?_, ih h.2⟩
        rcases mem_fldSet hw with hw | hw
        · rw [hw]; show nameCode v.name < nameCode n; omega
        · exact h.1 w hw

theorem recordWf_set {r : Record} (n : FieldName) (bs : List Byte) (h : recordWf r = true) :
    recordWf (r.set n bs) = true := fldSorted_fldSet n bs h

theorem recordWf_empty : recordWf Record.empty = true := rfl

/-- `apply` keeps the record's form. -/
theorem recordWf_applyElem {c : Inputs} {e : Elem} {bs : List Byte} {r r' : Record} (h : recordWf r = true)
    (ha : applyElem c e bs r = some r') : recordWf r' = true := by
  unfold applyElem at ha
  split at ha
  · cases ha; exact h
  · cases ha; exact h
  · split at ha
    · next ent _ =>
      cases hc : canon c ent.fmt bs with
      | none => simp [hc] at ha
      | some cs => simp [hc] at ha; subst ha; exact recordWf_set _ _ h
    · cases ha
  · cases ha; exact h

end Sys2Proof.Machine
end

