-- ==== Sys2Proof/Laws/Reorder.lean ====
section
/-! SUPPORT. The byte-reorder pipeline: what a scatter writes, when a reorder answers, and that it answers in a well-formed
configuration (R181, R194). -/

namespace Sys2Proof.Machine

theorem isPermutation_iff (d : List Nat) (n : Nat) :
    isPermutation d n = true ↔ d.length = n ∧ ∀ i < n, i ∈ d := by
  simp [isPermutation]

/-- A permutation of `0 .. n-1` holds no index twice, and none outside the range. -/
theorem isPermutation_nodup {d : List Nat} {n : Nat} (h : isPermutation d n = true) :
    d.Nodup ∧ ∀ i ∈ d, i < n := by
  rw [isPermutation_iff] at h
  have hsub : List.range n ⊆ d := fun i hi => h.2 i (List.mem_range.mp hi)
  have hp : (List.range n).Perm d :=
    (List.nodup_range.subperm hsub).perm_of_length_le (by simp [h.1])
  exact ⟨hp.nodup_iff.mp List.nodup_range, fun i hi => List.mem_range.mp (hp.mem_iff.mpr hi)⟩

/-! ## The scatter stage -/

@[simp] theorem scatter_length : ∀ (d : List Nat) (w : List Byte) (out : List (Option Byte)),
    (scatter d w out).length = out.length
  | [], _, _ => by simp [scatter]
  | _ :: _, [], _ => by simp [scatter]
  | t :: ts, b :: bs, out => by rw [scatter, scatter_length ts bs]; simp

/-- A scatter leaves alone what it has no lane for. -/
theorem scatter_not_mem : ∀ (d : List Nat) (w : List Byte) (out : List (Option Byte)) {j : Nat}, j ∉ d →
    (scatter d w out)[j]? = out[j]?
  | [], _, _, _, _ => by simp [scatter]
  | _ :: _, [], _, _, _ => by simp [scatter]
  | t :: ts, b :: bs, out, j, h => by
    simp only [List.mem_cons, not_or] at h
    rw [scatter, scatter_not_mem ts bs _ h.2, List.getElem?_set_ne (Ne.symm h.1)]

/-- Where no index stands twice, lane `i` writes wire byte `i` to its index. -/
theorem scatter_mem : ∀ (d : List Nat) (w : List Byte) (out : List (Option Byte)) {i j : Nat}, d.Nodup →
    d.length = w.length → d[i]? = some j → j < out.length → (scatter d w out)[j]? = (w[i]?).map some
  | [], _, _, _, _, _, _, h, _ => by simp at h
  | _ :: _, [], _, _, _, _, h, _, _ => by simp at h
  | t :: ts, b :: bs, out, i, j, hn, hl, h, hj => by
    rw [scatter]
    simp only [List.nodup_cons, List.length_cons, Nat.add_right_cancel_iff] at hn hl
    cases i with
    | zero =>
      simp only [List.getElem?_cons_zero, Option.some.injEq] at h
      subst h
      rw [scatter_not_mem _ _ _ hn.1]
      simp [hj]
    | succ i =>
      simp only [List.getElem?_cons_succ] at h
      rw [scatter_mem ts bs _ hn.2 hl h (by simpa using hj)]
      simp

theorem allSome_isSome {α : Type} : ∀ l : List (Option α), (allSome l).isSome = l.all (·.isSome)
  | [] => rfl
  | none :: _ => rfl
  | some _ :: l => by simp [allSome, ← allSome_isSome l]

theorem allSome_eq {α : Type} : ∀ {l : List (Option α)} {o : List α}, allSome l = some o → l = o.map some
  | [], _, h => by simp only [allSome, Option.some.injEq] at h; subst h; rfl
  | none :: _, _, h => by simp [allSome] at h
  | some a :: l, o, h => by
    simp only [allSome, Option.map_eq_some_iff] at h
    obtain ⟨o', h1, rfl⟩ := h
    simp [allSome_eq h1]

/-! ## The reorder of a field -/

/-- A reorder answers exactly for a permutation of the wire list's indices (R191, R194). -/
theorem remap_isSome (d : List Nat) (w : List Byte) : (remap d w).isSome = isPermutation d w.length := by
  rw [Bool.eq_iff_iff]
  unfold remap
  split
  · next hl =>
    rw [allSome_isSome, List.all_eq_true]
    constructor
    · intro h
      rw [isPermutation_iff]
      refine ⟨hl, fun i hi => ?_⟩
      by_contra hni
      have hnone : (scatter d w (List.replicate w.length none))[i]? = some none := by
        rw [scatter_not_mem d w _ hni]; simp [hi]
      simpa using h none (List.mem_of_getElem? hnone)
    · intro hp x hx
      obtain ⟨j, hj, rfl⟩ := List.mem_iff_getElem.mp hx
      rw [scatter_length, List.length_replicate] at hj
      obtain ⟨i, hi, hij⟩ := List.mem_iff_getElem.mp (((isPermutation_iff _ _).mp hp).2 j hj)
      have := scatter_mem d w (List.replicate w.length none) (isPermutation_nodup hp).1 hl
        (show d[i]? = some j by rw [List.getElem?_eq_getElem hi, hij]) (by simpa using hj)
      rw [List.getElem?_eq_getElem (by rw [scatter_length, List.length_replicate]; exact hj),
        List.getElem?_eq_getElem (by omega)] at this
      simp only [Option.map_some, Option.some.injEq] at this
      simp [this]
  · next hl =>
    have : isPermutation d w.length = false := by
      rw [← Bool.not_eq_true, isPermutation_iff]; exact fun h => hl h.1
    simp [this]

/-- A reorder keeps the length (R180). -/
theorem remap_length {d : List Nat} {w o : List Byte} (h : remap d w = some o) : o.length = w.length := by
  unfold remap at h
  split at h
  · have := congrArg List.length (allSome_eq h)
    simpa using this.symm
  · cases h

/-- In a well-formed configuration a field's bytes always have their canonical form (R194), as long as they are (R180). -/
theorem canon_total {c : Inputs} (hw : c.wf = true) {ent : Entry} (he : ent ∈ c.fieldTable) {w : List Byte}
    (hl : w.length = ent.len) : ∃ o, canon c ent.fmt w = some o ∧ o.length = ent.len := by
  simp only [Inputs.wf, Bool.and_eq_true] at hw
  have h7 := hw.1.1.2
  unfold Inputs.remapPermsOk at h7
  have h := List.all_eq_true.mp h7 ent he
  unfold canon
  cases hf : ent.fmt with
  | remap t =>
    simp only [hf] at h ⊢
    cases ht : c.permTable t with
    | none => simp [ht] at h
    | some d =>
      simp only [ht, ← hl] at h ⊢
      obtain ⟨o, ho⟩ := Option.isSome_iff_exists.mp ((remap_isSome d w).trans h)
      exact ⟨o, ho, remap_length ho⟩
  | be16 => exact ⟨w, rfl, hl⟩
  | be32 => exact ⟨w, rfl, hl⟩
  | raw => exact ⟨w, rfl, hl⟩

/-- In a well-formed configuration `apply` never fails on an element's bytes (R143, R194). -/
theorem applyElem_total {c : Inputs} (hw : c.wf = true) {e : Elem} {n : Nat} (hl : elemLen c e = some n)
    {bs : List Byte} (hb : bs.length = n) (r : Record) : ∃ r', applyElem c e bs r = some r' := by
  cases e with
  | fld k =>
    simp only [elemLen, Option.map_eq_some_iff] at hl
    obtain ⟨ent, h1, h2⟩ := hl
    obtain ⟨o, ho, -⟩ := canon_total hw (List.mem_of_getElem? h1) (hb.trans h2.symm)
    exact ⟨r.set ent.name o, by simp [applyElem, h1, ho]⟩
  | hdr1 => exact ⟨_, rfl⟩
  | hdr2 => exact ⟨_, rfl⟩
  | footer => exact ⟨_, rfl⟩

/-- `apply` changes only the element's own part of the record (R143). -/
theorem applyElem_frame {c : Inputs} {e : Elem} {bs : List Byte} {r r' : Record} (h : applyElem c e bs r = some r') :
    (e ≠ .hdr1 → r'.header = r.header) ∧ (e ≠ .hdr2 → r'.header2 = r.header2) ∧
    (e ≠ .footer → r'.footer = r.footer) ∧
    (∀ name, (∀ k ent, e = .fld k → c.fieldTable[k]? = some ent → ent.name ≠ name) → r'.get name = r.get name) := by
  unfold applyElem at h
  split at h
  · cases h; simp [Record.get]
  · cases h; simp [Record.get]
  · next k =>
    split at h
    · next ent hk =>
      obtain ⟨cs, -, rfl⟩ := Option.map_eq_some_iff.mp h
      refine ⟨by simp, by simp, by simp, fun name hn => ?_⟩
      rw [get_set_other (Ne.symm (hn k ent rfl hk))]
    · cases h
  · cases h; simp [Record.get]

/-! ## The default tables by id -/

@[simp] theorem permTable_pquat6 : defaultInputs.permTable .pquat6 = some [1, 0, 3, 2, 5, 4] := rfl

@[simp] theorem permTable_quat6 :
    defaultInputs.permTable .quat6 = some [3, 2, 1, 0, 7, 6, 5, 4, 11, 10, 9, 8] := rfl

@[simp] theorem permTable_quat9 :
    defaultInputs.permTable .quat9 = some [3, 2, 1, 0, 7, 6, 5, 4, 11, 10, 9, 8, 13, 12] := rfl

@[simp] theorem permTable_rawGyro :
    defaultInputs.permTable .rawGyro = some [1, 0, 3, 2, 5, 4, 7, 6, 9, 8, 11, 10] := rfl

@[simp] theorem permTable_activity : defaultInputs.permTable .activity = some [0, 1, 5, 4, 3, 2] := rfl

@[simp] theorem permTable_secOnOff : defaultInputs.permTable .secOnOff = some [1, 0] := rfl

end Sys2Proof.Machine
end

