-- ==== Sys2Proof/Laws/Elements.lean ====
section
/-! SUPPORT. The order of the elements (R140), the count's arithmetic (R146), and the parts of the invariant. -/

namespace Sys2Proof.Machine

/-- The first present entry of a list: none is present, or the entries before it are not (R140). -/
theorem firstFrom_spec (h1 h2 : Half) : ∀ (l : List Entry) (j : Nat),
    (firstFrom h1 h2 l j = .footer ∧ ∀ e ∈ l, entryPresent h1 h2 e = false) ∨
    (∃ i e, firstFrom h1 h2 l j = .fld (j + i) ∧ l[i]? = some e ∧ entryPresent h1 h2 e = true ∧
      ∀ e ∈ l.take i, entryPresent h1 h2 e = false)
  | [], _ => .inl ⟨rfl, by simp⟩
  | e :: l, j => by
    unfold firstFrom
    by_cases hp : entryPresent h1 h2 e = true
    · exact .inr ⟨0, e, by simp [hp], by simp, hp, by simp⟩
    · simp only [hp, Bool.false_eq_true, if_false]
      rcases firstFrom_spec h1 h2 l (j + 1) with ⟨h, h'⟩ | ⟨i, e', h, h3, h4, h5⟩
      · exact .inl ⟨h, by simpa [hp] using h'⟩
      · refine .inr ⟨i + 1, e', by rw [h]; congr 1; omega, by simpa using h3, h4, by simpa [hp] using h5⟩

/-- `firstField(j)` (R140). -/
theorem firstField_spec (c : Inputs) (r : Record) (j : Nat) :
    (firstField c r j = .footer ∧ ∀ e ∈ c.fieldTable.drop j, entryPresent r.header r.header2 e = false) ∨
    (∃ k e, firstField c r j = .fld k ∧ j ≤ k ∧ c.fieldTable[k]? = some e ∧
      entryPresent r.header r.header2 e = true ∧
      ∀ e ∈ (c.fieldTable.drop j).take (k - j), entryPresent r.header r.header2 e = false) := by
  rcases firstFrom_spec r.header r.header2 (c.fieldTable.drop j) j with h | ⟨i, e, h, h3, h4, h5⟩
  · exact .inl h
  · exact .inr ⟨j + i, e, h, by omega, by simpa [List.getElem?_drop] using h3, h4, by simpa using h5⟩

/-- A field that comes next is a present entry of the table. -/
theorem nextElem_fld {c : Inputs} {r : Record} {e : Elem} {k : Nat} (h : nextElem c r e = .fld k) :
    ∃ ent, c.fieldTable[k]? = some ent ∧ entryPresent r.header r.header2 ent = true := by
  have aux : ∀ j, firstField c r j = .fld k →
      ∃ ent, c.fieldTable[k]? = some ent ∧ entryPresent r.header r.header2 ent = true := fun j hj => by
    rcases firstField_spec c r j with ⟨h, -⟩ | ⟨k', e, h, -, h3, h4, -⟩
    · rw [h] at hj; cases hj
    · rw [h] at hj; cases hj; exact ⟨e, h3, h4⟩
  cases e with
  | hdr1 =>
    simp only [nextElem] at h
    split at h
    · cases h
    · exact aux 0 h
  | hdr2 => exact aux 0 h
  | fld j => exact aux (j + 1) h
  | footer => cases h

/-- Taking a length that is there off the count does not wrap (R146). -/
theorem rem_sub_toNat {a : Half} {n : Nat} (h : n ≤ a.toNat) : (a - BitVec.ofNat 16 n).toNat = a.toNat - n := by
  have := a.isLt
  rw [BitVec.toNat_sub_of_le (by simp only [BitVec.le_def, BitVec.toNat_ofNat]; omega)]
  simp only [BitVec.toNat_ofNat]
  omega

/-- The phase after an element other than the footer (R142). -/
theorem phaseAfter_need {c : Inputs} {r : Record} {rem : Half} {e : Elem} (h : e ≠ .footer) :
    phaseAfter c r rem e = .need (nextElem c r e) false := by
  cases e <;> first | rfl | exact absurd rfl h

theorem phaseAfter_footer (c : Inputs) (r : Record) (rem : Half) :
    phaseAfter c r rem .footer = .finish (completionStatus rem) := rfl

theorem stateInv_iff (s : State) : StateInv s = true ↔
    fifoWf s = true ∧ restsAtZero s = true ∧ knownIsThere s = true ∧ namesPresent s = true ∧
      recordWf s.record = true ∧ respondsWell s = true := by
  simp [StateInv, and_assoc]

theorem publishes_iff (st : Status) : publishes st = true ↔ st = .ok ∨ st = .fifoMoreDataAvailable := by
  simp [publishes]

theorem publishes_completionStatus (rem : Half) : publishes (completionStatus rem) = true := by
  unfold completionStatus; split <;> rfl

/-- The port never answers a status of the decoder's own, where `PORT_ERRORS` is as R235 asks. -/
theorem publishes_portStatus {s : State} (hp : portErrorsOk s.portErrors = true) (h : s.portStatus ≠ .ok) :
    publishes s.portStatus = false := by
  rcases portStatus_mem s with h' | h'
  · exact absurd h' h
  · rw [← Bool.not_eq_true, publishes_iff]
    rintro (h2 | h2)
    · exact h h2
    · rw [h2] at h'
      simp [portErrorsOk, h'] at hp

end Sys2Proof.Machine
end

