-- ==== Sys2Proof/Laws/PerInstr.lean ====
section
/-! SUPPORT. The family of laws stated for every instruction as syntax. -/

/-- The bytes of an instruction fill its slot: one for the request strobe, two for a header's bits, a header or the footer
(R94, R82, R83, R80). -/
def Sys2Proof.Laws.FillsSlot.Statement (i : Sys2Proof.Instr) : Prop :=
  (Sys2Proof.encode i).length = (Sys2Proof.slotOf i).width

theorem Sys2Proof.Laws.FillsSlot.decode : Sys2Proof.Laws.FillsSlot.Statement .decode := rfl

theorem Sys2Proof.Laws.FillsSlot.decodeNoFw : Sys2Proof.Laws.FillsSlot.Statement .decodeNoFw := rfl

theorem Sys2Proof.Laws.FillsSlot.primaryHeader : Sys2Proof.Laws.FillsSlot.Statement .primaryHeader := rfl

theorem Sys2Proof.Laws.FillsSlot.secondaryHeader : Sys2Proof.Laws.FillsSlot.Statement .secondaryHeader := rfl

theorem Sys2Proof.Laws.FillsSlot.rawAccel : Sys2Proof.Laws.FillsSlot.Statement .rawAccel := rfl

theorem Sys2Proof.Laws.FillsSlot.rawGyro : Sys2Proof.Laws.FillsSlot.Statement .rawGyro := rfl

theorem Sys2Proof.Laws.FillsSlot.compass : Sys2Proof.Laws.FillsSlot.Statement .compass := rfl

theorem Sys2Proof.Laws.FillsSlot.als : Sys2Proof.Laws.FillsSlot.Statement .als := rfl

theorem Sys2Proof.Laws.FillsSlot.quat6 : Sys2Proof.Laws.FillsSlot.Statement .quat6 := rfl

theorem Sys2Proof.Laws.FillsSlot.quat9 : Sys2Proof.Laws.FillsSlot.Statement .quat9 := rfl

theorem Sys2Proof.Laws.FillsSlot.pquat6 : Sys2Proof.Laws.FillsSlot.Statement .pquat6 := rfl

theorem Sys2Proof.Laws.FillsSlot.geomag : Sys2Proof.Laws.FillsSlot.Statement .geomag := rfl

theorem Sys2Proof.Laws.FillsSlot.pressure : Sys2Proof.Laws.FillsSlot.Statement .pressure := rfl

theorem Sys2Proof.Laws.FillsSlot.gyroCalibr : Sys2Proof.Laws.FillsSlot.Statement .gyroCalibr := rfl

theorem Sys2Proof.Laws.FillsSlot.compassCalibr : Sys2Proof.Laws.FillsSlot.Statement .compassCalibr := rfl

theorem Sys2Proof.Laws.FillsSlot.stepDetector : Sys2Proof.Laws.FillsSlot.Statement .stepDetector := rfl

theorem Sys2Proof.Laws.FillsSlot.accelAccuracy : Sys2Proof.Laws.FillsSlot.Statement .accelAccuracy := rfl

theorem Sys2Proof.Laws.FillsSlot.gyroAccuracy : Sys2Proof.Laws.FillsSlot.Statement .gyroAccuracy := rfl

theorem Sys2Proof.Laws.FillsSlot.compassAccuracy : Sys2Proof.Laws.FillsSlot.Statement .compassAccuracy := rfl

theorem Sys2Proof.Laws.FillsSlot.fsync : Sys2Proof.Laws.FillsSlot.Statement .fsync := rfl

theorem Sys2Proof.Laws.FillsSlot.pickup : Sys2Proof.Laws.FillsSlot.Statement .pickup := rfl

theorem Sys2Proof.Laws.FillsSlot.activityRecog : Sys2Proof.Laws.FillsSlot.Statement .activityRecog := rfl

theorem Sys2Proof.Laws.FillsSlot.secondaryOnOff : Sys2Proof.Laws.FillsSlot.Statement .secondaryOnOff := rfl

theorem Sys2Proof.Laws.FillsSlot.batchModeEn : Sys2Proof.Laws.FillsSlot.Statement .batchModeEn := rfl

theorem Sys2Proof.Laws.FillsSlot.reservedHdr1Low (bits : BitVec 3) :
    Sys2Proof.Laws.FillsSlot.Statement (.reservedHdr1Low bits) := rfl

theorem Sys2Proof.Laws.FillsSlot.reservedHdr2Top : Sys2Proof.Laws.FillsSlot.Statement .reservedHdr2Top := rfl

theorem Sys2Proof.Laws.FillsSlot.reservedHdr2Mid : Sys2Proof.Laws.FillsSlot.Statement .reservedHdr2Mid := rfl

theorem Sys2Proof.Laws.FillsSlot.reservedHdr2Low (bits : BitVec 6) :
    Sys2Proof.Laws.FillsSlot.Statement (.reservedHdr2Low bits) := rfl

theorem Sys2Proof.Laws.FillsSlot.footer : Sys2Proof.Laws.FillsSlot.Statement .footer := rfl
end

