-- ==== Sys2Proof/Laws/Runs.lean ====
section
/-! SUPPORT. What holds along a run: the induction over its steps, and what it says of `PORT_ERRORS`, of the bytes to come
(R57, R246) and of who reads the FIFO (R68). -/

namespace Sys2Proof.Machine

/-- A run of one more step is a step and a run from where it leads. -/
theorem run_succ (M : Host.Core) (k : Nat) (s : M.State) : M.run (k + 1) s = match M.step s with
    | .next t => M.run k t
    | .fault f => .fault f
    | .refused r => .refused r := by rw [Host.Core.run] <;> rfl

/-- A property that every step keeps holds along a run. -/
theorem run_induction {M : Host.Core} {P : M.State → Prop} (h : ∀ s t, P s → M.step s = .next t → P t) :
    ∀ (k : Nat) (s t : M.State), P s → M.run k s = .next t → P t
  | 0, s, t, hs, hr => by cases hr; exact hs
  | k + 1, s, t, hs, hr => by
    rw [run_succ] at hr
    split at hr
    · next u hu => exact run_induction h k u t (h s u hs hu) hr
    · cases hr
    · cases hr

/-- Where every step keeps a property and none from it raises a fault, no run raises it. -/
theorem run_no_fault {M : Host.Core} {P : M.State → Prop} {f : M.Fault}
    (h : ∀ s t, P s → M.step s = .next t → P t) (hf : ∀ s, P s → M.step s ≠ .fault f) :
    ∀ (k : Nat) (s : M.State), P s → M.run k s ≠ .fault f
  | 0, s, _ => fun hr => by cases hr
  | k + 1, s, hs => fun hr => by
    rw [run_succ] at hr
    split at hr
    · next u hu => exact run_no_fault h hf k u (h s u hs hu) hr
    · next g hg => cases hr; exact hf s hs hg
    · cases hr

/-- No step changes `PORT_ERRORS`. -/
theorem step_portErrors {s t : State} (h : step s = .next t) : t.portErrors = s.portErrors := by
  rcases step_cases h with ⟨sch, h⟩ | ⟨b, bs, rest, -, rfl⟩ | ⟨rest, -, rfl⟩ | ⟨c, rest, -, -, rfl⟩ | ⟨c, rest, -, rfl⟩
  · exact (decoderTurn_static h).2.2.2
  all_goals rfl

/-- A port that may return no error answers `Ok` along every run. -/
theorem noPortErrors_of_nil {s : State} (h : s.portErrors = []) : NoPortErrors s := fun k t hr => by
  have : t.portErrors = [] :=
    run_induction (M := core) (P := fun s : State => s.portErrors = []) (fun s t hs ht => (step_portErrors ht).trans hs) k s t h hr
  simp [State.portStatus, this]

/-! ## The bytes to come -/

/-- The decoder's turn never lengthens the FIFO. -/
theorem decoderTurn_q_length {s t : State} (h : decoderTurn s = .next t) : t.q.length ≤ s.q.length := by
  rcases decoderTurn_next h with ⟨-, rfl⟩ | ⟨-, rfl⟩ | ⟨st, -, rfl⟩ | ⟨e, b, -, h⟩
  · exact Nat.le_refl _
  · simp
  · rcases readMode_cases s.inputs.readMode with hm | hm
    · cases hp : publishes st <;> simp [finishAttempt, fifoRelease, hm, hp]
    · simp [finishAttempt, fifoRelease, hm]
  · obtain ⟨n, -, ⟨-, -, rfl⟩ | ⟨-, -, -, rfl⟩ | ⟨-, -, -, rfl⟩ | ⟨-, -, rfl⟩ | ⟨-, -, -, r, -, rfl⟩⟩ :=
      elementStep_next h
    · exact Nat.le_refl _
    · exact Nat.le_refl _
    · exact Nat.le_refl _
    · rcases readMode_cases s.inputs.readMode with hm | hm
      · rw [loseBytes_transactional (s := s.afterDraw) hm]; exact Nat.le_refl _
      · rw [loseBytes_destructive (s := s.afterDraw) hm]; simp [State.afterDraw]
    · rcases readMode_cases s.inputs.readMode with hm | hm
      · rw [takeBytes_transactional (s := s.afterDraw) hm]; exact Nat.le_refl _
      · rw [takeBytes_destructive (s := s.afterDraw) hm]; simp [State.afterDraw]

/-- The decoder's turn never overflows the FIFO. -/
theorem decoderTurn_no_overflow (s : State) : decoderTurn s ≠ .fault .fifoOverflow := by
  cases hp : s.phase with
  | idle => rw [decoderTurn_idle hp]; exact nofun
  | start => rw [decoderTurn_start hp]; exact nofun
  | finish st => rw [decoderTurn_finish hp]; exact nofun
  | need e b =>
    rw [decoderTurn_need hp]
    unfold elementStep extract
    (repeat' split) <;> exact nofun

/-- The bytes in the FIFO and those to come all fit. -/
abbrev allFits (s : State) : Prop := s.q.length + (appended s.schedule).length ≤ s.fifoDepth.toNat

/-- Bytes that all fit fit after any step. -/
theorem allFits_step {s t : State} (hs : allFits s) (h : step s = .next t) : allFits t := by
  obtain ⟨-, -, ⟨-, h⟩ | ⟨rest, hr, h⟩ | ⟨b, bs, rest, hr, -, rfl⟩ | ⟨rest, hr, -, rfl⟩ | ⟨rest, -, -, h⟩ |
    ⟨c, rest, hr, -, rfl⟩ | ⟨c, rest, hr, rfl⟩⟩ := step_next h
  all_goals simp_all only [allFits, appended, List.length_append, acceptRequest, resetDecoder, List.length_cons]
  case inl | inr.inr.inr.inr.inl =>
    have := decoderTurn_q_length h
    have := decoderTurn_static h
    simp_all only
    omega
  case inr.inl =>
    have := decoderTurn_q_length h
    have := decoderTurn_static h
    simp_all only
    omega
  all_goals omega

/-- A step overflows only where the bytes to come do not all fit. -/
theorem step_no_overflow {s : State} (hs : allFits s) : step s ≠ .fault .fifoOverflow := by
  unfold step takeTurn
  split
  · exact nofun
  · split
    · exact nofun
    · split
      · exact decoderTurn_no_overflow _
      · exact decoderTurn_no_overflow _
      · next hsch =>
        unfold producerAppend
        rw [if_pos (by simp only [allFits, hsch, appended, List.length_append, List.length_cons] at *; omega)]
        exact nofun
      · split
        · exact nofun
        · exact decoderTurn_no_overflow _
      · unfold configureInputs; (repeat' split) <;> exact nofun
      · exact nofun

/-- `NoOverflow` (R264) holds where the bytes in the FIFO and those to come all fit. -/
theorem noOverflow_of_allFits {s : State} (h : allFits s) : NoOverflow s := fun k =>
  run_no_fault (M := core) (P := allFits) (fun _ _ => allFits_step) (fun _ => step_no_overflow) k s h

/-! ## The sole reader -/

/-- `SoleReader` (R68): in any step the FIFO's bytes are only added to, or the step is the decoder's turn. -/
theorem step_soleReader {s t : State} (h : step s = .next t) :
    (∃ bs, t.q = s.q ++ bs) ∨ ∃ sch, decoderTurn { s with schedule := sch } = .next t := by
  rcases step_cases h with h | ⟨b, bs, rest, -, rfl⟩ | ⟨rest, -, rfl⟩ | ⟨c, rest, -, -, rfl⟩ | ⟨c, rest, -, rfl⟩
  · exact .inr h
  · exact .inl ⟨b :: bs, rfl⟩
  all_goals exact .inl ⟨[], (List.append_nil _).symm⟩

end Sys2Proof.Machine
end

