-- ==== Sys2Proof/Tests/Slice0.lean ====
section
/-! SUPPORT. The model's own tests: well-formedness refuses each ill-formed term; the spec's encodings decode; single steps
give what the spec's vectors say; and every obligation with hypotheses has a witness. Expected values come from spec/, by
the vector or rule each test names. -/

namespace Sys2Proof.Tests

open Sys2Proof Sys2Proof.Machine Sys2Proof.Expect

/-! ## Small states -/

/-- A draw that answers `Ok`. -/
def okDraw : PortDraw := { st := .ok, lost := 0 }

/-- The default inputs with the firmware present. -/
def fw : Inputs := { defaultInputs with fwPresent := true }

/-- Inputs with a table of two entries, one of each header, and Destructive reads where asked. -/
def smallInputs (mode : ReadMode) : Inputs where
  fwPresent := true
  readMode := mode
  fieldTable := [⟨1, 0x8000, .rawAccel, 6, .remap .pquat6⟩, ⟨2, 0x0400, .pickup, 2, .be16⟩]
  permTables := [⟨.pquat6, [1, 0, 3, 2, 5, 4]⟩]
  hdr2Bit := 0x0008
  maxFieldLen := 14

/-- The decoder at an element, with these headers read, all of these bytes in the FIFO and known, and every draw `Ok`. -/
def before (h1 h2 : Half) (e : Elem) (bs : List Byte) : State :=
  { State.reset with
    phase := .need e false
    rem := BitVec.ofNat 16 bs.length
    record := { Record.empty with header := h1, header2 := h2 }
    q := bs
    inputs := fw
    fifoDepth := 256
    oracle := [okDraw, okDraw] }

/-- The same with nothing known. -/
def unknown (h1 h2 : Half) (e : Elem) (bs : List Byte) : State := { before h1 h2 e bs with rem := 0 }

/-- The same over the small table. -/
def small (mode : ReadMode) (p : Phase) (bs : List Byte) : State :=
  { before 0x8000 0 .hdr1 bs with inputs := smallInputs mode, phase := p }

/-- Idle with a schedule. -/
def idleWith (sch : List Move) : State := { small .transactional .idle [] with schedule := sch }

/-- The stream of V1. -/
def v1 : List Byte := [0x80, 0x00, 0x01, 0x02, 0xFF, 0xFE, 0x40, 0x00, 0x00, 0x2A]

/-- The record of V1. -/
def v1Record : Record where
  header := 0x8000
  header2 := 0
  fld := [⟨.rawAccel, [0x02, 0x01, 0xFE, 0xFF, 0x00, 0x40]⟩]
  footer := some 0x002A

/-- An attempt about to start on these bytes. -/
def start (bs : List Byte) : State :=
  { small .transactional .start bs with rem := 0, record := Record.empty, oracle := List.replicate 12 okDraw }

/-- The same with a schedule, behind a port that returns no error. -/
def attempt (bs : List Byte) (sch : List Move) : State := { start bs with schedule := sch, portErrors := [] }

/-- The next state, where there is one. -/
def nextOf : StepResult → Option State
  | .next s => some s
  | .fault _ => none
  | .refused _ => none

/-- The fault, where there is one. -/
def faultOf : StepResult → Option Fault
  | .fault f => some f
  | _ => none

/-- The refusal, where there is one. -/
def refusalOf : StepResult → Option Refusal
  | .refused r => some r
  | _ => none

/-- A field of the next state's record. -/
def fieldAfter (n : FieldName) (o : StepResult) : Option (List Byte) := (nextOf o).bind fun s => s.record.get n

/-- The numbers a consumer reads from it (R190). -/
def viewsAfter (n : FieldName) (o : StepResult) : Option (List Int) :=
  (fieldAfter n o).map fun bs => (views n).map fun v => viewValue v bs

/-- The phase of the next state and the count left. -/
def phaseOf (o : StepResult) : Option (Phase × Half) := (nextOf o).map fun s => (s.phase, s.rem)

/-! ## Well-formedness -/

/-- R7, R235: the default configuration, and the small one, pass. -/
theorem test_wf_defaults : defaultInputs.wf = true ∧ (smallInputs .destructive).wf = true ∧
    portErrorsOk defaultPortErrors = true := by decide

/-- R7 check 1. -/
theorem test_wf_hdr : Inputs.hdrsOk { fw with fieldTable := [⟨3, 0x8000, .als, 8, .raw⟩] } = false ∧
    Inputs.wf { fw with fieldTable := [⟨3, 0x8000, .als, 8, .raw⟩] } = false := by decide

/-- R7 check 2; V49: a mask of two bits. -/
theorem test_wf_mask : Inputs.masksOk { fw with fieldTable := [⟨1, 0x0003, .als, 8, .raw⟩] } = false ∧
    Inputs.wf { fw with fieldTable := [⟨1, 0x0003, .als, 8, .raw⟩] } = false := by decide

/-- R7 check 3. -/
theorem test_wf_distinct :
    Inputs.bitsDistinct { fw with fieldTable := [⟨1, 0x8000, .als, 8, .raw⟩, ⟨1, 0x8000, .fsync, 2, .be16⟩] } = false ∧
    Inputs.wf { fw with fieldTable := [⟨1, 0x8000, .als, 8, .raw⟩, ⟨1, 0x8000, .fsync, 2, .be16⟩] } = false := by decide

/-- R7 check 4; V49: a header-1 entry with `mask = HDR2_BIT`. -/
theorem test_wf_hdr2Bit : Inputs.hdr2BitFree { fw with fieldTable := [⟨1, 0x0008, .als, 8, .raw⟩] } = false ∧
    Inputs.wf { fw with fieldTable := [⟨1, 0x0008, .als, 8, .raw⟩] } = false := by decide

/-- Log 19: R7 accepts a HDR2_BIT of no bit, and one of several bits that overlaps a field's mask. -/
theorem test_wf_hdr2BitValues : Inputs.wf { fw with hdr2Bit := 0 } = true ∧
    Inputs.wf { fw with hdr2Bit := 0x0018 } = true ∧ hdr2Present { fw with hdr2Bit := 0 } 0xFFFF = false ∧
    hdr2Present { fw with hdr2Bit := 0x0018 } 0x0010 = true := by decide

/-- R7 check 5; V49: `len = 15 > MAX_FIELD_LEN`; and `len = 0`. -/
theorem test_wf_len : Inputs.lensOk { fw with fieldTable := [⟨1, 0x8000, .als, 15, .raw⟩] } = false ∧
    Inputs.wf { fw with fieldTable := [⟨1, 0x8000, .als, 15, .raw⟩] } = false ∧
    Inputs.lensOk { fw with fieldTable := [⟨1, 0x8000, .als, 0, .raw⟩] } = false := by decide

/-- R7 check 6; V49: an entry of `len = 6` whose table has length 4; and a table that is not there. -/
theorem test_wf_remapLen :
    Inputs.remapLensOk { fw with fieldTable := [⟨1, 0x8000, .als, 6, .remap .pquat6⟩],
                                 permTables := [⟨.pquat6, [0, 1, 2, 3]⟩] } = false ∧
    Inputs.wf { fw with fieldTable := [⟨1, 0x8000, .als, 6, .remap .pquat6⟩],
                        permTables := [⟨.pquat6, [0, 1, 2, 3]⟩] } = false ∧
    Inputs.remapLensOk { fw with fieldTable := [⟨1, 0x8000, .als, 6, .remap (.other 0)⟩] } = false := by decide

/-- R7 check 7; V49: `T = [0, 0]` is not a permutation. -/
theorem test_wf_remapPerm :
    Inputs.remapPermsOk { fw with fieldTable := [⟨1, 0x8000, .als, 2, .remap .secOnOff⟩],
                                  permTables := [⟨.secOnOff, [0, 0]⟩] } = false ∧
    Inputs.wf { fw with fieldTable := [⟨1, 0x8000, .als, 2, .remap .secOnOff⟩],
                        permTables := [⟨.secOnOff, [0, 0]⟩] } = false := by decide

/-- R7 check 8. -/
theorem test_wf_scalarLen : Inputs.scalarLensOk { fw with fieldTable := [⟨1, 0x8000, .als, 4, .be16⟩] } = false ∧
    Inputs.wf { fw with fieldTable := [⟨1, 0x8000, .als, 4, .be16⟩] } = false ∧
    Inputs.scalarLensOk { fw with fieldTable := [⟨1, 0x8000, .als, 2, .be32⟩] } = false := by decide

/-- R7 check 9. -/
theorem test_wf_order :
    Inputs.hdrOrderOk { fw with fieldTable := [⟨2, 0x8000, .als, 8, .raw⟩, ⟨1, 0x8000, .fsync, 2, .be16⟩] } = false ∧
    Inputs.wf { fw with fieldTable := [⟨2, 0x8000, .als, 8, .raw⟩, ⟨1, 0x8000, .fsync, 2, .be16⟩] } = false := by decide

/-- R235: each status that `PORT_ERRORS` must not hold. -/
theorem test_wf_portErrors : portErrorsOk [.ok] = false ∧ portErrorsOk [.fifoNoDataAvailable] = false ∧
    portErrorsOk [.fifoMoreDataAvailable] = false ∧ portErrorsOk [.dmpNotSupported] = false := by decide

/-- A group of ignored bits with no bit set is no instruction. -/
theorem test_wf_instr : (Instr.reservedHdr1Low 0).wf = false ∧ (Instr.reservedHdr2Low 0).wf = false ∧
    (Instr.reservedHdr1Low 5).wf = true := by decide

/-! ## Decoding: words from R82, R83, R80, R94, bit by bit -/

/-- R94: the request strobe; R120: with no firmware. -/
theorem test_decode_decode : decode (.request true) [0x01] = .ok [.decode] [] := by decide
theorem test_decode_decodeNoFw : decode (.request false) [0x01] = .ok [.decodeNoFw] [] := by decide

/-- R94: any other request does not exist. A header cut short is no header. -/
theorem test_decode_refuses : decode (.request true) [0x00] = .error .noSuchRequest ∧
    decode .bits1 [0x80] = .error .truncated ∧ decode (.request true) [] = .error .truncated := by decide

/-- R80: the record's first two bytes and its last two. -/
theorem test_decode_primaryHeader : decode .head [0x80, 0x00, 0x01] = .ok [.primaryHeader] [0x01] := by decide
theorem test_decode_footer : decode .tail [0x00, 0x2A] = .ok [.footer] [] := by decide

/-- R82: header-1 bits 15 to 3. -/
theorem test_decode_rawAccel : decode .bits1 [0b10000000, 0b00000000] = .ok [.rawAccel] [] := by decide
theorem test_decode_rawGyro : decode .bits1 [0b01000000, 0b00000000] = .ok [.rawGyro] [] := by decide
theorem test_decode_compass : decode .bits1 [0b00100000, 0b00000000] = .ok [.compass] [] := by decide
theorem test_decode_als : decode .bits1 [0b00010000, 0b00000000] = .ok [.als] [] := by decide
theorem test_decode_quat6 : decode .bits1 [0b00001000, 0b00000000] = .ok [.quat6] [] := by decide
theorem test_decode_quat9 : decode .bits1 [0b00000100, 0b00000000] = .ok [.quat9] [] := by decide
theorem test_decode_pquat6 : decode .bits1 [0b00000010, 0b00000000] = .ok [.pquat6] [] := by decide
theorem test_decode_geomag : decode .bits1 [0b00000001, 0b00000000] = .ok [.geomag] [] := by decide
theorem test_decode_pressure : decode .bits1 [0b00000000, 0b10000000] = .ok [.pressure] [] := by decide
theorem test_decode_gyroCalibr : decode .bits1 [0b00000000, 0b01000000] = .ok [.gyroCalibr] [] := by decide
theorem test_decode_compassCalibr : decode .bits1 [0b00000000, 0b00100000] = .ok [.compassCalibr] [] := by decide
theorem test_decode_stepDetector : decode .bits1 [0b00000000, 0b00010000] = .ok [.stepDetector] [] := by decide
theorem test_decode_secondaryHeader : decode .bits1 [0b00000000, 0b00001000] = .ok [.secondaryHeader] [] := by decide

/-- R90: header-1 bits 2 to 0 (V14). -/
theorem test_decode_reservedHdr1Low : decode .bits1 [0x00, 0b00000111] = .ok [.reservedHdr1Low 7] [] := by decide

/-- R83: header-2 bits 14 to 10, 7 and 6. -/
theorem test_decode_accelAccuracy : decode .bits2 [0b01000000, 0b00000000] = .ok [.accelAccuracy] [] := by decide
theorem test_decode_gyroAccuracy : decode .bits2 [0b00100000, 0b00000000] = .ok [.gyroAccuracy] [] := by decide
theorem test_decode_compassAccuracy : decode .bits2 [0b00010000, 0b00000000] = .ok [.compassAccuracy] [] := by decide
theorem test_decode_fsync : decode .bits2 [0b00001000, 0b00000000] = .ok [.fsync] [] := by decide
theorem test_decode_pickup : decode .bits2 [0b00000100, 0b00000000] = .ok [.pickup] [] := by decide
theorem test_decode_activityRecog : decode .bits2 [0b00000000, 0b10000000] = .ok [.activityRecog] [] := by decide
theorem test_decode_secondaryOnOff : decode .bits2 [0b00000000, 0b01000000] = .ok [.secondaryOnOff] [] := by decide

/-- R91, R90: the header-2 bits with no payload (V18), and the reserved ones. -/
theorem test_decode_batchModeEn : decode .bits2 [0b00000001, 0b00000000] = .ok [.batchModeEn] [] := by decide
theorem test_decode_reservedHdr2Top : decode .bits2 [0b10000000, 0b00000000] = .ok [.reservedHdr2Top] [] := by decide
theorem test_decode_reservedHdr2Mid : decode .bits2 [0b00000010, 0b00000000] = .ok [.reservedHdr2Mid] [] := by decide
theorem test_decode_reservedHdr2Low : decode .bits2 [0x00, 0b00111111] = .ok [.reservedHdr2Low 63] [] := by decide

/-- P3: `04 08` and `00 C0` select Quat9 and a secondary header, then Activity_Recog and Secondary_On_Off. -/
theorem test_decode_p3 : decode .bits1 [0x04, 0x08] = .ok [.secondaryHeader, .quat9] [] ∧
    decode .bits2 [0x00, 0xC0] = .ok [.activityRecog, .secondaryOnOff] [] := by decide

/-- The host's words: a header-1 row, a header-2 row that header 1 has no bit alone for, and the request. -/
theorem test_decodeTableWord : decodeTableWord 8 1 = some .decode ∧ decodeTableWord 16 0x8000 = some .rawAccel ∧
    decodeTableWord 16 0x0010 = some .stepDetector := by decide

/-- R81 on V1, V13, V19, V26, V27. -/
theorem test_recordLen : recordLen fw 0x8000 0 = 10 ∧ recordLen fw 0 0 = 4 ∧ recordLen fw 0x0008 0xFFFF = 24 ∧
    recordLen fw 0xFFF0 0 = 116 ∧ recordLen fw 0xFFF8 0x7CC0 = 136 ∧ recordLen fw 0xFFFF 0xFFFF = 136 := by decide

/-! ## The instructions, one step each -/

/-- V1: the attempt's start. -/
theorem test_step_decode :
    (nextOf (exec .decode { before 0x1234 7 .hdr1 v1 with phase := .start })).map
      (fun s => (s.phase, s.rem, s.record)) = some (.need .hdr1 false, 0, Record.empty) := by decide

/-- V10: no firmware, no transaction. -/
theorem test_step_decodeNoFw :
    (nextOf (exec .decodeNoFw { before 0 0 .hdr1 v1 with phase := .start, inputs := defaultInputs })).map
      (fun s => (s.phase, s.q, s.txns)) = some (.finish .dmpNotSupported, v1, 0) := by decide

/-- V15: `00 80` is Pressure, not Raw_Accel. -/
theorem test_step_primaryHeader :
    phaseOf (exec .primaryHeader (before 0 0 .hdr1 [0x00, 0x80, 0x01])) = some (.need (.fld 8) false, 1) ∧
    (nextOf (exec .primaryHeader (before 0 0 .hdr1 [0x00, 0x80, 0x01]))).map (fun s => (s.record.header, s.cur))
      = some (0x0080, 2) := by decide

/-- V16: bit 3 announces the secondary header; V12: one byte is too few, and there is no second COUNT. -/
theorem test_step_primaryHeader_next :
    phaseOf (exec .primaryHeader (before 0 0 .hdr1 [0x00, 0x08])) = some (.need .hdr2 false, 0) ∧
    phaseOf (exec .primaryHeader (unknown 0 0 .hdr1 [0x80])) = some (.need .hdr1 true, 1) ∧
    phaseOf (exec .primaryHeader { before 0 0 .hdr1 [0x80] with phase := .need .hdr1 true })
      = some (.finish .fifoNoDataAvailable, 1) := by decide

/-- V18: bit 8 of header 2 gates nothing. -/
theorem test_step_secondaryHeader :
    phaseOf (exec .secondaryHeader (before 0x0008 0 .hdr2 [0x01, 0x00, 0x00, 0x03])) = some (.need .footer false, 2) ∧
    (nextOf (exec .secondaryHeader (before 0x0008 0 .hdr2 [0x01, 0x00]))).map (fun s => s.record.header2)
      = some 0x0100 := by decide

/-- V1, V40. -/
theorem test_step_rawAccel :
    viewsAfter .rawAccel (exec .rawAccel (before 0x8000 0 (.fld 0) [0x01, 0x02, 0xFF, 0xFE, 0x40, 0x00, 0x00, 0x2A]))
      = some [258, -2, 16384] ∧
    phaseOf (exec .rawAccel (before 0x8000 0 (.fld 0) [0x01, 0x02, 0xFF, 0xFE, 0x40, 0x00, 0x00, 0x2A]))
      = some (.need .footer false, 2) := by decide

/-- V22: the re-query counts what the attempt can still read; V23: a second shortage ends the attempt. -/
theorem test_step_rawAccel_short :
    phaseOf (exec .rawAccel { before 0x8000 0 (.fld 0) v1 with rem := 3, cur := 2 })
      = some (.need (.fld 0) true, 8) ∧
    phaseOf (exec .rawAccel { before 0x8000 0 (.fld 0) [0x80, 0, 1, 2, 3] with
      rem := 3, cur := 2, phase := .need (.fld 0) true }) = some (.finish .fifoNoDataAvailable, 3) := by decide

/-- V41. -/
theorem test_step_rawGyro :
    viewsAfter .rawGyro (exec .rawGyro (before 0x4000 0 (.fld 1)
      [0x00, 0x10, 0xFF, 0xF0, 0x01, 0x00, 0x00, 0x01, 0x00, 0x02, 0xFF, 0xFF]))
      = some [16, -16, 256, 1, 2, -1] := by decide

/-- V46, with the permutation of V40. -/
theorem test_step_compass :
    viewsAfter .compass (exec .compass (before 0x2000 0 (.fld 2) [0x80, 0x00, 0x7F, 0xFF, 0x00, 0x00]))
      = some [-32768, 32767, 0] := by decide

/-- V48: raw bytes are kept as they are. -/
theorem test_step_als :
    fieldAfter .als (exec .als (before 0x1000 0 (.fld 3) [0x00, 0x12, 0x34, 0x56, 0x78, 0x9A, 0xBC, 0x00]))
      = some [0x00, 0x12, 0x34, 0x56, 0x78, 0x9A, 0xBC, 0x00] := by decide

/-- V42. -/
theorem test_step_quat6 :
    viewsAfter .quat6 (exec .quat6 (before 0x0800 0 (.fld 4)
      [0x40, 0x00, 0x00, 0x00, 0xC0, 0x00, 0x00, 0x00, 0x00, 0x00, 0x00, 0x01]))
      = some [1073741824, -1073741824, 1] := by decide

/-- V43, V25: the next present entry is Step_Detector. -/
theorem test_step_quat9 :
    viewsAfter .quat9 (exec .quat9 (before 0x0410 0 (.fld 5)
      [0x20, 0x00, 0x00, 0x00, 0x00, 0x00, 0x00, 0x00, 0xE0, 0x00, 0x00, 0x00, 0x01, 0xF4]))
      = some [536870912, 0, -536870912, 500] ∧
    phaseOf (exec .quat9 (before 0x0410 0 (.fld 5)
      [0x20, 0x00, 0x00, 0x00, 0x00, 0x00, 0x00, 0x00, 0xE0, 0x00, 0x00, 0x00, 0x01, 0xF4]))
      = some (.need (.fld 11) false, 0) := by decide

/-- R156, with the bytes of V40. -/
theorem test_step_pquat6 :
    fieldAfter .pquat6 (exec .pquat6 (before 0x0200 0 (.fld 6) [0x01, 0x02, 0xFF, 0xFE, 0x40, 0x00]))
      = some [0x02, 0x01, 0xFE, 0xFF, 0x00, 0x40] := by decide

/-- R157, with the bytes of V43. -/
theorem test_step_geomag :
    fieldAfter .geomag (exec .geomag (before 0x0100 0 (.fld 7)
      [0x20, 0x00, 0x00, 0x00, 0x00, 0x00, 0x00, 0x00, 0xE0, 0x00, 0x00, 0x00, 0x01, 0xF4]))
      = some [0x00, 0x00, 0x00, 0x20, 0x00, 0x00, 0x00, 0x00, 0x00, 0x00, 0x00, 0xE0, 0xF4, 0x01] := by decide

/-- V15: no reorder. -/
theorem test_step_pressure :
    fieldAfter .pressure (exec .pressure (before 0x0080 0 (.fld 8) [0x01, 0x02, 0x03, 0x04, 0x05, 0x06]))
      = some [0x01, 0x02, 0x03, 0x04, 0x05, 0x06] := by decide

/-- R159, with the second bytes of V46. -/
theorem test_step_gyroCalibr :
    viewsAfter .gyroCalibr (exec .gyroCalibr (before 0x0040 0 (.fld 9)
      [0x80, 0x00, 0x00, 0x00, 0x7F, 0xFF, 0xFF, 0xFF, 0xFF, 0xFF, 0xFF, 0xFF]))
      = some [-2147483648, 2147483647, -1] := by decide

/-- R160, with the bytes of V42. -/
theorem test_step_compassCalibr :
    viewsAfter .compassCalibr (exec .compassCalibr (before 0x0020 0 (.fld 10)
      [0x40, 0x00, 0x00, 0x00, 0xC0, 0x00, 0x00, 0x00, 0x00, 0x00, 0x00, 0x01]))
      = some [1073741824, -1073741824, 1] := by decide

/-- V25, V48: `00 01 E2 40` is 123456. -/
theorem test_step_stepDetector :
    (fieldAfter .stepDetector (exec .stepDetector (before 0x0010 0 (.fld 11) [0x00, 0x01, 0xE2, 0x40]))).bind
      (scalarValue .be32) = some 123456 := by decide

/-- R162, R163, R164: 2-byte scalars, most significant byte first. -/
theorem test_step_accelAccuracy :
    fieldAfter .accelAccuracy (exec .accelAccuracy (before 0x0008 0x4000 (.fld 12) [0x01, 0x2C])) = some [0x01, 0x2C] := by
  decide
theorem test_step_gyroAccuracy :
    fieldAfter .gyroAccuracy (exec .gyroAccuracy (before 0x0008 0x2000 (.fld 13) [0x00, 0x03])) = some [0x00, 0x03] := by
  decide
theorem test_step_compassAccuracy :
    fieldAfter .compassAccuracy (exec .compassAccuracy (before 0x0008 0x1000 (.fld 14) [0x00, 0x02])) = some [0x00, 0x02] := by
  decide

/-- V48: `01 2C` is 300, and `FF FF` is 65535. -/
theorem test_step_fsync :
    (fieldAfter .fsync (exec .fsync (before 0x0008 0x0800 (.fld 15) [0x01, 0x2C]))).bind (scalarValue .be16)
      = some 300 := by decide
theorem test_step_pickup :
    (fieldAfter .pickup (exec .pickup (before 0x0008 0x0400 (.fld 16) [0xFF, 0xFF]))).bind (scalarValue .be16)
      = some 65535 := by decide

/-- V44, P3: Secondary_On_Off comes next. -/
theorem test_step_activityRecog :
    viewsAfter .activityRecog (exec .activityRecog (before 0x0408 0x00C0 (.fld 17) [0x02, 0x04, 0x00, 0x00, 0x30, 0x39]))
      = some [2, 4, 12345] ∧
    phaseOf (exec .activityRecog (before 0x0408 0x00C0 (.fld 17) [0x02, 0x04, 0x00, 0x00, 0x30, 0x39]))
      = some (.need (.fld 18) false, 0) := by decide

/-- V45. -/
theorem test_step_secondaryOnOff :
    viewsAfter .secondaryOnOff (exec .secondaryOnOff (before 0x0008 0x0040 (.fld 18) [0x01, 0x02])) = some [258] := by
  decide

/-- R90, R91, V14, V18: the bits that gate nothing leave the machine as it is. -/
theorem test_step_ignored :
    nextOf (exec .batchModeEn (before 0x0008 0x0100 .footer [0x00, 0x03])) = some (before 0x0008 0x0100 .footer [0x00, 0x03]) ∧
    nextOf (exec (.reservedHdr1Low 7) (before 0x0007 0 .footer [0x00, 0x05])) = some (before 0x0007 0 .footer [0x00, 0x05]) ∧
    nextOf (exec .reservedHdr2Top (before 8 0x8000 .footer [0, 1])) = some (before 8 0x8000 .footer [0, 1]) ∧
    nextOf (exec .reservedHdr2Mid (before 8 0x0200 .footer [0, 1])) = some (before 8 0x0200 .footer [0, 1]) ∧
    nextOf (exec (.reservedHdr2Low 63) (before 8 0x003F .footer [0, 1])) = some (before 8 0x003F .footer [0, 1]) := by
  decide

/-- V1: the footer `00 2A`, and `Ok`; V51: ten bytes are left, so there is more. -/
theorem test_step_footer :
    (nextOf (exec .footer (before 0x8000 0 .footer [0x00, 0x2A]))).map (fun s => (s.record.footer, s.phase))
      = some (some 0x002A, .finish .ok) ∧
    phaseOf (exec .footer (before 0x8000 0 .footer ([0x00, 0x2A] ++ v1))) = some (.finish .fifoMoreDataAvailable, 10) := by
  decide

/-! ## The port, the tables and the agents -/

/-- V28: the READ of Raw_Accel fails; the bytes stay in Transactional mode, and `k = 4` of them go in Destructive mode. -/
theorem test_port_error :
    (nextOf (exec .rawAccel { before 0x8000 0 (.fld 0) v1 with
      cur := 2, rem := 8, oracle := [⟨.busError, 4⟩] })).map (fun s => (s.phase, s.cur, s.q))
        = some (.finish .busError, 2, v1) ∧
    (nextOf (exec .rawAccel { small .destructive (.need (.fld 0) false) (v1.drop 2) with oracle := [⟨.busError, 4⟩] })).map
      (fun s => (s.phase, s.q)) = some (.finish .busError, [0x40, 0x00, 0x00, 0x2A]) := by decide

/-- V29: the re-query's COUNT fails. V21: so does the first one. -/
theorem test_port_count_error :
    phaseOf (exec .rawAccel { unknown 0x8000 0 (.fld 0) v1 with oracle := [⟨.busError, 0⟩] })
      = some (.finish .busError, 0) ∧
    phaseOf (exec .primaryHeader { unknown 0 0 .hdr1 v1 with oracle := [⟨.notImplemented, 0⟩] })
      = some (.finish .notImplemented, 0) := by decide

/-- V47: scatter, not gather; and back. -/
theorem test_remap_scatter : remap [1, 2, 0] [0xAA, 0xBB, 0xCC] = some [0xCC, 0xAA, 0xBB] ∧
    wire [1, 2, 0] [0xCC, 0xAA, 0xBB] = [0xAA, 0xBB, 0xCC] ∧ remap [0, 0] [0xAA, 0xBB] = none := by decide

/-- V1, V2, V28: the Finish step commits or rewinds. -/
theorem test_finish :
    (nextOf (decoderTurn { small .transactional (.finish .ok) v1 with cur := 10 })).map (fun s => (s.q, s.cur, s.phase))
      = some ([], 0, .idle) ∧
    (nextOf (decoderTurn { small .transactional (.finish .fifoNoDataAvailable) v1 with cur := 8 })).map
      (fun s => (s.q, s.cur, s.response)) = some (v1, 0, some ⟨.fifoNoDataAvailable, none⟩) := by decide

/-- R248: a request waits while an attempt runs, and the decoder moves. -/
theorem test_request_waits :
    (nextOf (step { start v1 with schedule := [.request] })).map (fun s => (s.phase, s.schedule))
      = some (.need .hdr1 false, [.request]) := by decide

/-- R246: an append past `FIFO_DEPTH`. R245: a READ of bytes that are not there. -/
theorem test_faults :
    faultOf (step { idleWith [.append 1 [2]] with fifoDepth := 1 }) = some .fifoOverflow ∧
    faultOf (exec .footer { before 0 0 .footer [0x00] with rem := 2 }) = some .fifoUnderflow ∧
    faultOf (decoderTurn (small .transactional (.need (.fld 9) false) v1)) = some .noSuchEntry := by decide

/-- A word placed at reset is what the next step runs: six zero bytes for Raw_Accel, and the start of an attempt. -/
theorem test_withFetchWord :
    fieldAfter .rawAccel (step (State.reset.withFetchWord 16 0x8000)) = some [0, 0, 0, 0, 0, 0] ∧
    (nextOf (step (State.reset.withFetchWord 8 1))).map (·.phase) = some (.need .hdr1 false) ∧
    (nextOf (step (State.reset.withFetchWord 16 0x003F))).map (·.record.header2) = some 0x003F := by decide

/-- R190's element value, R59: little-endian, signed. -/
theorem test_viewValue : viewValue ⟨2, 16, true, "Y"⟩ [0x02, 0x01, 0xFE, 0xFF, 0x00, 0x40] = -2 ∧
    viewValue ⟨0, 16, false, "Sensors"⟩ [0xFE, 0xFF] = 65534 := by decide

/-- R231: the tiers. -/
theorem test_tiers : tierOf .ok = .success ∧ tierOf .fifoMoreDataAvailable = .recoverableByRetry ∧
    tierOf .fifoNoDataAvailable = .recoverableByRetry ∧ tierOf .dmpNotSupported = .untilFirmwareIsPresent ∧
    tierOf .busError = .fatalToTheCall := by decide

/-! ## Witnesses: a state and operands that meet each obligation's hypotheses, clause by clause -/

/-- HeaderBitsRoundTrip. -/
theorem test_wit_headerBits : (Instr.reservedHdr2Low 63).wf = true ∧ Instr.reservedHdr1Low 7 ∈ hdr1Instrs 0xFFFF ∧
    Instr.reservedHdr2Low 1 ∈ hdr2Instrs 0x0001 := by decide

/-- IgnoredBitsSelectNothing. -/
theorem test_wit_ignoredBits : (0x0007 : Half) &&& 0xFFF8 = 0 ∧ (0x833F : Half) &&& 0x7CC0 = 0 ∧
    (⟨2, 0x0040, .secondaryOnOff, 2, .remap .secOnOff⟩ : Entry) ∈ defaultFieldTable := by decide

/-- RecordLengthRule. -/
theorem test_wit_recordLength : (0x0007 : Half) &&& 0xFFF8 = 0 ∧ (0xFFFF : Half) &&& 0xFFF8 = 0xFFF8 ∧
    (0x7CC0 : Half) &&& 0x7CC0 = 0x7CC0 := by decide

/-- ElementLengths. -/
theorem test_wit_elementLengths :
    defaultInputs.fieldTable[18]? = some ⟨2, 0x0040, .secondaryOnOff, 2, .remap .secOnOff⟩ := by decide

/-- NextElementRule: the last entry, the footer, and both ways on from the primary header. -/
theorem test_wit_nextElement : firstField fw { v1Record with header2 := 0x0040 } 1 = .fld 18 ∧
    firstField fw v1Record 1 = .footer ∧ nextElem fw { v1Record with header := 0x0008 } .hdr1 = .hdr2 ∧
    nextElem fw v1Record .hdr1 = .fld 0 := by decide

/-- RemapScatters, RemapRoundTrip. -/
theorem test_wit_remap : remap [1, 2, 0] [0xAA, 0xBB, 0xCC] = some [0xCC, 0xAA, 0xBB] ∧ [1, 2, 0][2]? = some 0 ∧
    [1, 2, 0].length = 3 ∧ isPermutation [1, 2, 0] 3 = true ∧ [0xCC, 0xAA, (0xBB : Byte)].length = 3 := by decide

/-- DefaultElementsAreBigEndian. -/
theorem test_wit_bigEndian : (⟨2, 0x0040, .secondaryOnOff, 2, .remap .secOnOff⟩ : Entry) ∈ defaultFieldTable ∧
    defaultInputs.permTable .secOnOff = some [1, 0] ∧ [1, 0][1]? = some 0 ∧ [0x01, (0x02 : Byte)].length = 2 ∧
    (⟨0, 16, false, "Sensors"⟩ : ElementView) ∈ views .secondaryOnOff := by decide

/-- CountTransaction: an `Ok` answer, and an error. -/
theorem test_wit_count : (start v1).q.length < 65536 ∧ (fifoCount (start v1)).1 = .ok ∧
    (fifoCount { start v1 with oracle := [⟨.busError, 0⟩] }).1 = .busError := by decide

/-- ReadTransaction: as many bytes as there are, one more, and an error. -/
theorem test_wit_read : (start v1).portStatus = .ok ∧ 10 ≤ (start v1).q.length - (start v1).cur ∧
    (start v1).q.length - (start v1).cur < 11 ∧
    State.portStatus { start v1 with oracle := [⟨.paramError, 0⟩] } ≠ .ok := by decide

/-- ReleaseTransaction. -/
theorem test_wit_release : (start v1).inputs.readMode = .transactional ∧
    (small .destructive .start v1).inputs.readMode = .destructive := by decide

/-- StartWithoutFirmware. -/
theorem test_wit_noFirmware : State.reset.inputs.fwPresent = false ∧
    (small .transactional (.finish .dmpNotSupported) v1).phase = .finish .dmpNotSupported ∧
    (small .transactional (.finish .dmpNotSupported) v1).cur = 0 := by decide

/-- StartWithFirmware. -/
theorem test_wit_firmware : (start v1).inputs.fwPresent = true := by decide

/-- PrimaryHeaderExtracted, SecondaryHeaderExtracted, FooterExtracted: as many bytes as the element has; in either mode. -/
theorem test_wit_ready2 : Ready 2 (before 0 0 .hdr1 [0x80, 0x00]) ∧ Ready 2 (before 8 0 .hdr2 [0x40, 0x00]) ∧
    Ready 2 (small .destructive (.need .footer false) [0x00, 0x2A]) := by decide

/-- The field statements: their lengths, at the default tables. -/
theorem test_wit_fields : DefaultTables (before 0 0x0040 (.fld 18) [1, 2]) ∧ Ready 2 (before 0 0x0040 (.fld 18) [1, 2]) ∧
    Ready 4 (before 0x0010 0 (.fld 11) (v1.take 4)) ∧ Ready 6 (before 0x8000 0 (.fld 0) (v1.take 6)) ∧
    Ready 8 (before 0x1000 0 (.fld 3) (v1.take 8)) ∧ Ready 12 (before 0x4000 0 (.fld 1) (v1 ++ v1.take 2)) ∧
    Ready 14 (before 0x0400 0 (.fld 5) (v1 ++ v1.take 4)) := by decide

/-- RecordFieldsIndependent. -/
theorem test_wit_record : FieldName.rawGyro ≠ .rawAccel ∧ recordWf v1Record = true := by decide

/-- ElementFrame: a header, a field and the footer, in both modes. -/
theorem test_wit_frame :
    elemOf .primaryHeader (before 0 0 .hdr1 v1) = some .hdr1 ∧ elemLen fw .hdr1 = some 2 ∧
    (nextOf (exec .primaryHeader (before 0 0 .hdr1 v1))).isSome = true ∧
    elemOf .rawAccel (small .destructive (.need (.fld 0) false) v1) = some (.fld 0) ∧
    elemLen (smallInputs .destructive) (.fld 0) = some 6 ∧
    (nextOf (exec .rawAccel (small .destructive (.need (.fld 0) false) v1))).isSome = true := by decide

/-- AvailabilityRule: one byte too few, with both values of `queried`. -/
theorem test_wit_availability : (unknown 0x8000 0 (.fld 0) v1).phase = .need (.fld 0) false ∧
    elemLen fw (.fld 0) = some 6 ∧ State.rem { unknown 0x8000 0 (.fld 0) v1 with rem := 5 } = 5 ∧
    elemOf .rawAccel (unknown 0x8000 0 (.fld 0) v1) = some (.fld 0) ∧
    State.phase { unknown 0x8000 0 (.fld 0) v1 with phase := .need (.fld 0) true } = .need (.fld 0) true := by decide

/-- ExtractionRule: a count that just suffices; with an `Ok` answer, and with an error. -/
theorem test_wit_extraction : (small .transactional (.need (.fld 0) true) (v1.take 6)).phase = .need (.fld 0) true ∧
    elemLen (smallInputs .transactional) (.fld 0) = some 6 ∧
    (small .transactional (.need (.fld 0) true) (v1.take 6)).rem = 6 ∧
    fifoWf (small .transactional (.need (.fld 0) true) (v1.take 6)) = true ∧
    (smallInputs .transactional).wf = true ∧
    (small .transactional (.need (.fld 0) true) (v1.take 6)).portStatus = .ok ∧
    State.portStatus { small .transactional (.need (.fld 0) true) (v1.take 6) with oracle := [⟨.busError, 0⟩] } ≠ .ok := by
  decide

/-- UnderflowFaults: one byte too few. -/
theorem test_wit_underflow : elemOf .footer (before 0 0 .footer [0]) = some .footer ∧ elemLen fw .footer = some 2 ∧
    2 ≤ (State.rem { before 0 0 .footer [0] with rem := 2 }).toNat ∧ (before 0 0 .footer [0]).portStatus = .ok ∧
    (before 0 0 .footer [0]).q.length - (before 0 0 .footer [0]).cur < 2 := by decide

/-- FinishStep. -/
theorem test_wit_finish : (small .transactional (.finish .ok) v1).phase = .finish .ok := by decide

/-- StepRunsFetchedInstruction. -/
theorem test_wit_fetch : Configured (start v1) ∧ fetch (start v1) = some .decode ∧ (start v1).schedule = [] ∧
    Configured { start v1 with schedule := [.decoder] } ∧ fetch { start v1 with schedule := [.decoder] } = some .decode ∧
    Configured { start v1 with schedule := [.request] } ∧ fetch { start v1 with schedule := [.request] } = some .decode := by
  decide

/-- PhaseNamesTheRow: the first and the last entry. -/
theorem test_wit_phaseNames : (start v1).phase = .start ∧ (before 0 0 .hdr1 v1).phase = .need .hdr1 false ∧
    (before 0 0 (.fld 18) v1).inputs.fieldTable = defaultFieldTable ∧
    defaultFieldTable[0]? = some ⟨1, 0x8000, .rawAccel, 6, .remap .pquat6⟩ ∧
    defaultFieldTable[18]? = some ⟨2, 0x0040, .secondaryOnOff, 2, .remap .secOnOff⟩ := by decide

/-- RequestRule. -/
theorem test_wit_request : Configured (idleWith []) ∧ (idleWith []).phase = .idle ∧
    Configured (idleWith [.request]) ∧ (start v1).phase ≠ .idle ∧
    (nextOf (step { start v1 with schedule := [.request] })).isSome = true := by decide

/-- AppendRule: bytes that just fit, and one too many. -/
theorem test_wit_append : Configured { idleWith [.append 1 [2]] with fifoDepth := 2 } ∧
    (State.q { idleWith [.append 1 [2]] with fifoDepth := 2 }).length + 2 ≤ (2 : Half).toNat ∧
    (1 : Half).toNat < (State.q { idleWith [.append 1 [2]] with fifoDepth := 1 }).length + 2 := by decide

/-- ConfigurationRule. -/
theorem test_wit_configure : Configured (idleWith [.configure { smallInputs .transactional with fwPresent := false }]) ∧
    { (idleWith []).inputs with fwPresent := false } = { smallInputs .transactional with fwPresent := false } ∧
    { smallInputs .transactional with fwPresent := false } ≠ (start v1).inputs ∧ (start v1).phase ≠ .idle ∧
    { (idleWith []).inputs with fwPresent := true } ≠ smallInputs .destructive := by decide

/-- DecoderResetRule. -/
theorem test_wit_reset : Configured { start v1 with schedule := [.reset (smallInputs .destructive)] } := by decide

/-- IllFormedTablesRefused, BadPortErrorsRefused. -/
theorem test_wit_illFormed : ¬ TablesWellFormed { fw with hdr2Bit := 0x8000 } ∧ (start v1).inputs.wf = true ∧
    Status.ok ∈ State.portErrors { start v1 with portErrors := [.busError, .ok] } :=
  ⟨fun h => h.hdr2BitFree ⟨1, 0x8000, .rawAccel, 6, .remap .pquat6⟩ (by decide) (by decide), by decide, by decide⟩

/-- The rules of every step: a COUNT, an extraction, an append, a commit, a configuration change, a reset. -/
theorem test_wit_steps : (nextOf (step (small .transactional (.need .hdr1 false) v1))).isSome = true ∧
    (nextOf (step (unknown 0 0 .hdr1 v1))).isSome = true ∧
    (nextOf (step (idleWith [.append 1 [2]]))).isSome = true ∧
    (nextOf (step { small .transactional (.finish .ok) v1 with cur := 10 })).isSome = true ∧
    (nextOf (step (idleWith [.configure { smallInputs .transactional with fwPresent := false }]))).isSome = true ∧
    (nextOf (step { start v1 with schedule := [.reset fw] })).isSome = true := by decide

/-- NoUnderflow, StepKeepsInvariant, StepKeepsAccounting, StepKeepsStatusesListed: at the start, amid a record, and at a
finish that publishes. -/
theorem test_wit_invariants : Configured (start v1) ∧ StateInv (start v1) = true ∧ Accounted (start v1) = true ∧
    StatusesListed (start v1) = true ∧
    StateInv { small .transactional (.need (.fld 0) false) v1 with cur := 2, rem := 8 } = true ∧
    Accounted { small .transactional (.need (.fld 0) false) v1 with cur := 2, rem := 8 } = true ∧
    StateInv { small .transactional (.finish .ok) v1 with cur := 10, record := v1Record } = true ∧
    Accounted { small .transactional (.finish .ok) v1 with cur := 10, record := v1Record } = true := by decide

/-- CountWritesOnly: a start, a COUNT, an extraction and a reset, in the FIFO's form. -/
theorem test_wit_count_writes : fifoWf (start v1) = true ∧ (nextOf (step (start v1))).isSome = true ∧
    fifoWf (unknown 0 0 .hdr1 v1) = true ∧ (nextOf (step (unknown 0 0 .hdr1 v1))).isSome = true ∧
    fifoWf (before 0 0 .hdr1 v1) = true ∧ (nextOf (step (before 0 0 .hdr1 v1))).isSome = true ∧
    (nextOf (step { start v1 with schedule := [.reset fw] })).isSome = true := by decide

/-- AtStart: V1's bytes, with a decoder move and an append in the schedule. -/
theorem test_wit_atStart : AtStart (attempt v1 [.decoder, .append 0x80 [0x00]]) :=
  ⟨by decide, by decide, by decide, by decide, noOverflow_of_allFits (by decide)⟩

/-- The premises CompleteRecordDecoded and PartialRecordRewound share: an attempt on these bytes under this schedule. -/
theorem attempt_premises (bs : List Byte) (sch : List Move) (hi : StateInv (attempt bs sch) = true)
    (hu : undisturbed (smallInputs .transactional) sch = true) (hf : allFits (attempt bs sch)) :
    AtStart (attempt bs sch) ∧ NoPortErrors (attempt bs sch) ∧ (attempt bs sch).inputs.fwPresent = true ∧
      (attempt bs sch).inputs.readMode = .transactional ∧ namesDistinct (attempt bs sch).inputs = true :=
  have hw : (smallInputs .transactional).wf = true ∧ namesDistinct (smallInputs .transactional) = true := by decide
  ⟨⟨⟨hw.1, rfl⟩, hi, rfl, hu, noOverflow_of_allFits hf⟩, noPortErrors_of_nil rfl, rfl, rfl, hw.2⟩

/-- CompleteRecordDecoded: V1 alone; V1 with a byte behind it, and an append during the attempt (V24). -/
theorem test_wit_complete : AtStart (attempt v1 []) ∧ NoPortErrors (attempt v1 []) ∧
    RecordAs (attempt v1 []).inputs v1Record v1 ∧ (attempt v1 []).q = v1 ++ [] ∧
    AtStart (attempt (v1 ++ [0x80]) [.decoder, .append 0x00 []]) ∧
    NoPortErrors (attempt (v1 ++ [0x80]) [.decoder, .append 0x00 []]) ∧
    (attempt (v1 ++ [0x80]) [.decoder, .append 0x00 []]).q = v1 ++ [0x80] :=
  have h := attempt_premises v1 [] (by decide) (by decide) (by decide)
  have h' := attempt_premises (v1 ++ [0x80]) [.decoder, .append 0x00 []] (by decide) (by decide) (by decide)
  ⟨h.1, h.2.1, by decide, rfl, h'.1, h'.2.1, rfl⟩

/-- PartialRecordRewound: V2's eight bytes with nothing to come; and with one byte to come, of the two that are missing. -/
theorem test_wit_partial : AtStart (attempt (v1.take 8) []) ∧ NoPortErrors (attempt (v1.take 8) []) ∧
    v1 = (attempt (v1.take 8) []).q ++ appended [] ++ [0x00, 0x2A] ∧
    AtStart (attempt (v1.take 8) [.decoder, .append 0x00 []]) ∧
    NoPortErrors (attempt (v1.take 8) [.decoder, .append 0x00 []]) ∧
    v1 = (attempt (v1.take 8) [.decoder, .append 0x00 []]).q ++ appended [.decoder, .append 0x00 []] ++ [0x2A] :=
  have h := attempt_premises (v1.take 8) [] (by decide) (by decide) (by decide)
  have h' := attempt_premises (v1.take 8) [.decoder, .append 0x00 []] (by decide) (by decide) (by decide)
  ⟨h.1, h.2.1, by decide, h'.1, h'.2.1, by decide⟩

/-! ### The launch premises (R264) -/

/-- The moves of P2, and beside them a configuration move and a reset that change no input. -/
def p2Moves : List Move :=
  [.request, .append 0xFF [0xFE, 0x40, 0x00], .request, .configure (smallInputs .transactional), .append 0x00 [0x2A],
   .request, .reset (smallInputs .transactional)]

/-- P2's launch: its first four bytes are in the FIFO. -/
def p2 : State := { idleWith p2Moves with q := v1.take 4, portErrors := [] }

/-- The bytes of V1 are a record (R80), and every prefix of it is aligned. -/
theorem test_launch_record : IsRecord (smallInputs .transactional) v1 := ⟨v1Record, by decide⟩

theorem aligned_prefix (part rest : List Byte) (h : part ++ rest = v1) : Aligned (smallInputs .transactional) part :=
  ⟨[], part, rest, nofun, h ▸ test_launch_record, rfl⟩

/-- AlignedStreamDecoded: P2 meets every premise. -/
theorem test_launch : Launch p2 where
  idle := rfl
  aligned := aligned_prefix _ (v1.drop 4) (by decide)
  producer := ⟨aligned_prefix _ (v1.drop 8) (by decide), aligned_prefix _ [] (by decide), trivial⟩
  noOverflow := noOverflow_of_allFits (by decide)
  tables := by decide
  static := by decide

theorem test_wit_aligned : StateInv p2 = true ∧ p2.response = none ∧ p2.inputs.readMode = .transactional ∧
    namesDistinct p2.inputs = true ∧ (∀ c, Move.reset c ∈ p2.schedule → c = p2.inputs) ∧
    (∀ w ∈ [v1], IsRecord p2.inputs w) ∧ IsRecord p2.inputs ([] ++ v1) ∧ v1 ≠ [] ∧
    p2.q ++ appended p2.schedule = [v1].flatten ++ [] ∧ NoPortErrors p2 ∧ p2.inputs.fwPresent = true :=
  ⟨by decide, rfl, rfl, by decide, fun c h => by simpa [p2, p2Moves, idleWith, small] using h,
    fun w h => List.mem_singleton.mp h ▸ test_launch_record, test_launch_record, by decide, by decide,
    noPortErrors_of_nil rfl, rfl⟩

/-- `NoOverflow` fails where an append is too long, and `StaticConfig` where a move changes an input; neither fails for a reset
or for a move that changes nothing. -/
theorem test_launch_refuses : faultOf (step { idleWith [.append 1 [2]] with fifoDepth := 1 }) = some .fifoOverflow ∧
    staticConfig (smallInputs .transactional) [.configure fw] = false ∧
    staticConfig (smallInputs .transactional) [.configure (smallInputs .transactional), .reset fw, .configure fw] = true ∧
    undisturbed fw [.reset fw] = false := by decide

end Sys2Proof.Tests
end

/-! SUPPORT. The scope family (R7, R235, R247): each check of R7 said as a proposition, the well-formedness check as the nine
conditions together, and what a step answers where it fails. -/

namespace Sys2Proof.Machine

/-! ## The shapes the checks share -/

theorem noPair_iff_pairwise (r : Entry → Entry → Bool) (l : List Entry) :
    noPair r l = true ↔ l.Pairwise fun e f => r e f = false := by
  induction l with
  | nil => simp [noPair]
  | cons e es ih => simp [noPair, ih]

/-- `noPair` by positions, as R7 checks 3 and 9 speak of the table. -/
theorem noPair_iff_getElem? (r : Entry → Entry → Bool) (l : List Entry) :
    noPair r l = true ↔
      ∀ (i j : Nat) (e f : Entry), i < j → l[i]? = some e → l[j]? = some f → r e f = false := by
  rw [noPair_iff_pairwise, List.pairwise_iff_getElem]
  constructor
  · intro h i j e f hij he hf
    obtain ⟨hi, rfl⟩ := List.getElem?_eq_some_iff.mp he
    obtain ⟨hj, rfl⟩ := List.getElem?_eq_some_iff.mp hf
    exact h i j hi hj hij
  · intro h i j hi hj hij
    exact h i j _ _ hij (List.getElem?_eq_getElem hi) (List.getElem?_eq_getElem hj)

theorem popcount_eq_one_iff (v : Half) :
    popcount v = 1 ↔ ∃ b, (List.range 16).filter (fun i => v.getLsbD i) = [b] := by
  rw [popcount, List.countP_eq_length_filter, List.length_eq_one_iff]

/-! ## The nine checks of R7 -/

section Checks

variable (c : Inputs)

theorem hdrsOk_iff : c.hdrsOk = true ↔ ∀ e ∈ c.fieldTable, e.hdr = 1 ∨ e.hdr = 2 := by
  simp [Inputs.hdrsOk]

theorem masksOk_iff : c.masksOk = true ↔
    ∀ e ∈ c.fieldTable, ∃ b, (List.range 16).filter (fun i => e.mask.getLsbD i) = [b] := by
  simp only [Inputs.masksOk, List.all_eq_true, beq_iff_eq, popcount_eq_one_iff]

theorem bitsDistinct_iff : c.bitsDistinct = true ↔
    ∀ (i j : Nat) (e f : Entry), i < j → c.fieldTable[i]? = some e → c.fieldTable[j]? = some f →
      ¬ (e.hdr = f.hdr ∧ e.mask = f.mask) := by
  simp only [Inputs.bitsDistinct, noPair_iff_getElem?, ← Bool.not_eq_true, Bool.and_eq_true, beq_iff_eq]

theorem hdr2BitFree_iff : c.hdr2BitFree = true ↔ ∀ e ∈ c.fieldTable, ¬ (e.hdr = 1 ∧ e.mask = c.hdr2Bit) := by
  simp only [Inputs.hdr2BitFree, List.all_eq_true, Bool.not_eq_true', ← Bool.not_eq_true, Bool.and_eq_true, beq_iff_eq]

theorem lensOk_iff : c.lensOk = true ↔ ∀ e ∈ c.fieldTable, 1 ≤ e.len ∧ e.len ≤ c.maxFieldLen := by
  simp [Inputs.lensOk]

theorem remapLensOk_iff : c.remapLensOk = true ↔
    ∀ e ∈ c.fieldTable, ∀ t, e.fmt = .remap t → ∃ dest, c.permTable t = some dest ∧ dest.length = e.len := by
  rw [Inputs.remapLensOk, List.all_eq_true]
  refine forall₂_congr fun e _ => ?_
  cases e.fmt with
  | remap t => cases h : c.permTable t <;> simp [h]
  | be16 | be32 | raw => simp

theorem remapPermsOk_iff : c.remapPermsOk = true ↔
    ∀ e ∈ c.fieldTable, ∀ t, e.fmt = .remap t →
      ∃ dest, c.permTable t = some dest ∧ isPermutation dest e.len = true := by
  rw [Inputs.remapPermsOk, List.all_eq_true]
  refine forall₂_congr fun e _ => ?_
  cases e.fmt with
  | remap t => cases h : c.permTable t <;> simp [h]
  | be16 | be32 | raw => simp

theorem scalarLensOk_iff : c.scalarLensOk = true ↔
    ∀ e ∈ c.fieldTable, (e.fmt = .be16 → e.len = 2) ∧ (e.fmt = .be32 → e.len = 4) := by
  rw [Inputs.scalarLensOk, List.all_eq_true]
  refine forall₂_congr fun e _ => ?_
  cases e.fmt <;> simp

theorem hdrOrderOk_iff : c.hdrOrderOk = true ↔
    ∀ (i j : Nat) (e f : Entry), i < j → c.fieldTable[i]? = some e → c.fieldTable[j]? = some f →
      ¬ (e.hdr = 2 ∧ f.hdr = 1) := by
  simp only [Inputs.hdrOrderOk, noPair_iff_getElem?, ← Bool.not_eq_true, Bool.and_eq_true, beq_iff_eq]

/-- The nine checks together, by name. -/
theorem inputs_wf_iff_checks : c.wf = true ↔
    c.hdrsOk = true ∧ c.masksOk = true ∧ c.bitsDistinct = true ∧ c.hdr2BitFree = true ∧ c.lensOk = true ∧
      c.remapLensOk = true ∧ c.remapPermsOk = true ∧ c.scalarLensOk = true ∧ c.hdrOrderOk = true := by
  simp only [Inputs.wf, Bool.and_eq_true, and_assoc]

/-- The check is R7's nine conditions. Only check 7 is worded apart: it says again that the table exists and is as long as the
field, which check 6 says already. -/
theorem inputs_wf_iff : c.wf = true ↔ Expect.TablesWellFormed c := by
  rw [inputs_wf_iff_checks, hdrsOk_iff, masksOk_iff, bitsDistinct_iff, hdr2BitFree_iff, lensOk_iff, remapLensOk_iff,
    remapPermsOk_iff, scalarLensOk_iff, hdrOrderOk_iff]
  constructor
  · rintro ⟨h1, h2, h3, h4, h5, h6, h7, h8, h9⟩
    refine ⟨h1, h2, h3, h4, h5, h6, fun e he t dest hf ht => ?_, h8, h9⟩
    obtain ⟨dest', ht', hp⟩ := h7 e he t hf
    obtain rfl : dest = dest' := Option.some.inj (ht.symm.trans ht')
    exact ((isPermutation_iff dest e.len).mp hp).2
  · rintro ⟨h1, h2, h3, h4, h5, h6, h7, h8, h9⟩
    refine ⟨h1, h2, h3, h4, h5, h6, fun e he t hf => ?_, h8, h9⟩
    obtain ⟨dest, ht, hlen⟩ := h6 e he t hf
    exact ⟨dest, ht, (isPermutation_iff dest e.len).mpr ⟨hlen, h7 e he t dest hf ht⟩⟩

end Checks

/-! ## The refusal (R247) -/

/-- The tables are looked at before the schedule and the phase are. -/
theorem step_of_not_wf {s : State} (h : ¬ s.inputs.wf = true) : step s = .refused .illFormedTable := by
  simp [step, takeTurn, h]

/-- Settles O43: the check is the nine conditions by `inputs_wf_iff`, and it is the first thing a step does. -/
theorem illFormedTablesRefused : Obligations.IllFormedTablesRefused := by
  intro s
  have hwf : s.inputs.wf = true ↔ Expect.TablesWellFormed s.inputs := inputs_wf_iff s.inputs
  exact ⟨hwf, fun hn => step_of_not_wf (mt hwf.mp hn)⟩

/-! ## The default configuration (R6, R88, R183 to R188) -/

theorem defaultInputs_wf : defaultInputs.wf = true := by
  rw [inputs_wf_iff_checks]
  decide

theorem defaultInputs_namesDistinct : namesDistinct defaultInputs = true := by decide

theorem defaultPortErrors_ok : portErrorsOk defaultPortErrors = true := by decide

/-- Settles O46: the tables pass each check of R7, the nineteen names differ, and `PORT_ERRORS` is as R235 asks. -/
theorem defaultConfigurationWellFormed : Obligations.DefaultConfigurationWellFormed :=
  ⟨defaultInputs_wf, defaultInputs_namesDistinct, defaultPortErrors_ok⟩

end Sys2Proof.Machine

/-! SUPPORT. The state family: the machine's invariant under every operation and every step (R30, R69, R25, R28), what a step
does to the count and the port's draws (R23, R21), the agents' turns (R20), and the bound on an attempt (R25). -/

namespace Sys2Proof.Machine

open Expect

/-! ## The parts of the invariant, by phase -/

theorem knownIsThere_of_need {s : State} {e : Elem} {b : Bool} (h : s.phase = .need e b) :
    knownIsThere s = true ↔ s.rem.toNat ≤ s.readable := by
  simp [knownIsThere, h]

theorem namesPresent_of_need {s : State} {e : Elem} {b : Bool} (h : s.phase = .need e b) :
    namesPresent s = true ↔ ∀ k, e = .fld k → ∃ ent, s.inputs.fieldTable[k]? = some ent ∧
      entryPresent s.record.header s.record.header2 ent = true := by
  cases e with
  | fld k => cases hk : s.inputs.fieldTable[k]? <;> simp [namesPresent, h, hk]
  | hdr1 | hdr2 | footer => simp [namesPresent, h]

/-- What the attempt can still read fits the 16-bit count (R30, D9). -/
theorem readable_lt_of_fifoWf {s : State} (h : fifoWf s = true) : s.readable < 65536 := by
  have hd := s.fifoDepth.isLt
  rw [fifoWf_iff] at h
  unfold State.readable
  omega

/-- A COUNT's answer is the number of bytes that can still be read, not that number modulo 2^16 (R54). -/
theorem count_toNat {s : State} (h : fifoWf s = true) : (BitVec.ofNat 16 s.readable).toNat = s.readable := by
  have := readable_lt_of_fifoWf h
  simp only [BitVec.toNat_ofNat]
  omega

/-! ## Each operation keeps the invariant -/

/-- At `Finish` only the FIFO, the record and the response matter. -/
theorem stateInv_raiseStatus {s : State} (st : Status) (hf : fifoWf s = true) (hr : recordWf s.record = true)
    (hw : respondsWell s = true) : StateInv (raiseStatus st s) = true :=
  (stateInv_iff _).mpr ⟨hf, rfl, rfl, rfl, hr, hw⟩

theorem stateInv_startAttempt {s : State} (h : StateInv s = true) : StateInv (startAttempt s) = true := by
  obtain ⟨hf, -, -, -, hr, hw⟩ := (stateInv_iff s).mp h
  unfold startAttempt
  split
  · exact (stateInv_iff _).mpr ⟨hf, rfl, by simp [knownIsThere], rfl, recordWf_empty, hw⟩
  · exact stateInv_raiseStatus _ hf hr hw

theorem stateInv_finishAttempt {s : State} (st : Status) (h : StateInv s = true) :
    StateInv (finishAttempt st s) = true := by
  obtain ⟨hf, -, -, -, hr, -⟩ := (stateInv_iff s).mp h
  obtain ⟨hf', hc⟩ := fifoWf_fifoRelease (publishes st) hf
  refine (stateInv_iff _).mpr ⟨hf', ?_, rfl, rfl, by simpa using hr, ?_⟩
  · simp [restsAtZero, hc]
  · cases hp : publishes st <;> simp [respondsWell, hp, hr]

/-- The count that a re-query answers is there to read, and the element named stays the same (R141). -/
theorem stateInv_requery {s : State} {e : Elem} {b : Bool} (h : StateInv s = true) (hp : s.phase = .need e b) :
    StateInv (requery e s) = true := by
  obtain ⟨hf, -, -, hn, hr, hw⟩ := (stateInv_iff s).mp h
  by_cases ho : s.portStatus = .ok
  · rw [requery_ok ho, stateInv_iff, knownIsThere_of_need rfl, namesPresent_of_need rfl]
    exact ⟨hf, rfl, (count_toNat hf).le, (namesPresent_of_need hp).mp hn, hr, hw⟩
  · rw [requery_error ho]
    exact stateInv_raiseStatus _ hf hr hw

/-- The state after the extraction of an element of `n` bytes, `r` being the record with the element written (R142). -/
def extracted (e : Elem) (n : Nat) (r : Record) (s : State) : State :=
  { takeBytes n s.afterDraw with
    record := r
    rem := s.rem - BitVec.ofNat 16 n
    phase := phaseAfter s.inputs r (s.rem - BitVec.ofNat 16 n) e }

/-- READ and the count go down by the same length, so what is known stays there; the next element is a present one. -/
theorem stateInv_extracted {s : State} {e : Elem} {b : Bool} {n : Nat} {r : Record} (h : StateInv s = true)
    (hp : s.phase = .need e b) (hn : n ≤ s.rem.toNat) (hr : recordWf r = true) :
    StateInv (extracted e n r s) = true := by
  obtain ⟨hf, -, hk, -, -, hw⟩ := (stateInv_iff s).mp h
  have hk : s.rem.toNat ≤ s.readable := (knownIsThere_of_need hp).mp hk
  have hf' : fifoWf (extracted e n r s) = true := fifoWf_takeBytes (s := s.afterDraw) hf (hn.trans hk)
  have hw' : respondsWell (extracted e n r s) = true := by simpa [respondsWell, extracted] using hw
  by_cases he : e = .footer
  · subst he
    exact (stateInv_iff _).mpr ⟨hf', rfl, rfl, rfl, hr, hw'⟩
  · have hp' : (extracted e n r s).phase = .need (nextElem s.inputs r e) false := phaseAfter_need he
    have hk' : (extracted e n r s).rem.toNat ≤ (extracted e n r s).readable := by
      show (s.rem - BitVec.ofNat 16 n).toNat ≤ (takeBytes n s.afterDraw).readable
      rw [rem_sub_toNat hn, takeBytes_readable, afterDraw_readable]
      omega
    refine (stateInv_iff _).mpr ⟨hf', by simp [restsAtZero, hp'], (knownIsThere_of_need hp').mpr hk',
      (namesPresent_of_need hp').mpr fun k hk => ?_, hr, hw'⟩
    simpa [extracted] using nextElem_fld hk

/-- Every outcome of the element step at the element that the phase names. -/
theorem stateInv_elementStep {s t : State} {e : Elem} {b : Bool} (h : StateInv s = true) (hp : s.phase = .need e b)
    (ht : elementStep e b s = .next t) : StateInv t = true := by
  obtain ⟨hf, -, -, -, hr, hw⟩ := (stateInv_iff s).mp h
  obtain ⟨n, -, ⟨-, -, rfl⟩ | ⟨-, -, ho, rfl⟩ | ⟨-, -, -, rfl⟩ | ⟨-, -, rfl⟩ | ⟨hn, -, -, r, ha, rfl⟩⟩ :=
    elementStep_next ht
  · exact stateInv_raiseStatus _ hf hr hw
  · rw [← requery_ok ho]
    exact stateInv_requery h hp
  · exact stateInv_raiseStatus _ hf hr hw
  · exact stateInv_raiseStatus _ (fifoWf_loseBytes _ _ (fifoWf_afterDraw hf)) (by simpa using hr)
      (by simpa [respondsWell] using hw)
  · exact stateInv_extracted h hp hn (recordWf_applyElem hr ha)

theorem stateInv_decoderTurn {s t : State} (h : StateInv s = true) (ht : decoderTurn s = .next t) :
    StateInv t = true := by
  obtain ⟨-, rfl⟩ | ⟨-, rfl⟩ | ⟨st, -, rfl⟩ | ⟨e, b, hp, he⟩ := decoderTurn_next ht
  · exact h
  · exact stateInv_startAttempt h
  · exact stateInv_finishAttempt st h
  · exact stateInv_elementStep h hp he

/-- More bytes behind those that are there change nothing that is known (R57). -/
theorem stateInv_append {s : State} {bs : List Byte} (h : StateInv s = true)
    (hd : s.q.length + bs.length ≤ s.fifoDepth.toNat) : StateInv { s with q := s.q ++ bs } = true := by
  obtain ⟨hf, h0, hk, hn, hr, hw⟩ := (stateInv_iff s).mp h
  have hk' : knownIsThere { s with q := s.q ++ bs } = true := by
    cases hp : s.phase with
    | need e b =>
      rw [knownIsThere_of_need hp] at hk
      rw [knownIsThere_of_need rfl]
      simp only [State.readable, List.length_append] at *
      omega
    | idle | start | finish st => rfl
  exact (stateInv_iff _).mpr ⟨fifoWf_append hf hd, h0, hk', hn, hr, hw⟩

/-- A request comes in Idle, where the cursor is 0 already, and takes the response away (R28). -/
theorem stateInv_acceptRequest {s : State} (h : StateInv s = true) (hp : s.phase = .idle) :
    StateInv (acceptRequest s) = true := by
  obtain ⟨hf, h0, -, -, hr, -⟩ := (stateInv_iff s).mp h
  exact (stateInv_iff _).mpr ⟨hf, by simpa [restsAtZero, hp] using h0, rfl, rfl, hr, rfl⟩

/-- Inputs that differ in `FW_PRESENT` alone keep the read mode and the tables, all that the invariant speaks of (R66). -/
theorem stateInv_fwPresent {s : State} (b : Bool) (h : StateInv s = true) :
    StateInv { s with inputs := { s.inputs with fwPresent := b } } = true := h

theorem stateInv_resetDecoder {s : State} (c : Inputs) (h : StateInv s = true) : StateInv (resetDecoder c s) = true := by
  obtain ⟨hf, -⟩ := (stateInv_iff s).mp h
  exact (stateInv_iff _).mpr ⟨fifoWf_resetDecoder c hf, rfl, rfl, rfl, recordWf_empty, rfl⟩

/-- Settles O53: by the move that the step makes; none of the parts reads the schedule. -/
theorem stepKeepsInvariant : Obligations.StepKeepsInvariant := by
  intro s t h ht
  have hs : ∀ sch, StateInv { s with schedule := sch } = true := fun _ => h
  obtain ⟨sch, hd⟩ | ⟨b, bs, rest, hd, rfl⟩ | ⟨rest, hp, rfl⟩ | ⟨c, rest, -, rfl | ⟨-, hc⟩, rfl⟩ | ⟨c, rest, -, rfl⟩ :=
    step_cases ht
  · exact stateInv_decoderTurn (hs sch) hd
  · exact stateInv_append (hs rest) hd
  · exact stateInv_acceptRequest (hs rest) hp
  · exact h
  · rw [← hc]
    exact stateInv_fwPresent c.fwPresent (hs rest)
  · exact stateInv_resetDecoder c (hs rest)

/-! ## The move that comes next -/

section Moves

variable {s : State} {rest : List Move}

theorem step_of_schedule_nil (h : Configured s) (hs : s.schedule = []) : step s = decoderTurn s := by
  simp [step, takeTurn, h.1, h.2, hs]

theorem step_of_decoder (h : Configured s) (hs : s.schedule = .decoder :: rest) :
    step s = decoderTurn { s with schedule := rest } := by
  simp [step, takeTurn, h.1, h.2, hs]

theorem step_of_append {b : Byte} {bs : List Byte} (h : Configured s) (hs : s.schedule = .append b bs :: rest) :
    step s = producerAppend (b :: bs) { s with schedule := rest } := by
  simp [step, takeTurn, h.1, h.2, hs]

theorem step_of_request_idle (h : Configured s) (hp : s.phase = .idle) (hs : s.schedule = .request :: rest) :
    step s = .next (acceptRequest { s with schedule := rest }) := by
  simp [step, takeTurn, h.1, h.2, hs, hp]

/-- A request waits while an attempt runs (R248). -/
theorem step_of_request_busy (h : Configured s) (hp : s.phase ≠ .idle) (hs : s.schedule = .request :: rest) :
    step s = decoderTurn s := by
  simp [step, takeTurn, h.1, h.2, hs, hp]

theorem step_of_configure {c : Inputs} (h : Configured s) (hs : s.schedule = .configure c :: rest) :
    step s = configureInputs c { s with schedule := rest } := by
  simp [step, takeTurn, h.1, h.2, hs]

end Moves

theorem decoderTurn_of_fetch {s : State} {i : Instr} (h : fetch s = some i) : decoderTurn s = exec i s := by
  simp [decoderTurn, h]

theorem phase_ne_idle_of_fetch {s : State} {i : Instr} (h : fetch s = some i) : s.phase ≠ .idle := by
  intro hp
  simp [fetch, hp] at h

/-- Settles O37: the decoder's turn is `exec` of the row fetched, and in `Idle` none is. -/
theorem stepRunsFetchedInstruction : Obligations.StepRunsFetchedInstruction := by
  intro s i hc hf
  refine ⟨fun hs => ?_, fun rest hs => ?_, fun rest hs => ?_⟩
  · rw [step_of_schedule_nil hc hs, decoderTurn_of_fetch hf]
  · rw [step_of_decoder hc hs]
    exact decoderTurn_of_fetch (s := { s with schedule := rest }) hf
  · rw [step_of_request_busy hc (phase_ne_idle_of_fetch hf) hs, decoderTurn_of_fetch hf]

/-- Settles O39: a request is accepted in `Idle` alone; in any other phase the decoder moves, and leaves the schedule. -/
theorem requestRule : Obligations.RequestRule := by
  intro s hc
  refine ⟨fun hp hs => ?_, fun rest hp hs => ?_, fun rest t hp hs ht => ?_⟩
  · rw [step_of_schedule_nil hc hs, decoderTurn_idle hp]
  · rw [step_of_request_idle hc hp hs, acceptRequest]
  · rw [step_of_request_busy hc hp hs] at ht
    obtain ⟨hsch, -⟩ := decoderTurn_static ht
    exact hsch.trans hs

/-! ## The rows that the phase names -/

theorem elemOf_of_fieldOf {i : Instr} {n : FieldName} (h : fieldOf i = some n) (s : State) :
    elemOf i s = (fieldIndex n s).map .fld := by
  cases i <;> simp only [fieldOf] at h <;> cases h <;> rfl

/-- The entry that the phase names is the one of its name, where several have it. -/
theorem fieldIndex_of_need {s : State} {k : Nat} {b : Bool} {ent : Entry} (hp : s.phase = .need (.fld k) b)
    (hk : s.inputs.fieldTable[k]? = some ent) : fieldIndex ent.name s = some k := by
  simp [fieldIndex, hp, hk]

/-- Each entry of the default table has a row, whose word is the entry's mask, in the entry's header (R88, R82, R83). -/
theorem defaultFieldTable_row : ∀ e ∈ defaultFieldTable,
    (instrOfName e.name).map (fun i => (opcodeWord i, slotOf i))
      = some (e.mask, if e.hdr = 1 then .bits1 else .bits2) := by decide

/-- Settles O38: each phase but a field's names its row by definition, and a field's is that of its entry's name. -/
theorem phaseNamesTheRow : Obligations.PhaseNamesTheRow := by
  intro s
  refine ⟨fun hp => ?_, fun b hp => ?_, fun b hp => ?_, fun b hp => ?_, fun k b e hp htab he => ?_⟩
  · cases hf : s.inputs.fwPresent <;> simp [fetch, hp, hf]
  · simp [fetch, hp]
  · simp [fetch, hp]
  · simp [fetch, hp]
  · obtain ⟨i, hi, hrow⟩ := Option.map_eq_some_iff.mp (defaultFieldTable_row e (List.mem_of_getElem? he))
    obtain ⟨hword, hslot⟩ := Prod.mk.inj hrow
    have hk : s.inputs.fieldTable[k]? = some e := htab ▸ he
    have hname : fieldOf i = some e.name := fieldOf_instrOfName hi
    exact ⟨i, by simp [fetch, hp, hk, hi], hword, hslot, hname, by
      rw [elemOf_of_fieldOf hname, fieldIndex_of_need hp hk, Option.map_some]⟩

/-! ## The count, the port's draws and the record -/

/-- What a decoder's turn does to the count (R23, R146). -/
theorem decoderTurn_rem {s t : State} (hf : fifoWf s = true) (h : decoderTurn s = .next t) :
    t.rem = s.rem ∨ (t.rem = 0 ∧ s.phase = .start ∧ t.phase = .need .hdr1 false) ∨
    (∃ e, s.phase = .need e false ∧ t.phase = .need e true ∧ t.txns = s.txns + 1 ∧
      t.rem.toNat = s.q.length - s.cur) ∨
    ∃ e b n, s.phase = .need e b ∧ elemLen s.inputs e = some n ∧ t.txns = s.txns + 1 ∧ n ≤ s.rem.toNat ∧
      t.rem.toNat = s.rem.toNat - n := by
  obtain ⟨-, rfl⟩ | ⟨hp, rfl⟩ | ⟨st, -, rfl⟩ | ⟨e, b, hp, he⟩ := decoderTurn_next h
  · exact .inl rfl
  · cases hfw : s.inputs.fwPresent
    · exact .inl (by simp [startAttempt, hfw])
    · exact .inr (.inl (by simp [startAttempt, hfw, hp]))
  · exact .inl (finishAttempt_rem s st)
  · obtain ⟨n, hlen, ⟨-, -, rfl⟩ | ⟨-, rfl, -, rfl⟩ | ⟨-, -, -, rfl⟩ | ⟨-, -, rfl⟩ | ⟨hn, -, -, r, -, rfl⟩⟩ :=
      elementStep_next he
    · exact .inl rfl
    · exact .inr (.inr (.inl ⟨e, hp, rfl, rfl, count_toNat hf⟩))
    · exact .inl rfl
    · exact .inl (by simp)
    · exact .inr (.inr (.inr ⟨e, b, n, hp, hlen, by simp, hn, rem_sub_toNat hn⟩))

/-- Settles O47: the decoder's turn by `decoderTurn_rem`; of the other moves only a reset writes the count. -/
theorem countWritesOnly : Obligations.CountWritesOnly := by
  intro s t hf ht
  obtain ⟨sch, hd⟩ | ⟨b, bs, rest, -, rfl⟩ | ⟨rest, -, rfl⟩ | ⟨c, rest, -, -, rfl⟩ | ⟨c, rest, hs, rfl⟩ :=
    step_cases ht
  · obtain h | ⟨h0, hstart⟩ | h | h := decoderTurn_rem (s := { s with schedule := sch }) hf hd
    · exact .inl h
    · exact .inr (.inl ⟨h0, .inl hstart⟩)
    · exact .inr (.inr (.inl h))
    · exact .inr (.inr (.inr h))
  · exact .inl rfl
  · exact .inl rfl
  · exact .inl rfl
  · exact .inr (.inl ⟨rfl, .inr ⟨c, rest, hs⟩⟩)

/-- A decoder's turn makes no transaction, or, at an element, one COUNT or one READ (R21). -/
theorem decoderTurn_txns {s t : State} (h : decoderTurn s = .next t) :
    (t.txns = s.txns ∧ t.oracle = s.oracle) ∨
    (t.txns = s.txns + 1 ∧ t.oracle = s.oracle.tail ∧ ∃ e b, s.phase = .need e b) := by
  obtain ⟨-, rfl⟩ | ⟨-, rfl⟩ | ⟨st, -, rfl⟩ | ⟨e, b, hp, he⟩ := decoderTurn_next h
  · exact .inl ⟨rfl, rfl⟩
  · exact .inl ⟨startAttempt_txns s, startAttempt_oracle s⟩
  · exact .inl ⟨finishAttempt_txns s st, finishAttempt_oracle s st⟩
  · obtain ⟨n, -, ⟨-, -, rfl⟩ | ⟨-, -, -, rfl⟩ | ⟨-, -, -, rfl⟩ | ⟨-, -, rfl⟩ | ⟨-, -, -, r, -, rfl⟩⟩ :=
      elementStep_next he
    · exact .inl ⟨rfl, rfl⟩
    · exact .inr ⟨rfl, rfl, e, b, hp⟩
    · exact .inr ⟨rfl, rfl, e, b, hp⟩
    · exact .inr ⟨by simp, by simp, e, b, hp⟩
    · exact .inr ⟨by simp, by simp, e, b, hp⟩

/-- Settles O49: no agent but the decoder uses the port. -/
theorem oneTransactionPerStep : Obligations.OneTransactionPerStep := by
  intro s t ht
  obtain ⟨sch, hd⟩ | ⟨b, bs, rest, -, rfl⟩ | ⟨rest, -, rfl⟩ | ⟨c, rest, -, -, rfl⟩ | ⟨c, rest, -, rfl⟩ :=
    step_cases ht
  · exact decoderTurn_txns (s := { s with schedule := sch }) hd
  all_goals exact .inl ⟨rfl, rfl⟩

/-- Settles O31: by the laws of the record's fields. -/
theorem recordFieldsIndependent : Obligations.RecordFieldsIndependent := fun r n bs =>
  ⟨get_set_same r n bs, fun _ hm => get_set_other hm r bs, set_header r n bs, set_header2 r n bs, set_footer r n bs,
    recordWf_set n bs, get_empty n⟩

/-- Settles O8: by the cases of `elemLen`. -/
theorem elementLengths : Obligations.ElementLengths := fun c =>
  ⟨rfl, rfl, rfl, fun k e he => by simp [elemLen, he]⟩

/-! ## Reset -/

/-- Settles O45: the fields of `State.reset`. -/
theorem resetValues : Obligations.ResetValues := ⟨rfl, rfl, rfl, rfl, rfl, rfl, rfl, rfl, rfl, rfl⟩

theorem stateInv_reset : StateInv State.reset = true :=
  (stateInv_iff _).mpr ⟨fifoWf_reset, rfl, rfl, rfl, recordWf_empty, rfl⟩

/-- In Idle with no response there is nothing to account for. -/
theorem accounted_of_idle {s : State} (hp : s.phase = .idle) (hr : s.response = none) : Accounted s = true := by
  cases hm : s.inputs.readMode <;>
    simp [Accounted, headersAccounted, bytesAccounted, recordAccounted, bytesMatch, hp, hr, hm]

theorem statusesListed_of_idle {s : State} (hp : s.phase = .idle) (hr : s.response = none) :
    StatusesListed s = true := by
  simp [StatusesListed, hp, hr]

/-- Settles O56: at reset the phase is Idle and there is no response; the FIFO's form is `fifoWf_reset`. -/
theorem resetMeetsInvariants : Obligations.ResetMeetsInvariants :=
  ⟨stateInv_reset, accounted_of_idle rfl rfl, statusesListed_of_idle rfl rfl⟩

/-! ## The bound on an attempt (R25) -/

/-- The elements from this one to the footer, in the order of the record (R80), the absent ones counted. -/
def elemsLeft (c : Inputs) : Elem → Nat
  | .hdr1 => c.fieldTable.length + 3
  | .hdr2 => c.fieldTable.length + 2
  | .fld k => c.fieldTable.length + 1 - k
  | .footer => 1

/-- A bound on the decoder's turns to Idle: two for each element left, less one where its re-query was made, and one to
finish. -/
def turnsLeft (s : State) : Nat :=
  match s.phase with
  | .idle => 0
  | .start => 2 * s.inputs.fieldTable.length + 8
  | .need e b => 2 * elemsLeft s.inputs e + if b then 0 else 1
  | .finish _ => 1

/-- A bound on the steps to Idle: the moves listed, and the decoder's turns. -/
def stepsLeft (s : State) : Nat := s.schedule.length + turnsLeft s

section TurnsLeft

variable {s : State}

theorem turnsLeft_of_start (h : s.phase = .start) : turnsLeft s = 2 * s.inputs.fieldTable.length + 8 := by
  simp [turnsLeft, h]

theorem turnsLeft_of_need {e : Elem} {b : Bool} (h : s.phase = .need e b) :
    turnsLeft s = 2 * elemsLeft s.inputs e + if b then 0 else 1 := by
  simp [turnsLeft, h]

theorem turnsLeft_of_finish {st : Status} (h : s.phase = .finish st) : turnsLeft s = 1 := by
  simp [turnsLeft, h]

end TurnsLeft

/-- The first present field from `j` on, or the footer, leaves no more than entry `j` would (R140). -/
theorem elemsLeft_firstField_le {c : Inputs} (r : Record) {j : Nat} (hj : j ≤ c.fieldTable.length) :
    elemsLeft c (firstField c r j) ≤ c.fieldTable.length + 1 - j := by
  obtain ⟨h, -⟩ | ⟨k, ent, h, hjk, -⟩ := firstField_spec c r j
  · rw [h, elemsLeft]; omega
  · rw [h, elemsLeft]; omega

theorem lt_length_of_elemLen {c : Inputs} {k n : Nat} (h : elemLen c (.fld k) = some n) :
    k < c.fieldTable.length := by
  obtain ⟨ent, hk, -⟩ := Option.map_eq_some_iff.mp h
  exact (List.getElem?_eq_some_iff.mp hk).1

/-- What comes next is further on in the record (R140). -/
theorem elemsLeft_nextElem_lt {c : Inputs} (r : Record) {e : Elem} {n : Nat} (hl : elemLen c e = some n)
    (he : e ≠ .footer) : elemsLeft c (nextElem c r e) < elemsLeft c e := by
  have h0 := elemsLeft_firstField_le (c := c) r (Nat.zero_le _)
  cases e with
  | hdr1 =>
    simp only [nextElem]
    split
    · exact Nat.lt_succ_self _
    · simp only [elemsLeft] at *; omega
  | hdr2 => simp only [nextElem, elemsLeft] at *; omega
  | fld k =>
    have hk := lt_length_of_elemLen hl
    have hnext : elemsLeft c (firstField c r (k + 1)) ≤ _ := elemsLeft_firstField_le r hk
    simp only [nextElem, elemsLeft] at *; omega
  | footer => exact absurd rfl he

theorem elemsLeft_pos {c : Inputs} {e : Elem} {n : Nat} (hl : elemLen c e = some n) : 0 < elemsLeft c e := by
  cases e with
  | fld k =>
    have hk := lt_length_of_elemLen hl
    rw [elemsLeft]; omega
  | hdr1 | hdr2 | footer => exact Nat.succ_pos _

/-! ### Each turn of the decoder brings the end nearer -/

theorem turnsLeft_startAttempt_lt {s : State} (h : s.phase = .start) : turnsLeft (startAttempt s) < turnsLeft s := by
  rw [turnsLeft_of_start h, startAttempt]
  split
  · rw [turnsLeft_of_need rfl]
    simp only [elemsLeft, Bool.false_eq_true, if_false]
    omega
  · rw [turnsLeft_of_finish rfl]
    omega

theorem turnsLeft_elementStep_lt {s t : State} {e : Elem} {b : Bool} (hp : s.phase = .need e b)
    (h : elementStep e b s = .next t) : turnsLeft t < turnsLeft s := by
  obtain ⟨n, hl, h⟩ := elementStep_next h
  have hpos := elemsLeft_pos hl
  have hfin : ∀ {u : State} {st : Status}, u.phase = .finish st → turnsLeft u < turnsLeft s := fun hu => by
    rw [turnsLeft_of_finish hu, turnsLeft_of_need hp]
    omega
  obtain ⟨-, -, rfl⟩ | ⟨-, rfl, -, rfl⟩ | ⟨-, -, -, rfl⟩ | ⟨-, -, rfl⟩ | ⟨-, -, -, r, -, rfl⟩ := h
  · exact hfin rfl
  · rw [turnsLeft_of_need hp, turnsLeft_of_need rfl]
    exact Nat.lt_succ_self _
  · exact hfin rfl
  · exact hfin rfl
  · by_cases he : e = .footer
    · subst he
      exact hfin rfl
    · have hlt := elemsLeft_nextElem_lt r hl he
      rw [turnsLeft_of_need hp, turnsLeft_of_need (phaseAfter_need he)]
      simp only [takeBytes_inputs, afterDraw_inputs, Bool.false_eq_true, if_false]
      omega

theorem turnsLeft_decoderTurn_lt {s t : State} (hp : s.phase ≠ .idle) (h : decoderTurn s = .next t) :
    turnsLeft t < turnsLeft s := by
  obtain ⟨hi, -⟩ | ⟨hs, rfl⟩ | ⟨st, hf, rfl⟩ | ⟨e, b, hn, he⟩ := decoderTurn_next h
  · exact absurd hi hp
  · exact turnsLeft_startAttempt_lt hs
  · rw [turnsLeft_of_finish hf, turnsLeft, finishAttempt_phase]
    exact Nat.one_pos
  · exact turnsLeft_elementStep_lt hn he

/-- An element step ends at an element or at Finish. -/
theorem elementStep_phase_ne_idle {s t : State} {e : Elem} {b : Bool} (h : elementStep e b s = .next t) :
    t.phase ≠ .idle := by
  obtain ⟨n, -, ⟨-, -, rfl⟩ | ⟨-, -, -, rfl⟩ | ⟨-, -, -, rfl⟩ | ⟨-, -, rfl⟩ | ⟨-, -, -, r, -, rfl⟩⟩ :=
    elementStep_next h
  · exact nofun
  · exact nofun
  · exact nofun
  · exact nofun
  · cases e <;> exact nofun

/-- An attempt comes back to Idle by the Finish step alone, which responds (R214). -/
theorem decoderTurn_responds {s t : State} (hp : s.phase ≠ .idle) (h : decoderTurn s = .next t)
    (ht : t.phase = .idle) : t.response.isSome = true := by
  obtain ⟨hi, -⟩ | ⟨-, rfl⟩ | ⟨st, -, rfl⟩ | ⟨e, b, -, he⟩ := decoderTurn_next h
  · exact absurd hi hp
  · cases hf : s.inputs.fwPresent <;> simp [startAttempt, hf] at ht
  · simp
  · exact absurd ht (elementStep_phase_ne_idle he)

/-! ### The decoder is never stuck -/

theorem elemLen_of_namesPresent {s : State} {e : Elem} {b : Bool} (h : namesPresent s = true)
    (hp : s.phase = .need e b) : ∃ n, elemLen s.inputs e = some n := by
  cases e with
  | fld k =>
    obtain ⟨ent, hk, -⟩ := (namesPresent_of_need hp).mp h k rfl
    exact ⟨ent.len, by simp [elemLen, hk]⟩
  | hdr1 | hdr2 | footer => exact ⟨_, rfl⟩

/-- With too small a count an element step answers a next state (R141). -/
theorem elementStep_short {s : State} {e : Elem} {n : Nat} (b : Bool) (hl : elemLen s.inputs e = some n)
    (hlt : s.rem.toNat < n) : ∃ t, elementStep e b s = .next t := by
  cases b <;> simp [elementStep, hl, hlt]

/-- The READ of an element fails (R142, R72). -/
theorem elementStep_readFails {s : State} {e : Elem} {n : Nat} (b : Bool) (hl : elemLen s.inputs e = some n)
    (hge : n ≤ s.rem.toNat) (ho : s.portStatus ≠ .ok) :
    elementStep e b s = .next (raiseStatus s.portStatus (loseBytes s.draw.lost n s.afterDraw)) := by
  simp [elementStep, hl, Nat.not_lt.mpr hge, extract, fifoRead, ho]

/-- From the invariant, under well-formed tables, the element that the phase names is there to look up, and what is known of
it is there to read (R69, R194). -/
theorem elementStep_defined {s : State} {e : Elem} {b : Bool} (hw : s.inputs.wf = true) (hi : StateInv s = true)
    (hp : s.phase = .need e b) : ∃ t, elementStep e b s = .next t := by
  obtain ⟨-, -, hk, hn, -, -⟩ := (stateInv_iff s).mp hi
  have hk : s.rem.toNat ≤ s.readable := (knownIsThere_of_need hp).mp hk
  obtain ⟨n, hl⟩ := elemLen_of_namesPresent hn hp
  by_cases hlt : s.rem.toNat < n
  · exact elementStep_short b hl hlt
  · have hge : n ≤ s.rem.toNat := Nat.not_lt.mp hlt
    by_cases ho : s.portStatus = .ok
    · have hr : n ≤ s.readable := hge.trans hk
      obtain ⟨r, ha⟩ := applyElem_total hw hl (nextBytes_length hr) s.record
      exact ⟨_, elementStep_extracts hl hge ho hr ha⟩
    · exact ⟨_, elementStep_readFails b hl hge ho⟩

theorem decoderTurn_defined {s : State} (hw : s.inputs.wf = true) (hi : StateInv s = true) :
    ∃ t, decoderTurn s = .next t := by
  cases hp : s.phase with
  | idle => exact ⟨_, decoderTurn_idle hp⟩
  | start => exact ⟨_, decoderTurn_start hp⟩
  | finish st => exact ⟨_, decoderTurn_finish hp⟩
  | need e b =>
    rw [decoderTurn_need hp]
    exact elementStep_defined hw hi hp

/-! ### The run of an attempt -/

theorem run_succ_of_next {M : Host.Core} {s t : M.State} (h : M.step s = .next t) (k : Nat) :
    M.run (k + 1) s = M.run k t := by
  rw [run_succ, h]

theorem run_succ_of_fault {M : Host.Core} {s : M.State} {f : M.Fault} (h : M.step s = .fault f) (k : Nat) :
    M.run (k + 1) s = .fault f := by
  rw [run_succ, h]

theorem core_run_succ {s t : State} (h : step s = .next t) (k : Nat) : core.run (k + 1) s = core.run k t :=
  run_succ_of_next (M := core) h k

theorem noOverflow_step {s t : State} (h : NoOverflow s) (ht : step s = .next t) : NoOverflow t := fun k =>
  core_run_succ ht k ▸ h (k + 1)

theorem step_ne_overflow_of_noOverflow {s : State} (h : NoOverflow s) : step s ≠ .fault .fifoOverflow := fun hs =>
  h 1 (run_succ_of_fault (M := core) hs 0)

/-- An attempt that is running, under a schedule as `AtStart` asks. -/
structure Attempting (s : State) : Prop where
  configured : Configured s
  inv : StateInv s = true
  running : s.phase ≠ .idle
  scheduleUndisturbed : undisturbed s.inputs s.schedule = true
  noOverflow : NoOverflow s

theorem attempting_of_atStart {s : State} (h : AtStart s) : Attempting s := by
  obtain ⟨hc, hi, hp, hu, hn⟩ := h
  exact ⟨hc, hi, by simp [hp], hu, hn⟩

/-- A running attempt can always take a step: the schedule holds no reset, a configuration move changes nothing, and every
append fits. -/
theorem step_defined_of_attempting {s : State} (h : Attempting s) : ∃ t, step s = .next t := by
  obtain ⟨hc, hi, hp, hu, hn⟩ := h
  cases hs : s.schedule with
  | nil =>
    rw [step_of_schedule_nil hc hs]
    exact decoderTurn_defined hc.1 hi
  | cons m rest =>
    rw [hs] at hu
    cases m with
    | decoder =>
      rw [step_of_decoder hc hs]
      exact decoderTurn_defined (s := { s with schedule := rest }) hc.1 hi
    | append b bs =>
      have hno := step_ne_overflow_of_noOverflow hn
      rw [step_of_append hc hs, producerAppend] at *
      split at hno
      · next hfit => exact ⟨_, if_pos hfit⟩
      · exact absurd rfl hno
    | request =>
      rw [step_of_request_busy hc hp hs]
      exact decoderTurn_defined hc.1 hi
    | configure c =>
      have hcs : c = s.inputs := by simp only [undisturbed, Bool.and_eq_true, beq_iff_eq] at hu; exact hu.1
      rw [step_of_configure hc hs, configureInputs]
      exact ⟨_, if_pos hcs⟩
    | reset c => simp [undisturbed] at hu

/-- What a step of a running attempt leaves: the configuration, a schedule as before, fewer steps to come, and, in Idle, a
response. -/
structure AttemptStep (s t : State) : Prop where
  configured : Configured t
  scheduleUndisturbed : undisturbed t.inputs t.schedule = true
  closer : stepsLeft t < stepsLeft s
  responds : t.phase = .idle → t.response.isSome = true

/-- The decoder's turn in a running attempt, with what is left of the schedule. -/
theorem attemptStep_decoderTurn {s t : State} {sch : List Move} (h : Attempting s)
    (hu : undisturbed s.inputs sch = true) (hlen : sch.length ≤ s.schedule.length)
    (ht : decoderTurn { s with schedule := sch } = .next t) : AttemptStep s t := by
  obtain ⟨hsch, hin, -, hpe⟩ := decoderTurn_static ht
  have hlt := turnsLeft_decoderTurn_lt (s := { s with schedule := sch }) h.running ht
  refine ⟨?_, by rw [hin, hsch]; exact hu, ?_, decoderTurn_responds (s := { s with schedule := sch }) h.running ht⟩
  · rw [Configured, hin, hpe]
    exact h.configured
  · have hsame : turnsLeft { s with schedule := sch } = turnsLeft s := rfl
    rw [stepsLeft, stepsLeft, hsch]
    show sch.length + turnsLeft t < s.schedule.length + turnsLeft s
    omega

/-- A move of another agent that is used up and changes neither the phase nor the configuration. -/
theorem attemptStep_of_move {s t : State} {m : Move} (h : Attempting s) (hs : s.schedule = m :: t.schedule)
    (hu : undisturbed s.inputs t.schedule = true) (hp : t.phase = s.phase) (hi : t.inputs = s.inputs)
    (hpe : t.portErrors = s.portErrors) : AttemptStep s t where
  configured := by rw [Configured, hi, hpe]; exact h.configured
  scheduleUndisturbed := hi ▸ hu
  closer := by simp [stepsLeft, turnsLeft, hs, hp, hi]
  responds := fun hidle => absurd (hp ▸ hidle) h.running

theorem attemptStep_of_step {s t : State} (h : Attempting s) (ht : step s = .next t) : AttemptStep s t := by
  have hu := h.scheduleUndisturbed
  obtain ⟨-, -, ⟨hs, hd⟩ | ⟨rest, hs, hd⟩ | ⟨b, bs, rest, hs, -, rfl⟩ | ⟨rest, -, hp, -⟩ | ⟨rest, hs, -, hd⟩ |
    ⟨c, rest, hs, -, rfl⟩ | ⟨c, rest, hs, -⟩⟩ := step_next ht
  · exact attemptStep_decoderTurn h hu le_rfl hd
  · rw [hs] at hu
    exact attemptStep_decoderTurn (sch := rest) h hu (by simp [hs]) hd
  · rw [hs] at hu
    exact attemptStep_of_move h hs hu rfl rfl rfl
  · exact absurd hp h.running
  · exact attemptStep_decoderTurn h hu le_rfl hd
  · rw [hs] at hu
    simp only [undisturbed, Bool.and_eq_true, beq_iff_eq] at hu
    exact attemptStep_of_move h hs hu.2 rfl hu.1 rfl
  · simp [hs, undisturbed] at hu

theorem attempting_of_step {s t : State} (h : Attempting s) (ht : step s = .next t) (hp : t.phase ≠ .idle) :
    Attempting t :=
  have hst := attemptStep_of_step h ht
  ⟨hst.configured, stepKeepsInvariant s t h.inv ht, hp, hst.scheduleUndisturbed, noOverflow_step h.noOverflow ht⟩

/-- The steps left bound the run to Idle. -/
theorem attempting_ends (m : Nat) : ∀ s, Attempting s → stepsLeft s ≤ m →
    ∃ k t, k ≤ m ∧ core.run k s = .next t ∧ t.phase = .idle ∧ t.response.isSome = true := by
  induction m with
  | zero =>
    intro s h hm
    obtain ⟨t, ht⟩ := step_defined_of_attempting h
    have := (attemptStep_of_step h ht).closer
    omega
  | succ m ih =>
    intro s h hm
    obtain ⟨t, ht⟩ := step_defined_of_attempting h
    have hst := attemptStep_of_step h ht
    by_cases hp : t.phase = .idle
    · exact ⟨1, t, by omega, core_run_succ ht 0, hp, hst.responds hp⟩
    · obtain ⟨k, u, hk, hrun, hu⟩ := ih t (attempting_of_step h ht hp) (by have := hst.closer; omega)
      exact ⟨k + 1, u, by omega, (core_run_succ ht k).trans hrun, hu⟩

/-- Settles O57: at Start the steps left are the bound of R25 and the moves listed. -/
theorem attemptEnds : Obligations.AttemptEnds := by
  intro s h
  have ⟨_, _, hp, _, _⟩ := h
  exact attempting_ends _ s (attempting_of_atStart h) (by rw [stepsLeft, turnsLeft_of_start hp])

end Sys2Proof.Machine

/-! SUPPORT. The memory family, first part: the FIFO port's transactions (R54 to R56, R72), the producer's and the platform's
moves (R57, R66, R269), and what a step does to the FIFO's bytes and to the configuration. -/

namespace Sys2Proof.Machine

open Expect

/-! ## The FIFO port -/

/-- Settles O14: COUNT's status is the port's, and its count fits 16 bits. -/
theorem countTransaction : Obligations.CountTransaction := by
  intro s hq
  refine ⟨fun _ => ?_, portStatus_mem s, rfl⟩
  have hlt : s.readable < 2 ^ 16 := by unfold State.readable; omega
  exact BitVec.toNat_ofNat s.readable 16 ▸ Nat.mod_eq_of_lt hlt

theorem nextBytes_eq_readBytes (n : Nat) (s : State) : nextBytes n s = readBytes n s := by
  rcases readMode_cases s.inputs.readMode with hm | hm <;> simp [nextBytes, readBytes, hm]

theorem takeBytes_afterDraw_eq_readDone (n : Nat) (s : State) : takeBytes n s.afterDraw = readDone n s := by
  rcases readMode_cases s.inputs.readMode with hm | hm
  · rw [takeBytes_transactional (s := s.afterDraw) hm]
    simp [readDone, transacted, State.afterDraw, hm]
  · rw [takeBytes_destructive (s := s.afterDraw) hm]
    simp [readDone, transacted, State.afterDraw, hm]

theorem loseBytes_afterDraw_eq_readFailed (n : Nat) (s : State) :
    loseBytes s.draw.lost n s.afterDraw = readFailed n s := by
  rcases readMode_cases s.inputs.readMode with hm | hm
  · rw [loseBytes_transactional (s := s.afterDraw) hm]
    simp [readFailed, transacted, State.afterDraw, hm]
  · rw [loseBytes_destructive (s := s.afterDraw) hm]
    simp [readFailed, transacted, State.afterDraw, hm]

/-- Settles O15: by the port's status, and by whether the bytes are there. -/
theorem readTransaction : Obligations.ReadTransaction := by
  intro s n
  refine ⟨fun ho hn => ?_, fun ho hn => ?_, fun ho => ?_⟩
  · rw [fifoRead, if_pos ho, State.readable, if_pos hn, nextBytes_eq_readBytes, takeBytes_afterDraw_eq_readDone]
  · rw [fifoRead, if_pos ho, State.readable, if_neg (Nat.not_le.mpr hn)]
  · rw [fifoRead, if_neg ho, loseBytes_afterDraw_eq_readFailed]

theorem fifoRelease_transactional {s : State} (h : s.inputs.readMode = .transactional) (commit : Bool) :
    fifoRelease commit s = if commit then { s with q := s.q.drop s.cur, cur := 0 } else { s with cur := 0 } := by
  simp [fifoRelease, h]

theorem fifoRelease_destructive {s : State} (h : s.inputs.readMode = .destructive) (commit : Bool) :
    fifoRelease commit s = s := by
  simp [fifoRelease, h]

/-- Settles O16: by the read mode. -/
theorem releaseTransaction : Obligations.ReleaseTransaction := fun _ =>
  ⟨fun h => ⟨fifoRelease_transactional h true, fifoRelease_transactional h false⟩, fun h => fifoRelease_destructive h⟩

/-! ## The moves of the producer and of the platform -/

/-- Settles O40: the move that comes next is the append, whose one condition is that the bytes fit. -/
theorem appendRule : Obligations.AppendRule := by
  intro s b bs rest hc hs
  rw [step_of_append hc hs, producerAppend]
  exact ⟨fun hfit => if_pos hfit, fun hover => if_neg (Nat.not_le.mpr hover)⟩

/-- Settles O41: the move that comes next is the configuration's, and setting the inputs to what they are changes nothing. -/
theorem configurationRule : Obligations.ConfigurationRule := by
  intro s c rest hc hs
  rw [step_of_configure hc hs, configureInputs]
  refine ⟨fun hp hfw => ?_, fun hne hp => ?_, fun hfw => ?_⟩
  · by_cases hsame : c = s.inputs
    · rw [if_pos hsame, hsame]
    · rw [if_neg hsame, if_pos ⟨hp, hfw⟩]
  · rw [if_neg hne, if_neg fun h => hp h.1]
  · rw [if_neg fun hsame => hfw (by rw [hsame]), if_neg fun h => hfw h.2]

/-! ## The FIFO's bytes and the configuration under a step -/

/-- In Transactional mode an element step takes no byte from the FIFO (R55, R72). -/
theorem elementStep_q {s t : State} {e : Elem} {b : Bool} (hm : s.inputs.readMode = .transactional)
    (h : elementStep e b s = .next t) : t.q = s.q := by
  obtain ⟨n, -, ⟨-, -, rfl⟩ | ⟨-, -, -, rfl⟩ | ⟨-, -, -, rfl⟩ | ⟨-, -, rfl⟩ | ⟨-, -, -, r, -, rfl⟩⟩ := elementStep_next h
  · rfl
  · rfl
  · rfl
  · rw [loseBytes_transactional (s := s.afterDraw) hm]; rfl
  · rw [takeBytes_transactional (s := s.afterDraw) hm]; rfl

/-- In Transactional mode the Finish step drops the bytes read where it publishes, and no byte elsewhere (R214). -/
theorem finishAttempt_q_transactional {s : State} (hm : s.inputs.readMode = .transactional) (st : Status) :
    (finishAttempt st s).q = if publishes st then s.q.drop s.cur else s.q := by
  rw [finishAttempt_q, fifoRelease_transactional hm]
  split <;> rfl

theorem decoderTurn_q {s t : State} (hm : s.inputs.readMode = .transactional) (h : decoderTurn s = .next t) :
    t.q = s.q ∨ ∃ st, s.phase = .finish st ∧ publishes st = true ∧ t.q = s.q.drop s.cur := by
  obtain ⟨-, rfl⟩ | ⟨-, rfl⟩ | ⟨st, hp, rfl⟩ | ⟨e, b, -, he⟩ := decoderTurn_next h
  · exact .inl rfl
  · exact .inl (startAttempt_q s)
  · rw [finishAttempt_q_transactional hm]
    by_cases hst : publishes st = true
    · exact .inr ⟨st, hp, hst, if_pos hst⟩
    · exact .inl (if_neg hst)
  · exact .inl (elementStep_q hm he)

/-- Settles O48: only the decoder reads the FIFO, and of its turns only a publishing Finish drops bytes. -/
theorem onlyCommitTakesBytes : Obligations.OnlyCommitTakesBytes := by
  intro s t ht hm
  obtain hbs | ⟨sch, hd⟩ := step_soleReader ht
  · exact .inl hbs
  · obtain hq | ⟨st, hp, hst, hq⟩ := decoderTurn_q (s := { s with schedule := sch }) hm hd
    · exact .inl ⟨[], hq.trans (List.append_nil _).symm⟩
    · exact .inr ⟨st, hp, (publishes_iff st).mp hst, hq⟩

/-- Settles O51: the decoder's turn is static, and of the other moves a configuration and a reset bring their inputs. -/
theorem configurationIsStatic : Obligations.ConfigurationIsStatic := by
  intro s t ht
  obtain ⟨sch, hd⟩ | ⟨b, bs, rest, -, rfl⟩ | ⟨rest, -, rfl⟩ | ⟨c, rest, hs, -, rfl⟩ | ⟨c, rest, hs, rfl⟩ := step_cases ht
  · obtain ⟨-, hin, hd, hpe⟩ := decoderTurn_static hd
    exact ⟨hd, hpe, .inl hin⟩
  · exact ⟨rfl, rfl, .inl rfl⟩
  · exact ⟨rfl, rfl, .inl rfl⟩
  · exact ⟨rfl, rfl, .inr ⟨c, rest, .inl hs, rfl⟩⟩
  · exact ⟨rfl, rfl, .inr ⟨c, rest, .inr hs, rfl⟩⟩

/-! ## What a step can answer from the invariant -/

theorem step_of_reset {s : State} {c : Inputs} {rest : List Move} (h : Configured s) (hs : s.schedule = .reset c :: rest) :
    step s = .next (resetDecoder c { s with schedule := rest }) := by
  simp [step, takeTurn, h.1, h.2, hs]

/-- From the invariant a step answers a next state, or an append overflows, or a change of the inputs is refused. -/
theorem step_answers {s : State} (hc : Configured s) (hi : StateInv s = true) :
    (∃ t, step s = .next t) ∨ step s = .fault .fifoOverflow ∨ step s = .refused .configChange := by
  have hturn : ∀ sch, ∃ t, decoderTurn { s with schedule := sch } = .next t := fun sch =>
    decoderTurn_defined (s := { s with schedule := sch }) hc.1 hi
  cases hs : s.schedule with
  | nil => exact .inl (by rw [step_of_schedule_nil hc hs]; exact hturn s.schedule)
  | cons m rest =>
    cases m with
    | decoder => exact .inl (by rw [step_of_decoder hc hs]; exact hturn rest)
    | append b bs =>
      rw [step_of_append hc hs, producerAppend]
      split
      · exact .inl ⟨_, rfl⟩
      · exact .inr (.inl rfl)
    | request =>
      by_cases hp : s.phase = .idle
      · exact .inl ⟨_, step_of_request_idle hc hp hs⟩
      · exact .inl (by rw [step_of_request_busy hc hp hs]; exact hturn s.schedule)
    | configure c =>
      rw [step_of_configure hc hs, configureInputs]
      split
      · exact .inl ⟨_, rfl⟩
      · split
        · exact .inl ⟨_, rfl⟩
        · exact .inr (.inr rfl)
    | reset c => exact .inl ⟨_, step_of_reset hc hs⟩

/-- Settles O52: none of the answers from the invariant is one of the three. -/
theorem noUnderflow : Obligations.NoUnderflow := by
  intro s hc hi
  obtain ⟨t, h⟩ | h | h := step_answers hc hi <;> simp [h]

end Sys2Proof.Machine

/-! SUPPORT. The memory family, second part: records on the wire (R80, R191), and that every step keeps the accounting of an
attempt's bytes and fields (R70, R216). -/

namespace Sys2Proof.Machine

/-! ## The reorder of a field and its inverse (R191) -/

/-- Lane `i` of a reorder takes wire byte `i` to its index (R181). -/
theorem remap_getElem? {d : List Nat} {w o : List Byte} (h : remap d w = some o) {i j : Nat} (hij : d[i]? = some j) :
    o[j]? = w[i]? := by
  have hp : isPermutation d w.length = true := by rw [← remap_isSome, h, Option.isSome_some]
  obtain ⟨hnodup, hlt⟩ := isPermutation_nodup hp
  have hlen := ((isPermutation_iff d _).mp hp).1
  have hj : j < (List.replicate w.length (none : Option Byte)).length := by
    simpa using hlt j (List.mem_of_getElem? hij)
  have hscat : scatter d w (List.replicate w.length none) = o.map some := allSome_eq (by simpa [remap, hlen] using h)
  have hmem := scatter_mem d w _ hnodup hlen hij hj
  rw [hscat, List.getElem?_map] at hmem
  exact Option.map_injective (Option.some_injective _) hmem

@[simp] theorem wire_length (d : List Nat) (b : List Byte) : (wire d b).length = d.length := List.length_map _

theorem wire_getElem? {d : List Nat} {b : List Byte} {i j : Nat} (hij : d[i]? = some j) (hj : j < b.length) :
    (wire d b)[i]? = b[j]? := by
  simp [wire, hij, byteAt, List.getD, List.getElem?_eq_getElem hj]

/-- Gathering what a reorder scattered gives the wire bytes back. -/
theorem wire_remap {d : List Nat} {w o : List Byte} (h : remap d w = some o) : wire d o = w := by
  have hp : isPermutation d w.length = true := by rw [← remap_isSome, h, Option.isSome_some]
  have hlen := ((isPermutation_iff d _).mp hp).1
  have hlt := (isPermutation_nodup hp).2
  refine List.ext_getElem? fun i => ?_
  cases hij : d[i]? with
  | none =>
    have hi : d.length ≤ i := List.getElem?_eq_none_iff.mp hij
    rw [List.getElem?_eq_none (by rwa [wire_length]), List.getElem?_eq_none (hlen ▸ hi)]
  | some j =>
    have hj : j < o.length := remap_length h ▸ hlt j (List.mem_of_getElem? hij)
    rw [wire_getElem? hij hj, remap_getElem? h hij]

/-- A permutation reorders the wire bytes of a field to the field's bytes. -/
theorem remap_wire {d : List Nat} {b : List Byte} (hp : isPermutation d b.length = true) :
    remap d (wire d b) = some b := by
  obtain ⟨hlen, hmem⟩ := (isPermutation_iff d _).mp hp
  have hsome : (remap d (wire d b)).isSome = true := by rw [remap_isSome, wire_length, hlen]; exact hp
  obtain ⟨o, ho⟩ := Option.isSome_iff_exists.mp hsome
  have hol : o.length = b.length := by rw [remap_length ho, wire_length, hlen]
  rw [ho]
  refine congrArg some (List.ext_getElem? fun j => ?_)
  by_cases hj : j < b.length
  · obtain ⟨i, hij⟩ := List.mem_iff_getElem?.mp (hmem j hj)
    rw [remap_getElem? ho hij, wire_getElem? hij hj]
  · rw [List.getElem?_eq_none (by omega), List.getElem?_eq_none (by omega)]

theorem permTable_of_wf {c : Inputs} (hw : c.wf = true) {ent : Entry} (he : ent ∈ c.fieldTable) {t : TableId}
    (hf : ent.fmt = .remap t) : ∃ d, c.permTable t = some d ∧ isPermutation d ent.len = true := by
  obtain ⟨-, -, -, -, -, -, h7, -, -⟩ := (inputs_wf_iff_checks c).mp hw
  exact (remapPermsOk_iff c).mp h7 ent he t hf

/-- The wire bytes of a field's canonical bytes are those it was read from (R191). -/
theorem uncanon_of_canon {c : Inputs} {fmt : Fmt} {w b : List Byte} (h : canon c fmt w = some b) :
    uncanon c fmt b = some w := by
  cases fmt with
  | remap t =>
    cases ht : c.permTable t with
    | none => simp [canon, ht] at h
    | some d => simp [uncanon, ht, wire_remap (by simpa [canon, ht] using h : remap d w = some b)]
  | be16 | be32 | raw => exact h.symm

/-- In a well-formed configuration a field's bytes have a wire form, as long as they are, from which they are read. -/
theorem uncanon_spec {c : Inputs} (hw : c.wf = true) {ent : Entry} (he : ent ∈ c.fieldTable) {b : List Byte}
    (hl : b.length = ent.len) :
    ∃ w, uncanon c ent.fmt b = some w ∧ w.length = ent.len ∧ canon c ent.fmt w = some b := by
  cases hf : ent.fmt with
  | remap t =>
    obtain ⟨d, hd, hp⟩ := permTable_of_wf hw he hf
    exact ⟨wire d b, by simp [uncanon, hd], by rw [wire_length, ((isPermutation_iff d _).mp hp).1],
      by simpa [canon, hd] using remap_wire (hl ▸ hp)⟩
  | be16 | be32 | raw => exact ⟨b, rfl, hl, rfl⟩

/-! ## Headers on the wire -/

/-- Two bytes are the wire bytes of the value they make (R58, R84). -/
theorem wireBytes_headerValue {bs : List Byte} (h : bs.length = 2) : wireBytes (headerValue bs) = bs := by
  obtain ⟨b0, b1, rfl⟩ := List.length_eq_two.mp h
  have h0 := b0.isLt
  have h1 := b1.isLt
  have hv : (headerValue [b0, b1]).toNat = b0.toNat * 256 + b1.toNat := be16_toNat b0 b1
  simp only [wireBytes, List.cons.injEq, and_true]
  constructor
  · apply BitVec.eq_of_toNat_eq
    simp only [BitVec.toNat_setWidth, BitVec.toNat_ushiftRight, Nat.shiftRight_eq_div_pow, hv]
    omega
  · apply BitVec.eq_of_toNat_eq
    simp only [BitVec.toNat_setWidth, hv]
    omega

/-- The wire bytes of a record's headers (R80). -/
def headBytes (c : Inputs) (r : Record) : List Byte :=
  wireBytes r.header ++ if hdr2Present c r.header then wireBytes r.header2 else []

theorem headBytes_length (c : Inputs) (r : Record) :
    (headBytes c r).length = 2 + if hdr2Present c r.header then 2 else 0 := by
  unfold headBytes
  split <;> simp

theorem header2Absent_iff (c : Inputs) (r : Record) :
    header2Absent c r = true ↔ hdr2Present c r.header = true ∨ r.header2 = 0 := by
  simp [header2Absent]

/-! ## The fields of a record, entry by entry -/

theorem fieldMatches_of_present {r : Record} {e : Entry} (h : fieldMatches r e = true)
    (hp : entryPresent r.header r.header2 e = true) : ∃ bs, r.get e.name = some bs ∧ bs.length = e.len := by
  simpa [fieldMatches, hp] using h

theorem get_eq_none_of_absent {r : Record} {e : Entry} (h : fieldMatches r e = true)
    (hp : entryPresent r.header r.header2 e = false) : r.get e.name = none := by
  simpa [fieldMatches, hp] using h

theorem fieldMatches_of_get_none {r : Record} {e : Entry} (hp : entryPresent r.header r.header2 e = false)
    (hg : r.get e.name = none) : fieldMatches r e = true := by
  simp [fieldMatches, hp, hg]

theorem fieldMatches_of_get_some {r : Record} {e : Entry} {bs : List Byte}
    (hp : entryPresent r.header r.header2 e = true) (hg : r.get e.name = some bs) (hl : bs.length = e.len) :
    fieldMatches r e = true := by
  simp [fieldMatches, hp, hg, hl]

theorem fieldMatches_congr {r r' : Record} {e : Entry} (h1 : r'.header = r.header) (h2 : r'.header2 = r.header2)
    (hg : r'.get e.name = r.get e.name) : fieldMatches r' e = fieldMatches r e := by
  rw [fieldMatches, fieldMatches, h1, h2, hg]

theorem fieldsOnWire_cons_absent {c : Inputs} {r : Record} {e : Entry} (l : List Entry)
    (hp : entryPresent r.header r.header2 e = false) : fieldsOnWire c r (e :: l) = fieldsOnWire c r l := by
  simp [fieldsOnWire, hp]

theorem fieldsOnWire_cons_present {c : Inputs} {r : Record} {e : Entry} {bs w : List Byte} (l : List Entry)
    (hp : entryPresent r.header r.header2 e = true) (hg : r.get e.name = some bs) (hu : uncanon c e.fmt bs = some w) :
    fieldsOnWire c r (e :: l) = (fieldsOnWire c r l).map (w ++ ·) := by
  cases h : fieldsOnWire c r l <;> simp [fieldsOnWire, hp, hg, hu, h]

/-- The headers and the fields alone make up the fields on the wire. -/
theorem fieldsOnWire_congr {c : Inputs} {r r' : Record} (h1 : r'.header = r.header) (h2 : r'.header2 = r.header2) :
    ∀ {l : List Entry}, (∀ e ∈ l, r'.get e.name = r.get e.name) → fieldsOnWire c r' l = fieldsOnWire c r l
  | [], _ => rfl
  | e :: l, hg => by
    simp only [fieldsOnWire, h1, h2, hg e List.mem_cons_self,
      fieldsOnWire_congr h1 h2 fun f hf => hg f (List.mem_cons_of_mem e hf)]

theorem fieldsOnWire_footer (c : Inputs) (r : Record) (f : Option Half) (l : List Entry) :
    fieldsOnWire c { r with footer := f } l = fieldsOnWire c r l :=
  fieldsOnWire_congr (r := r) (r' := { r with footer := f }) rfl rfl fun _ _ => rfl

theorem fieldsOnWire_append (c : Inputs) (r : Record) : ∀ (l l' : List Entry) {ws ws' : List Byte},
    fieldsOnWire c r l = some ws → fieldsOnWire c r l' = some ws' → fieldsOnWire c r (l ++ l') = some (ws ++ ws')
  | [], l', ws, ws', h, h' => by cases h; exact h'
  | e :: l, l', ws, ws', h, h' => by
    rw [List.cons_append]
    cases hp : entryPresent r.header r.header2 e with
    | false =>
      rw [fieldsOnWire_cons_absent _ hp] at h ⊢
      exact fieldsOnWire_append c r l l' h h'
    | true =>
      cases hg : r.get e.name with
      | none => simp [fieldsOnWire, hp, hg] at h
      | some bs =>
        cases hu : uncanon c e.fmt bs with
        | none => simp [fieldsOnWire, hp, hg, hu] at h
        | some w =>
          rw [fieldsOnWire_cons_present _ hp hg hu] at h ⊢
          obtain ⟨ws₀, h₀, rfl⟩ := Option.map_eq_some_iff.mp h
          rw [fieldsOnWire_append c r l l' h₀ h', Option.map_some, List.append_assoc]

theorem fieldsOnWire_of_absent (c : Inputs) (r : Record) : ∀ {l : List Entry},
    (∀ e ∈ l, entryPresent r.header r.header2 e = false) → fieldsOnWire c r l = some []
  | [], _ => rfl
  | e :: l, h => by
    rw [fieldsOnWire_cons_absent l (h e List.mem_cons_self)]
    exact fieldsOnWire_of_absent c r fun f hf => h f (List.mem_cons_of_mem e hf)

theorem presentLen_append (h1 h2 : Half) : ∀ l l' : List Entry,
    presentLen h1 h2 (l ++ l') = presentLen h1 h2 l + presentLen h1 h2 l'
  | [], l' => (Nat.zero_add _).symm
  | e :: l, l' => by simp only [List.cons_append, presentLen, presentLen_append h1 h2 l l', Nat.add_assoc]

theorem presentLen_of_absent {h1 h2 : Half} : ∀ {l : List Entry},
    (∀ e ∈ l, entryPresent h1 h2 e = false) → presentLen h1 h2 l = 0
  | [], _ => rfl
  | e :: l, h => by
    simp [presentLen, h e List.mem_cons_self, presentLen_of_absent fun f hf => h f (List.mem_cons_of_mem e hf)]

/-! ## The accounting by phase -/

/-- What the headers say at an element (R121, R122, R124). -/
def headersReached (c : Inputs) (r : Record) : Elem → Prop
  | .hdr1 => r.header = 0 ∧ r.header2 = 0
  | .hdr2 => hdr2Present c r.header = true
  | _ => header2Absent c r = true

/-- The accounting at an element of an attempt with this working record, `read` being the bytes it has read in Transactional
mode. -/
structure ElemAccounted (c : Inputs) (r : Record) (read : List Byte) (e : Elem) : Prop where
  headers : headersReached c r e
  bytes : c.readMode = .transactional → read.length = bytesBefore c r.header r.header2 e
  fields : namesDistinct c = true → recordReached c e r = true
  wire : namesDistinct c = true → c.readMode = .transactional → wireBefore c r e = some read

/-- The accounting of a record that is about to be published. -/
structure RecordAccounted (c : Inputs) (r : Record) (read : List Byte) : Prop where
  bytes : c.readMode = .transactional → read.length = recordLen c r.header r.header2
  fields : namesDistinct c = true → recordComplete c r = true
  wire : namesDistinct c = true → c.readMode = .transactional → recordOnWire c r = some read

/-- The accounting of the attempt that runs, the response before it left aside. -/
structure AttemptAccounted (s : State) : Prop where
  elem : ∀ e b, s.phase = .need e b → ElemAccounted s.inputs s.record (s.q.take s.cur) e
  finish : ∀ st, s.phase = .finish st → publishes st = true → RecordAccounted s.inputs s.record (s.q.take s.cur)

/-- A record that the response carries is complete. -/
def ResponseAccounted (s : State) : Prop :=
  namesDistinct s.inputs = true → ∀ resp r, s.response = some resp → resp.record = some r →
    recordComplete s.inputs r = true

/-! Each part of the model's accounting, as a proposition about the phase. -/

theorem not_or_eq_true_iff_imp (a b : Bool) : (!a || b) = true ↔ (a = true → b = true) := by
  cases a <;> simp

theorem headersAccounted_iff (s : State) :
    headersAccounted s = true ↔ ∀ e b, s.phase = .need e b → headersReached s.inputs s.record e := by
  cases hp : s.phase with
  | need e b => cases e <;> simp [headersAccounted, hp, headersReached]
  | idle | start | finish => simp [headersAccounted, hp]

theorem bytesAccounted_iff (s : State) : bytesAccounted s = true ↔ (s.inputs.readMode = .transactional →
    (∀ e b, s.phase = .need e b → s.cur = bytesBefore s.inputs s.record.header s.record.header2 e) ∧
    ∀ st, s.phase = .finish st → publishes st = true →
      s.cur = recordLen s.inputs s.record.header s.record.header2) := by
  cases hm : s.inputs.readMode <;> cases hp : s.phase <;> 
    simp [bytesAccounted, hm, hp, -Bool.or_eq_true, not_or_eq_true_iff_imp]

theorem bytesMatch_iff (s : State) : bytesMatch s = true ↔ (s.inputs.readMode = .transactional →
    (∀ e b, s.phase = .need e b → wireBefore s.inputs s.record e = some (s.q.take s.cur)) ∧
    ∀ st, s.phase = .finish st → publishes st = true →
      recordOnWire s.inputs s.record = some (s.q.take s.cur)) := by
  cases hm : s.inputs.readMode <;> cases hp : s.phase <;> 
    simp [bytesMatch, hm, hp, -Bool.or_eq_true, not_or_eq_true_iff_imp]

theorem recordAccounted_iff (s : State) : recordAccounted s = true ↔
    (∀ e b, s.phase = .need e b → recordReached s.inputs e s.record = true) ∧
    (∀ st, s.phase = .finish st → publishes st = true → recordComplete s.inputs s.record = true) ∧
    ∀ resp r, s.response = some resp → resp.record = some r → recordComplete s.inputs r = true := by
  have hresp : s.response.all (fun resp => resp.record.all (recordComplete s.inputs)) = true ↔
      ∀ resp r, s.response = some resp → resp.record = some r → recordComplete s.inputs r = true := by
    simp only [Option.all_eq_true]
    exact ⟨fun h resp r hs hr => h resp hs r hr, fun h resp hs r hr => h resp r hs hr⟩
  rw [← hresp]
  cases hp : s.phase <;> cases hr : s.response <;>
    simp [recordAccounted, hp, hr, -Bool.or_eq_true, not_or_eq_true_iff_imp]

theorem read_length {s : State} (h : fifoWf s = true) : (s.q.take s.cur).length = s.cur := by
  rw [List.length_take, Nat.min_eq_left ((fifoWf_iff s).mp h).1]

/-- The model's accounting is that of the attempt and that of the response. -/
theorem accounted_iff {s : State} (h : fifoWf s = true) :
    Accounted s = true ↔ AttemptAccounted s ∧ ResponseAccounted s := by
  have hlen := read_length h
  rw [Accounted, Bool.and_eq_true, Bool.and_eq_true, not_or_eq_true_iff_imp, Bool.and_eq_true, headersAccounted_iff,
    bytesAccounted_iff, recordAccounted_iff, bytesMatch_iff]
  constructor
  · rintro ⟨⟨hh, hb⟩, hf⟩
    refine ⟨⟨fun e b hp => ?_, fun st hp hst => ?_⟩, fun hn => (hf hn).1.2.2⟩
    · exact ⟨hh e b hp, fun hm => hlen.trans ((hb hm).1 e b hp), fun hn => (hf hn).1.1 e b hp,
        fun hn hm => ((hf hn).2 hm).1 e b hp⟩
    · exact ⟨fun hm => hlen.trans ((hb hm).2 st hp hst), fun hn => (hf hn).1.2.1 st hp hst,
        fun hn hm => ((hf hn).2 hm).2 st hp hst⟩
  · rintro ⟨⟨he, hfin⟩, hr⟩
    refine ⟨⟨fun e b hp => (he e b hp).headers, fun hm => ⟨fun e b hp => ?_, fun st hp hst => ?_⟩⟩, fun hn =>
      ⟨⟨fun e b hp => (he e b hp).fields hn, fun st hp hst => (hfin st hp hst).fields hn, hr hn⟩, fun hm =>
        ⟨fun e b hp => (he e b hp).wire hn hm, fun st hp hst => (hfin st hp hst).wire hn hm⟩⟩⟩
    · exact hlen.symm.trans ((he e b hp).bytes hm)
    · exact hlen.symm.trans ((hfin st hp hst).bytes hm)

/-! ## The accounting between the entries of the table -/

/-- The accounting where the entries before index `j` have been extracted. -/
structure EntriesAccounted (c : Inputs) (r : Record) (read : List Byte) (j : Nat) : Prop where
  headers : header2Absent c r = true
  bytes : c.readMode = .transactional →
    read.length = (headBytes c r).length + presentLen r.header r.header2 (c.fieldTable.take j)
  footer : namesDistinct c = true → r.footer = none
  before : namesDistinct c = true → ∀ e ∈ c.fieldTable.take j, fieldMatches r e = true
  after : namesDistinct c = true → ∀ e ∈ c.fieldTable.drop j, r.get e.name = none
  wire : namesDistinct c = true → c.readMode = .transactional →
    (fieldsOnWire c r (c.fieldTable.take j)).map (headBytes c r ++ ·) = some read

theorem recordReached_iff (c : Inputs) (e : Elem) (r : Record) : recordReached c e r = true ↔
    r.footer = none ∧ (∀ f ∈ c.fieldTable.take (entriesBefore c e), fieldMatches r f = true) ∧
      ∀ f ∈ c.fieldTable.drop (entriesBefore c e), r.get f.name = none := by
  simp [recordReached, and_assoc]

theorem elemAccounted_fld_iff {c : Inputs} {r : Record} {read : List Byte} {k : Nat} :
    ElemAccounted c r read (.fld k) ↔ EntriesAccounted c r read k := by
  constructor
  · rintro ⟨hh, hb, hf, hw⟩
    have hf := fun hn => (recordReached_iff c _ r).mp (hf hn)
    exact ⟨hh, fun hm => headBytes_length c r ▸ hb hm, fun hn => (hf hn).1, fun hn => (hf hn).2.1,
      fun hn => (hf hn).2.2, hw⟩
  · rintro ⟨hh, hb, hfoot, hbef, haft, hw⟩
    exact ⟨hh, fun hm => by rw [headBytes_length] at hb; exact hb hm, fun hn => (recordReached_iff c _ r).mpr
      ⟨hfoot hn, hbef hn, haft hn⟩, hw⟩

theorem elemAccounted_footer_iff {c : Inputs} {r : Record} {read : List Byte} :
    ElemAccounted c r read .footer ↔ EntriesAccounted c r read c.fieldTable.length := by
  constructor
  · rintro ⟨hh, hb, hf, hw⟩
    have hf := fun hn => (recordReached_iff c _ r).mp (hf hn)
    exact ⟨hh, fun hm => by rw [headBytes_length, List.take_length]; exact hb hm, fun hn => (hf hn).1,
      fun hn => (hf hn).2.1, fun hn => (hf hn).2.2, hw⟩
  · rintro ⟨hh, hb, hfoot, hbef, haft, hw⟩
    exact ⟨hh, fun hm => by rw [headBytes_length, List.take_length] at hb; exact hb hm, fun hn =>
      (recordReached_iff c _ r).mpr ⟨hfoot hn, hbef hn, haft hn⟩, hw⟩

/-- The entries before index `k` are those before `j` and those between. -/
theorem take_eq_append_of_le {α : Type} (l : List α) {j k : Nat} (h : j ≤ k) :
    l.take k = l.take j ++ (l.drop j).take (k - j) := by
  rw [← List.take_add, Nat.add_sub_cancel' h]

/-- Absent entries add nothing to the accounting. -/
theorem entriesAccounted_skip {c : Inputs} {r : Record} {read : List Byte} {j k : Nat}
    (h : EntriesAccounted c r read j) (hjk : j ≤ k)
    (habs : ∀ e ∈ (c.fieldTable.drop j).take (k - j), entryPresent r.header r.header2 e = false) :
    EntriesAccounted c r read k := by
  have hsplit := take_eq_append_of_le c.fieldTable hjk
  refine ⟨h.headers, fun hm => ?_, h.footer, fun hn e he => ?_, fun hn e he => ?_, fun hn hm => ?_⟩
  · rw [hsplit, presentLen_append, presentLen_of_absent habs]
    exact h.bytes hm
  · rw [hsplit, List.mem_append] at he
    rcases he with he | he
    · exact h.before hn e he
    · exact fieldMatches_of_get_none (habs e he) (h.after hn e (List.mem_of_mem_take he))
  · have hdrop : c.fieldTable.drop k = (c.fieldTable.drop j).drop (k - j) := by
      rw [List.drop_drop, Nat.add_sub_cancel' hjk]
    exact h.after hn e (List.mem_of_mem_drop (hdrop ▸ he))
  · obtain ⟨ws, hws, hread⟩ := Option.map_eq_some_iff.mp (h.wire hn hm)
    rw [hsplit, fieldsOnWire_append c r _ _ hws (fieldsOnWire_of_absent c r habs), List.append_nil, Option.map_some,
      hread]

/-- What comes next is the first present entry, or the footer, with no present entry before it (R140). -/
theorem elemAccounted_firstField {c : Inputs} {r : Record} {read : List Byte} {j : Nat}
    (h : EntriesAccounted c r read j) (hj : j ≤ c.fieldTable.length) :
    ElemAccounted c r read (firstField c r j) := by
  obtain ⟨hnext, habs⟩ | ⟨k, ent, hnext, hjk, -, -, habs⟩ := firstField_spec c r j
  · rw [hnext, elemAccounted_footer_iff]
    exact entriesAccounted_skip h hj fun e he => habs e (List.mem_of_mem_take he)
  · rw [hnext, elemAccounted_fld_iff]
    exact entriesAccounted_skip h hjk habs

/-! ## The accounting after an extraction -/

theorem namesDistinct_iff (c : Inputs) : namesDistinct c = true ↔
    ∀ (i j : Nat) (e f : Entry), i < j → c.fieldTable[i]? = some e → c.fieldTable[j]? = some f → e.name ≠ f.name := by
  simp only [namesDistinct, noPair_iff_getElem?, beq_eq_false_iff_ne]

/-- Where names are distinct, an entry before another or behind it has another name. -/
theorem name_ne_of_namesDistinct {c : Inputs} (h : namesDistinct c = true) {k : Nat} {ent : Entry}
    (hk : c.fieldTable[k]? = some ent) {e : Entry} (he : e ∈ c.fieldTable.take k ∨ e ∈ c.fieldTable.drop (k + 1)) :
    e.name ≠ ent.name := by
  rw [namesDistinct_iff] at h
  rcases he with he | he
  · obtain ⟨i, hi⟩ := List.mem_iff_getElem?.mp he
    rw [List.getElem?_take] at hi
    split at hi
    · next hlt => exact h i k e ent hlt hi hk
    · cases hi
  · obtain ⟨i, hi⟩ := List.mem_iff_getElem?.mp he
    rw [List.getElem?_drop] at hi
    exact (h k (k + 1 + i) ent e (by omega) hk hi).symm

/-- The extraction of a present field moves the accounting past its entry (R142, R143). -/
theorem entriesAccounted_set {c : Inputs} (hw : c.wf = true) {r : Record} {read bs cs : List Byte} {k : Nat} {ent : Entry}
    (h : EntriesAccounted c r read k) (hk : c.fieldTable[k]? = some ent)
    (hp : entryPresent r.header r.header2 ent = true) (hl : bs.length = ent.len) (hc : canon c ent.fmt bs = some cs) :
    EntriesAccounted c (r.set ent.name cs) (read ++ bs) (k + 1) := by
  have hsplit : c.fieldTable.take (k + 1) = c.fieldTable.take k ++ [ent] := by
    rw [List.take_add_one, hk, Option.toList_some]
  have hcl : cs.length = ent.len := by
    obtain ⟨o, ho, hol⟩ := canon_total hw (List.mem_of_getElem? hk) hl
    obtain rfl : cs = o := Option.some.inj (hc.symm.trans ho)
    exact hol
  have hbefore (hn : namesDistinct c = true) : ∀ e ∈ c.fieldTable.take k, (r.set ent.name cs).get e.name = r.get e.name :=
    fun e he => get_set_other (name_ne_of_namesDistinct hn hk (.inl he)) r cs
  refine ⟨h.headers, fun hm => ?_, h.footer, fun hn e he => ?_, fun hn e he => ?_, fun hn hm => ?_⟩
  · have hb := h.bytes hm
    have hhead : headBytes c (r.set ent.name cs) = headBytes c r := rfl
    simp only [hsplit, presentLen_append, presentLen, set_header, set_header2, hp, if_true, List.length_append, hl, hb,
      hhead]
    omega
  · rw [hsplit, List.mem_append, List.mem_singleton] at he
    rcases he with he | rfl
    · rw [fieldMatches_congr (set_header r _ cs) (set_header2 r _ cs) (hbefore hn e he)]
      exact h.before hn e he
    · exact fieldMatches_of_get_some hp (get_set_same r _ cs) hcl
  · rw [get_set_other (name_ne_of_namesDistinct hn hk (.inr he))]
    refine h.after hn e (List.mem_of_mem_drop (i := 1) ?_)
    rwa [List.drop_drop]
  · obtain ⟨ws, hws, hread⟩ := Option.map_eq_some_iff.mp (h.wire hn hm)
    have hold : fieldsOnWire c (r.set ent.name cs) (c.fieldTable.take k) = some ws :=
      (fieldsOnWire_congr (set_header r _ cs) (set_header2 r _ cs) (hbefore hn)).trans hws
    have hnew : fieldsOnWire c (r.set ent.name cs) [ent] = some bs := by
      rw [fieldsOnWire_cons_present (r := r.set ent.name cs) [] hp (get_set_same r _ cs) (uncanon_of_canon hc)]
      simp [fieldsOnWire]
    rw [hsplit, fieldsOnWire_append c _ _ _ hold hnew, Option.map_some, ← List.append_assoc, ← hread]
    rfl

/-- Before the first entry nothing has been extracted but the headers. -/
theorem recordReached_of_no_entry {c : Inputs} {e : Elem} (he : entriesBefore c e = 0) (r : Record) :
    recordReached c e r = true ↔ r.footer = none ∧ ∀ f ∈ c.fieldTable, r.get f.name = none := by
  simp [recordReached_iff, he]

theorem entriesAccounted_zero {c : Inputs} {r : Record} {read : List Byte} (hh : header2Absent c r = true)
    (hf : namesDistinct c = true → r.footer = none ∧ ∀ f ∈ c.fieldTable, r.get f.name = none)
    (hlen : c.readMode = .transactional → read.length = (headBytes c r).length)
    (hread : namesDistinct c = true → c.readMode = .transactional → read = headBytes c r) :
    EntriesAccounted c r read 0 where
  headers := hh
  bytes hm := hlen hm
  footer hn := (hf hn).1
  before _ := nofun
  after hn := (hf hn).2
  wire hn hm := by simp [fieldsOnWire, hread hn hm]

theorem nextElem_hdr1_present {c : Inputs} {r : Record} (h : hdr2Present c r.header = true) :
    nextElem c r .hdr1 = .hdr2 := if_pos h

theorem nextElem_hdr1_absent {c : Inputs} {r : Record} (h : ¬ hdr2Present c r.header = true) :
    nextElem c r .hdr1 = firstField c r 0 := if_neg h

/-- The accounting goes from an element that is extracted to the next one (R122, R123, R142, R143). -/
theorem elemAccounted_next {c : Inputs} (hw : c.wf = true) {r r' : Record} {read bs : List Byte} {e : Elem} {n : Nat}
    (h : ElemAccounted c r read e) (hl : elemLen c e = some n) (hbs : bs.length = n)
    (hp : ∀ k, e = .fld k → ∃ ent, c.fieldTable[k]? = some ent ∧ entryPresent r.header r.header2 ent = true)
    (ha : applyElem c e bs r = some r') (he : e ≠ .footer) :
    ElemAccounted c r' (read ++ bs) (nextElem c r' e) := by
  cases e with
  | hdr1 =>
    obtain rfl : n = 2 := (Option.some.inj hl).symm
    obtain rfl : { r with header := headerValue bs } = r' := Option.some.inj ha
    obtain ⟨-, h2⟩ := h.headers
    have hread (hm : c.readMode = .transactional) : read = [] := List.length_eq_zero_iff.mp (h.bytes hm)
    have hf := fun hn => (recordReached_of_no_entry (e := .hdr1) rfl r).mp (h.fields hn)
    by_cases h2p : hdr2Present c (headerValue bs) = true
    · rw [nextElem_hdr1_present h2p]
      refine ⟨h2p, fun hm => ?_, fun hn => (recordReached_of_no_entry rfl _).mpr (hf hn), fun _ hm => ?_⟩
      · simp [hread hm, hbs, bytesBefore]
      · simp [hread hm, wireBefore, wireBytes_headerValue hbs]
    · rw [nextElem_hdr1_absent h2p]
      have hhead : headBytes c { r with header := headerValue bs } = bs := by
        simp [headBytes, h2p, wireBytes_headerValue hbs]
      exact elemAccounted_firstField (entriesAccounted_zero ((header2Absent_iff _ _).mpr (.inr h2)) hf
        (fun hm => by rw [hhead, hread hm, List.nil_append])
        (fun _ hm => by rw [hhead, hread hm, List.nil_append])) (Nat.zero_le _)
  | hdr2 =>
    obtain rfl : n = 2 := (Option.some.inj hl).symm
    obtain rfl : { r with header2 := headerValue bs } = r' := Option.some.inj ha
    have h2p : hdr2Present c r.header = true := h.headers
    have hf := fun hn => (recordReached_of_no_entry (e := .hdr2) rfl r).mp (h.fields hn)
    have hhead : headBytes c { r with header2 := headerValue bs } = wireBytes r.header ++ bs := by
      simp [headBytes, h2p, wireBytes_headerValue hbs]
    refine elemAccounted_firstField (entriesAccounted_zero ((header2Absent_iff _ _).mpr (.inl h2p)) hf
      (fun hm => ?_) (fun hn hm => ?_)) (Nat.zero_le _)
    · rw [hhead, List.length_append, List.length_append, wireBytes_length, h.bytes hm, bytesBefore]
    · rw [hhead, Option.some.inj (h.wire hn hm)]
  | fld k =>
    obtain ⟨ent, hk, hpres⟩ := hp k rfl
    obtain rfl : ent.len = n := by simpa [elemLen, hk] using hl
    obtain ⟨cs, hc, rfl⟩ := Option.map_eq_some_iff.mp (by simpa [applyElem, hk] using ha)
    exact elemAccounted_firstField (entriesAccounted_set hw (elemAccounted_fld_iff.mp h) hk hpres hbs hc)
      (lt_length_of_elemLen hl)
  | footer => exact absurd rfl he

/-! ## The accounting of a complete record -/

theorem presentLen_by_header (h1 h2 : Half) : ∀ {l : List Entry}, (∀ e ∈ l, e.hdr = 1 ∨ e.hdr = 2) →
    presentLen h1 h2 l
      = presentLen h1 h2 (l.filter fun e => e.hdr == 1) + presentLen h1 h2 (l.filter fun e => e.hdr == 2)
  | [], _ => rfl
  | e :: l, h => by
    have ih := presentLen_by_header h1 h2 fun f hf => h f (List.mem_cons_of_mem e hf)
    rcases h e List.mem_cons_self with he | he
    · simp [presentLen, he, ih, Nat.add_assoc]
    · simp [presentLen, he, ih, Nat.add_left_comm]

/-- The record's length is that of its headers, its present fields and its footer (R81), as no field of header 2 is present
where it is not announced. -/
theorem recordLen_eq {c : Inputs} (hw : c.wf = true) {r : Record} (hh : header2Absent c r = true) :
    recordLen c r.header r.header2 = (headBytes c r).length + presentLen r.header r.header2 c.fieldTable + 2 := by
  have hhdrs := (hdrsOk_iff c).mp ((inputs_wf_iff_checks c).mp hw).1
  rw [presentLen_by_header _ _ hhdrs, headBytes_length, recordLen]
  rcases (header2Absent_iff c r).mp hh with h2p | h0
  · simp only [h2p, if_true, headerLen, footerLen]
    omega
  · have habs : presentLen r.header r.header2 (c.fieldTable.filter fun e => e.hdr == 2) = 0 :=
      presentLen_of_absent fun e he => by
        have : e.hdr = 2 := by simpa using (List.mem_filter.mp he).2
        simp [entryPresent, this, h0]
    rw [habs, ite_self]
    simp only [headerLen, footerLen]
    omega

theorem recordOnWire_of_fieldsOnWire {c : Inputs} {r : Record} {ws : List Byte} {f : Half}
    (hws : fieldsOnWire c r c.fieldTable = some ws) (hf : r.footer = some f) :
    recordOnWire c r = some (headBytes c r ++ ws ++ wireBytes f) := by
  simp [recordOnWire, hws, hf, headBytes]

theorem recordComplete_iff (c : Inputs) (r : Record) : recordComplete c r = true ↔
    r.footer.isSome = true ∧ (∀ e ∈ c.fieldTable, fieldMatches r e = true) ∧ header2Absent c r = true := by
  simp [recordComplete, and_assoc]

/-- The extraction of the footer completes the record (R210, R216). -/
theorem recordAccounted_footer {c : Inputs} (hw : c.wf = true) {r : Record} {read bs : List Byte}
    (h : ElemAccounted c r read .footer) (hbs : bs.length = 2) :
    RecordAccounted c { r with footer := some (headerValue bs) } (read ++ bs) := by
  obtain ⟨hh, hb, -, hbef, -, hwire⟩ := elemAccounted_footer_iff.mp h
  rw [List.take_length] at hb hbef hwire
  refine ⟨fun hm => ?_, fun hn => (recordComplete_iff _ _).mpr ⟨rfl, hbef hn, hh⟩, fun hn hm => ?_⟩
  · rw [List.length_append, hbs, hb hm]
    exact (recordLen_eq hw hh).symm
  · obtain ⟨ws, hws, hread⟩ := Option.map_eq_some_iff.mp (hwire hn hm)
    have hws' : fieldsOnWire c { r with footer := some (headerValue bs) } c.fieldTable = some ws :=
      (fieldsOnWire_footer c r _ _).trans hws
    rw [recordOnWire_of_fieldsOnWire hws' rfl, wireBytes_headerValue hbs, ← hread]
    rfl

/-! ## Every step keeps the accounting -/

/-- In Destructive mode the accounting speaks of no bytes read. -/
theorem elemAccounted_congr_read {c : Inputs} {r : Record} {read read' : List Byte} {e : Elem}
    (h : ElemAccounted c r read e) (hread : c.readMode = .transactional → read' = read) : ElemAccounted c r read' e :=
  ⟨h.headers, fun hm => hread hm ▸ h.bytes hm, h.fields, fun hn hm => hread hm ▸ h.wire hn hm⟩

theorem recordAccounted_congr_read {c : Inputs} {r : Record} {read read' : List Byte}
    (h : RecordAccounted c r read) (hread : c.readMode = .transactional → read' = read) : RecordAccounted c r read' :=
  ⟨fun hm => hread hm ▸ h.bytes hm, h.fields, fun hn hm => hread hm ▸ h.wire hn hm⟩

theorem attemptAccounted_of_idle {s : State} (hp : s.phase = .idle) : AttemptAccounted s :=
  ⟨fun e b h => by simp [hp] at h, fun st h => by simp [hp] at h⟩

theorem attemptAccounted_of_start {s : State} (hp : s.phase = .start) : AttemptAccounted s :=
  ⟨fun e b h => by simp [hp] at h, fun st h => by simp [hp] at h⟩

theorem attemptAccounted_of_need {s : State} {e : Elem} {b : Bool} (hp : s.phase = .need e b)
    (h : ElemAccounted s.inputs s.record (s.q.take s.cur) e) : AttemptAccounted s :=
  ⟨fun e' b' h' => by rw [hp] at h'; cases h'; exact h, fun st h' => by simp [hp] at h'⟩

theorem attemptAccounted_of_finish {s : State} {st : Status} (hp : s.phase = .finish st)
    (h : publishes st = true → RecordAccounted s.inputs s.record (s.q.take s.cur)) : AttemptAccounted s :=
  ⟨fun e b h' => by simp [hp] at h', fun st' h' => by rw [hp] at h'; cases h'; exact h⟩

/-- An early return publishes nothing (R236). -/
theorem attemptAccounted_raiseStatus {s : State} {st : Status} (h : publishes st = false) :
    AttemptAccounted (raiseStatus st s) :=
  attemptAccounted_of_finish rfl fun hst => absurd (h.symm.trans hst) nofun

/-- The start clears the record, and no byte has been read (R121). -/
theorem attemptAccounted_startAttempt {s : State} (hc : s.cur = 0) : AttemptAccounted (startAttempt s) := by
  unfold startAttempt
  split
  · refine attemptAccounted_of_need rfl ⟨⟨rfl, rfl⟩, fun _ => by simp [hc, bytesBefore], fun _ => ?_, fun _ _ => ?_⟩
    · exact (recordReached_of_no_entry rfl _).mpr ⟨rfl, fun f _ => get_empty f.name⟩
    · simp [hc, wireBefore]
  · exact attemptAccounted_raiseStatus rfl

theorem cur_of_idle {s : State} (h : StateInv s = true) (hp : s.phase = .idle) : s.cur = 0 := by
  obtain ⟨-, h0, -⟩ := (stateInv_iff s).mp h
  simpa [restsAtZero, hp] using h0

theorem cur_of_start {s : State} (h : StateInv s = true) (hp : s.phase = .start) : s.cur = 0 := by
  obtain ⟨-, h0, -⟩ := (stateInv_iff s).mp h
  simpa [restsAtZero, hp] using h0

/-- READ in Transactional mode moves the bytes it returns to those read (R55). -/
theorem read_extracted {s : State} {n : Nat} (hm : s.inputs.readMode = .transactional) (e : Elem) (r : Record) :
    (extracted e n r s).q.take (extracted e n r s).cur = s.q.take s.cur ++ nextBytes n s := by
  have hread : nextBytes n s = (s.q.drop s.cur).take n := by simp [nextBytes, hm]
  rw [hread, ← List.take_add]
  simp [extracted, takeBytes, hm]

theorem attemptAccounted_extracted {s : State} {e : Elem} {b : Bool} {n : Nat} {r : Record} (hw : s.inputs.wf = true)
    (hi : StateInv s = true) (h : AttemptAccounted s) (hp : s.phase = .need e b) (hl : elemLen s.inputs e = some n)
    (hr : n ≤ s.readable) (ha : applyElem s.inputs e (nextBytes n s) s.record = some r) :
    AttemptAccounted (extracted e n r s) := by
  obtain ⟨-, -, -, hpres, -, -⟩ := (stateInv_iff s).mp hi
  have hin : (extracted e n r s).inputs = s.inputs := by simp [extracted]
  have he := h.elem e b hp
  by_cases hf : e = .footer
  · subst hf
    obtain rfl : n = 2 := (Option.some.inj hl).symm
    have hr' : { s.record with footer := some (headerValue (nextBytes 2 s)) } = r := Option.some.inj ha
    refine attemptAccounted_of_finish (st := completionStatus (s.rem - BitVec.ofNat 16 2)) rfl fun _ => ?_
    have hrec := recordAccounted_footer hw he (nextBytes_length hr)
    rw [hr'] at hrec
    rw [hin]
    exact recordAccounted_congr_read hrec fun hm => read_extracted hm .footer r
  · have hp' : (extracted e n r s).phase = .need (nextElem s.inputs r e) false := phaseAfter_need hf
    have hnext := elemAccounted_next hw he hl (nextBytes_length hr) ((namesPresent_of_need hp).mp hpres) ha hf
    refine attemptAccounted_of_need hp' ?_
    rw [hin]
    exact elemAccounted_congr_read hnext fun hm => read_extracted hm e r

theorem attemptAccounted_elementStep {s t : State} {e : Elem} {b : Bool} (hw : s.inputs.wf = true)
    (hpe : portErrorsOk s.portErrors = true) (hi : StateInv s = true) (h : AttemptAccounted s) (hp : s.phase = .need e b)
    (ht : elementStep e b s = .next t) : AttemptAccounted t := by
  obtain ⟨n, hl, ⟨-, -, rfl⟩ | ⟨-, -, -, rfl⟩ | ⟨-, -, ho, rfl⟩ | ⟨-, ho, rfl⟩ | ⟨-, -, hr, r, ha, rfl⟩⟩ :=
    elementStep_next ht
  · exact attemptAccounted_raiseStatus rfl
  · exact attemptAccounted_of_need rfl (h.elem e b hp)
  · exact attemptAccounted_raiseStatus (publishes_portStatus hpe ho)
  · exact attemptAccounted_raiseStatus (publishes_portStatus hpe ho)
  · exact attemptAccounted_extracted hw hi h hp hl hr ha

theorem attemptAccounted_decoderTurn {s t : State} (hw : s.inputs.wf = true) (hpe : portErrorsOk s.portErrors = true)
    (hi : StateInv s = true) (h : AttemptAccounted s) (ht : decoderTurn s = .next t) : AttemptAccounted t := by
  obtain ⟨-, rfl⟩ | ⟨hp, rfl⟩ | ⟨st, -, rfl⟩ | ⟨e, b, hp, he⟩ := decoderTurn_next ht
  · exact h
  · exact attemptAccounted_startAttempt (cur_of_start hi hp)
  · exact attemptAccounted_of_idle (finishAttempt_phase s st)
  · exact attemptAccounted_elementStep hw hpe hi h hp he

/-- The accounting does not read the schedule. -/
theorem attemptAccounted_schedule {s : State} (h : AttemptAccounted s) (sch : List Move) :
    AttemptAccounted { s with schedule := sch } := ⟨h.elem, h.finish⟩

/-- Bytes that are appended stand behind those that were read (R57). -/
theorem attemptAccounted_append {s : State} (hf : fifoWf s = true) (bs : List Byte) (h : AttemptAccounted s) :
    AttemptAccounted { s with q := s.q ++ bs } := by
  have hread : (s.q ++ bs).take s.cur = s.q.take s.cur := List.take_append_of_le_length ((fifoWf_iff s).mp hf).1
  exact ⟨fun e b hp => hread ▸ h.elem e b hp, fun st hp hst => hread ▸ h.finish st hp hst⟩

theorem attemptAccounted_step {s t : State} (hi : StateInv s = true) (h : AttemptAccounted s) (ht : step s = .next t) :
    AttemptAccounted t := by
  have hs := attemptAccounted_schedule h
  obtain ⟨hw, hpe, -⟩ := step_next ht
  obtain ⟨sch, hd⟩ | ⟨b, bs, rest, -, rfl⟩ | ⟨rest, -, rfl⟩ | ⟨c, rest, -, rfl | ⟨hp, -⟩, rfl⟩ | ⟨c, rest, -, rfl⟩ :=
    step_cases ht
  · exact attemptAccounted_decoderTurn (s := { s with schedule := sch }) hw hpe hi (hs sch) hd
  · exact attemptAccounted_append (s := { s with schedule := rest }) ((stateInv_iff s).mp hi).1 _ (hs rest)
  · exact attemptAccounted_of_start rfl
  · exact hs rest
  · exact attemptAccounted_of_idle hp
  · exact attemptAccounted_of_idle rfl

/-- A record reaches the response from a Finish step that publishes it (R214, R215). -/
theorem responseAccounted_decoderTurn {s t : State} (h : AttemptAccounted s) (hr : ResponseAccounted s)
    (ht : decoderTurn s = .next t) : ResponseAccounted t := by
  obtain ⟨-, rfl⟩ | ⟨-, rfl⟩ | ⟨st, hp, rfl⟩ | ⟨e, b, -, he⟩ := decoderTurn_next ht
  · exact hr
  · simpa [ResponseAccounted] using hr
  · intro hn resp r hresp hrec
    rw [finishAttempt_inputs] at hn ⊢
    rw [finishAttempt_response] at hresp
    cases hresp
    by_cases hst : publishes st = true
    · obtain rfl : s.record = r := by simpa [hst] using hrec
      exact (h.finish st hp hst).fields hn
    · simp [hst] at hrec
  · obtain ⟨n, -, ⟨-, -, rfl⟩ | ⟨-, -, -, rfl⟩ | ⟨-, -, -, rfl⟩ | ⟨-, -, rfl⟩ | ⟨-, -, -, r, -, rfl⟩⟩ :=
      elementStep_next he
    all_goals simpa [ResponseAccounted] using hr

/-- No response is accounted for. -/
theorem responseAccounted_of_none {s : State} (h : s.response = none) : ResponseAccounted s := fun _ resp r hr => by
  simp [h] at hr

theorem responseAccounted_step {s t : State} (h : AttemptAccounted s) (hr : ResponseAccounted s) (ht : step s = .next t) :
    ResponseAccounted t := by
  obtain ⟨sch, hd⟩ | ⟨b, bs, rest, -, rfl⟩ | ⟨rest, -, rfl⟩ | ⟨c, rest, -, rfl | ⟨-, hc⟩, rfl⟩ | ⟨c, rest, -, rfl⟩ :=
    step_cases ht
  · exact responseAccounted_decoderTurn (attemptAccounted_schedule h sch) hr hd
  · exact hr
  · exact responseAccounted_of_none rfl
  · exact hr
  · rw [← hc]
    exact hr
  · exact responseAccounted_of_none rfl

/-- Settles O54: the accounting is that of the attempt and that of the response, and every step keeps both. -/
theorem stepKeepsAccounting : Obligations.StepKeepsAccounting := by
  intro s t hi h ht
  have hi' := stepKeepsInvariant s t hi ht
  obtain ⟨hatt, hresp⟩ := (accounted_iff ((stateInv_iff s).mp hi).1).mp h
  exact (accounted_iff ((stateInv_iff t).mp hi').1).mpr
    ⟨attemptAccounted_step hi hatt ht, responseAccounted_step hatt hresp ht⟩

end Sys2Proof.Machine

/-! SUPPORT. The memory family, third part: no record begins with another one (R80, R81), what a step does to the stream of
bytes in the FIFO and to come, and the runs that follow from it (R71, R171, R264). -/

namespace Sys2Proof.Machine

open Expect

/-! ## A complete record is read from its wire bytes in one way -/

section Records

variable {c : Inputs} (hw : c.wf = true)
include hw

/-- The present fields of a complete record have wire bytes, as many as the headers say. -/
theorem fieldsOnWire_length {r : Record} : ∀ {l : List Entry}, (∀ e ∈ l, e ∈ c.fieldTable) →
    (∀ e ∈ l, fieldMatches r e = true) →
    ∃ ws, fieldsOnWire c r l = some ws ∧ ws.length = presentLen r.header r.header2 l
  | [], _, _ => ⟨[], rfl, rfl⟩
  | e :: l, hmem, hm => by
    obtain ⟨ws, hws, hlen⟩ := fieldsOnWire_length (fun f hf => hmem f (List.mem_cons_of_mem e hf))
      (fun f hf => hm f (List.mem_cons_of_mem e hf))
    cases hp : entryPresent r.header r.header2 e with
    | false => exact ⟨ws, by rw [fieldsOnWire_cons_absent l hp, hws], by simp [presentLen, hp, hlen]⟩
    | true =>
      obtain ⟨bs, hg, hbl⟩ := fieldMatches_of_present (hm e List.mem_cons_self) hp
      obtain ⟨w, hu, hwl, -⟩ := uncanon_spec hw (hmem e List.mem_cons_self) hbl
      exact ⟨w ++ ws, by rw [fieldsOnWire_cons_present l hp hg hu, hws, Option.map_some],
        by simp [presentLen, hp, hlen, hwl]⟩

/-- Records with the same headers and the same field bytes on the wire have the same fields (R191). -/
theorem get_eq_of_fieldsOnWire {r r' : Record} (h1 : r.header = r'.header) (h2 : r.header2 = r'.header2) :
    ∀ {l : List Entry}, (∀ e ∈ l, e ∈ c.fieldTable) → (∀ e ∈ l, fieldMatches r e = true) →
      (∀ e ∈ l, fieldMatches r' e = true) → fieldsOnWire c r l = fieldsOnWire c r' l →
      ∀ e ∈ l, r.get e.name = r'.get e.name
  | [], _, _, _, _ => nofun
  | e :: l, hmem, hm, hm', heq => by
    have htail {f : Entry} (hf : f ∈ l) : f ∈ e :: l := List.mem_cons_of_mem e hf
    have he := hmem e List.mem_cons_self
    have ih := get_eq_of_fieldsOnWire h1 h2 (fun f hf => hmem f (htail hf)) (fun f hf => hm f (htail hf))
      (fun f hf => hm' f (htail hf))
    cases hp : entryPresent r.header r.header2 e with
    | false =>
      have hp' : entryPresent r'.header r'.header2 e = false := by rw [← h1, ← h2, hp]
      rw [fieldsOnWire_cons_absent l hp, fieldsOnWire_cons_absent l hp'] at heq
      refine List.forall_mem_cons.mpr ⟨?_, ih heq⟩
      rw [get_eq_none_of_absent (hm e List.mem_cons_self) hp, get_eq_none_of_absent (hm' e List.mem_cons_self) hp']
    | true =>
      have hp' : entryPresent r'.header r'.header2 e = true := by rw [← h1, ← h2, hp]
      obtain ⟨bs, hg, hl⟩ := fieldMatches_of_present (hm e List.mem_cons_self) hp
      obtain ⟨bs', hg', hl'⟩ := fieldMatches_of_present (hm' e List.mem_cons_self) hp'
      obtain ⟨w, hu, hwl, hc⟩ := uncanon_spec hw he hl
      obtain ⟨w', hu', hwl', hc'⟩ := uncanon_spec hw he hl'
      obtain ⟨ws, hws, -⟩ := fieldsOnWire_length hw (fun f hf => hmem f (htail hf)) (fun f hf => hm f (htail hf))
      obtain ⟨ws', hws', -⟩ := fieldsOnWire_length hw (fun f hf => hmem f (htail hf)) (fun f hf => hm' f (htail hf))
      rw [fieldsOnWire_cons_present l hp hg hu, fieldsOnWire_cons_present l hp' hg' hu', hws, hws'] at heq
      obtain ⟨rfl, rfl⟩ := List.append_inj (Option.some.inj heq) (hwl.trans hwl'.symm)
      refine List.forall_mem_cons.mpr ⟨?_, ih (hws.trans hws'.symm)⟩
      rw [hg, hg', ← hc, hc']

end Records

/-- The first two bytes give the primary header back. -/
theorem header_eq_of_wireBytes {h h' : Half} {x x' : List Byte} (heq : wireBytes h ++ x = wireBytes h' ++ x') : h = h' := by
  rw [← headerValue_wireBytes h x, heq, headerValue_wireBytes]

/-- Bytes that begin with a record's headers tell both: the primary one says whether a secondary one is there (R80). -/
theorem headers_eq_of_headBytes {c : Inputs} {r r' : Record} (hr : header2Absent c r = true)
    (hr' : header2Absent c r' = true) {x x' : List Byte} (heq : headBytes c r ++ x = headBytes c r' ++ x') :
    r.header = r'.header ∧ r.header2 = r'.header2 := by
  simp only [headBytes, List.append_assoc] at heq
  have h1 : r.header = r'.header := header_eq_of_wireBytes heq
  refine ⟨h1, ?_⟩
  rw [header2Absent_iff] at hr hr'
  rw [h1] at hr heq
  by_cases h2p : hdr2Present c r'.header = true
  · simp only [h2p, if_true] at heq
    exact header_eq_of_wireBytes (List.append_cancel_left heq)
  · rw [hr.resolve_left h2p, hr'.resolve_left h2p]

/-- A complete record on the wire: its headers, its fields, its footer (R80). -/
theorem recordOnWire_some {c : Inputs} {r : Record} {w : List Byte} (h : recordOnWire c r = some w) :
    ∃ ws f, fieldsOnWire c r c.fieldTable = some ws ∧ r.footer = some f ∧ w = headBytes c r ++ ws ++ wireBytes f := by
  cases hws : fieldsOnWire c r c.fieldTable with
  | none => simp [recordOnWire, hws] at h
  | some ws =>
    cases hf : r.footer with
    | none => simp [recordOnWire, hws, hf] at h
    | some f => exact ⟨ws, f, rfl, rfl, Option.some.inj (h.symm.trans (recordOnWire_of_fieldsOnWire hws hf))⟩

theorem recordOnWire_length {c : Inputs} (hw : c.wf = true) {r : Record} {w : List Byte}
    (hr : recordComplete c r = true) (h : recordOnWire c r = some w) :
    w.length = (headBytes c r).length + presentLen r.header r.header2 c.fieldTable + 2 := by
  obtain ⟨-, hm, -⟩ := (recordComplete_iff c r).mp hr
  obtain ⟨ws, f, hws, -, rfl⟩ := recordOnWire_some h
  obtain ⟨ws', hws', hlen⟩ := fieldsOnWire_length hw (fun e he => he) hm
  obtain rfl : ws = ws' := Option.some.inj (hws.symm.trans hws')
  rw [List.length_append, List.length_append, hlen, wireBytes_length]

/-- Two complete records at the head of the same bytes have the same headers. -/
theorem headers_eq_of_recordOnWire {c : Inputs} {r r' : Record} {w w' x x' : List Byte}
    (hr : recordComplete c r = true) (h : recordOnWire c r = some w) (hr' : recordComplete c r' = true)
    (h' : recordOnWire c r' = some w') (heq : w ++ x = w' ++ x') : r.header = r'.header ∧ r.header2 = r'.header2 := by
  obtain ⟨-, -, hh⟩ := (recordComplete_iff c r).mp hr
  obtain ⟨-, -, hh'⟩ := (recordComplete_iff c r').mp hr'
  obtain ⟨ws, f, -, -, rfl⟩ := recordOnWire_some h
  obtain ⟨ws', f', -, -, rfl⟩ := recordOnWire_some h'
  simp only [List.append_assoc] at heq
  exact headers_eq_of_headBytes hh hh' heq

/-- No record's bytes begin with another's: bytes begin with at most one record (R80, R81). -/
theorem recordOnWire_eq_of_append_eq {c : Inputs} (hw : c.wf = true) {r r' : Record} {w w' x x' : List Byte}
    (hr : recordComplete c r = true) (h : recordOnWire c r = some w) (hr' : recordComplete c r' = true)
    (h' : recordOnWire c r' = some w') (heq : w ++ x = w' ++ x') : w = w' := by
  obtain ⟨h1, h2⟩ := headers_eq_of_recordOnWire hr h hr' h' heq
  refine (List.append_inj heq ?_).1
  rw [recordOnWire_length hw hr h, recordOnWire_length hw hr' h', headBytes_length, headBytes_length, h1, h2]

theorem isRecord_eq_of_append_eq {c : Inputs} (hw : c.wf = true) {w w' x x' : List Byte} (h : IsRecord c w)
    (h' : IsRecord c w') (heq : w ++ x = w' ++ x') : w = w' := by
  obtain ⟨r, hr, h⟩ := h
  obtain ⟨r', hr', h'⟩ := h'
  exact recordOnWire_eq_of_append_eq hw hr h hr' h' heq

/-! ### The one form of a record -/

theorem fldGet_eq_none {n : FieldName} : ∀ {l : List FieldVal}, (∀ v ∈ l, v.name ≠ n) → fldGet n l = none
  | [], _ => rfl
  | v :: l, h => by
    rw [fldGet, if_neg (h v List.mem_cons_self)]
    exact fldGet_eq_none fun w hw => h w (List.mem_cons_of_mem v hw)

theorem fldSorted_cons {v : FieldVal} {l : List FieldVal} :
    fldSorted (v :: l) = true ↔ (∀ w ∈ l, nameCode v.name < nameCode w.name) ∧ fldSorted l = true := by
  simp [fldSorted]

theorem fldGet_cons_self (v : FieldVal) (l : List FieldVal) : fldGet v.name (v :: l) = some v.bytes := if_pos rfl

/-- A list in the one form holds nothing for a name of a smaller code than its first one. -/
theorem fldGet_eq_none_of_lt {n : FieldName} {v : FieldVal} {l : List FieldVal} (hs : fldSorted (v :: l) = true)
    (h : nameCode n < nameCode v.name) : fldGet n (v :: l) = none := by
  refine fldGet_eq_none fun w hw hwn => ?_
  subst hwn
  rcases List.mem_cons.mp hw with rfl | hw
  · omega
  · have := (fldSorted_cons.mp hs).1 w hw
    omega

/-- A list in the one form is told by what it holds for each name (R35). -/
theorem fld_eq_of_fldGet : ∀ {l l' : List FieldVal}, fldSorted l = true → fldSorted l' = true →
    (∀ n, fldGet n l = fldGet n l') → l = l'
  | [], [], _, _, _ => rfl
  | [], v' :: l', _, _, hg => by simpa [fldGet] using hg v'.name
  | v :: l, [], _, _, hg => by simpa [fldGet] using hg v.name
  | v :: l, v' :: l', hs, hs', hg => by
    have hname : v.name = v'.name := by
      refine nameCode_injective (Nat.le_antisymm (not_lt.mp fun hlt => ?_) (not_lt.mp fun hlt => ?_))
      · simpa [fldGet_eq_none_of_lt hs hlt, fldGet_cons_self] using hg v'.name
      · simpa [fldGet_eq_none_of_lt hs' hlt, fldGet_cons_self] using hg v.name
    have hbytes : v.bytes = v'.bytes := by
      have := hg v.name
      rw [fldGet_cons_self, hname, fldGet_cons_self] at this
      exact Option.some.inj this
    have hv : v = v' := by cases v; cases v'; congr
    subst hv
    refine congrArg (v :: ·) (fld_eq_of_fldGet (fldSorted_cons.mp hs).2 (fldSorted_cons.mp hs').2 fun n => ?_)
    by_cases hn : v.name = n
    · subst hn
      rw [fldGet_eq_none fun w hw => ?_, fldGet_eq_none fun w hw => ?_]
      · exact fun h => absurd ((fldSorted_cons.mp hs').1 w hw) (by simp [h])
      · exact fun h => absurd ((fldSorted_cons.mp hs).1 w hw) (by simp [h])
    · simpa [fldGet, hn] using hg n

theorem record_ext {r r' : Record} (h1 : r.header = r'.header) (h2 : r.header2 = r'.header2) (hl : r.fld = r'.fld)
    (hf : r.footer = r'.footer) : r = r' := by
  cases r
  cases r'
  congr

theorem get_eq_none_of_not_entry {c : Inputs} {r : Record} {n : FieldName}
    (hf : ∀ v ∈ r.fld, ∃ e ∈ c.fieldTable, e.name = v.name) (hn : ∀ e ∈ c.fieldTable, e.name ≠ n) : r.get n = none :=
  fldGet_eq_none fun v hv hvn => by
    obtain ⟨e, he, hev⟩ := hf v hv
    exact hn e he (hev.trans hvn)

/-- A complete record in its one form, with no field but those of the table, is told by its bytes. -/
theorem record_eq_of_recordAs {c : Inputs} (hw : c.wf = true) {r r' : Record} {w : List Byte} (h : RecordAs c r w)
    (h' : RecordAs c r' w) : r = r' := by
  obtain ⟨hr, hs, hf, hwire⟩ := h
  obtain ⟨hr', hs', hf', hwire'⟩ := h'
  obtain ⟨h1, h2⟩ := headers_eq_of_recordOnWire (x := []) hr hwire hr' hwire' rfl
  obtain ⟨-, hm, -⟩ := (recordComplete_iff c r).mp hr
  obtain ⟨-, hm', -⟩ := (recordComplete_iff c r').mp hr'
  obtain ⟨ws, f, hws, hfoot, rfl⟩ := recordOnWire_some hwire
  obtain ⟨ws', f', hws', hfoot', heq⟩ := recordOnWire_some hwire'
  have hhead : headBytes c r = headBytes c r' := by rw [headBytes, headBytes, h1, h2]
  rw [hhead, List.append_assoc, List.append_assoc] at heq
  obtain ⟨hfields, hfooter⟩ := List.append_inj' (List.append_cancel_left heq) rfl
  have hff : f = f' := header_eq_of_wireBytes (x := []) (x' := []) (by simpa using hfooter)
  have hget : r.fld = r'.fld := fld_eq_of_fldGet hs hs' fun n => by
    by_cases hn : ∃ e ∈ c.fieldTable, e.name = n
    · obtain ⟨e, he, rfl⟩ := hn
      exact get_eq_of_fieldsOnWire hw h1 h2 (fun _ he => he) hm hm' (by rw [hws, hws', hfields]) e he
    · push Not at hn
      exact (get_eq_none_of_not_entry hf hn).trans (get_eq_none_of_not_entry hf' hn).symm
  exact record_ext h1 h2 hget (by rw [hfoot, hfoot', hff])

/-! ## The stream: the bytes in the FIFO and those to come -/

/-- The bytes in the FIFO, and behind them those that the schedule is yet to append. -/
def stream (s : State) : List Byte := s.q ++ appended s.schedule

/-- A step uses up at most the first move of the schedule. -/
theorem step_schedule {s t : State} (h : step s = .next t) :
    t.schedule = s.schedule ∨ ∃ m, s.schedule = m :: t.schedule := by
  obtain ⟨-, -, ⟨-, h⟩ | ⟨rest, hs, h⟩ | ⟨b, bs, rest, hs, -, rfl⟩ | ⟨rest, hs, -, rfl⟩ | ⟨rest, -, -, h⟩ |
    ⟨c, rest, hs, -, rfl⟩ | ⟨c, rest, hs, rfl⟩⟩ := step_next h
  · exact .inl (decoderTurn_static h).1
  · exact .inr ⟨.decoder, by rw [(decoderTurn_static h).1, hs]⟩
  · exact .inr ⟨_, hs⟩
  · exact .inr ⟨_, hs⟩
  · exact .inl (decoderTurn_static h).1
  · exact .inr ⟨_, hs⟩
  · exact .inr ⟨_, hs⟩

theorem appended_cons (m : Move) (l : List Move) : ∃ a, appended (m :: l) = a ++ appended l := by
  cases m with
  | append b bs => exact ⟨b :: bs, rfl⟩
  | decoder | request | configure | reset => exact ⟨[], rfl⟩

/-- What is yet to be appended after a step is the end of what was before it. -/
theorem appended_step {s t : State} (h : step s = .next t) : ∃ a, appended s.schedule = a ++ appended t.schedule := by
  obtain hs | ⟨m, hs⟩ := step_schedule h
  · exact ⟨[], by rw [hs, List.nil_append]⟩
  · rw [hs]
    exact appended_cons m t.schedule

/-- What a step does to the stream and to the response, where it is no commit. -/
structure KeepsStream (s t : State) : Prop where
  stream : stream t = stream s
  response : t.response = s.response ∨ t.response = none ∨
    ∃ st, s.phase = .finish st ∧ publishes st = false ∧ t.response = some { status := st, record := none }

/-- What a commit does: the bytes read leave the stream, and the response carries the record. -/
structure Commits (s t : State) : Prop where
  stream : stream s = s.q.take s.cur ++ stream t
  response : ∃ st, s.phase = .finish st ∧ publishes st = true ∧
    t.response = some { status := st, record := some s.record }

theorem decoderTurn_stream {s t : State} (hm : s.inputs.readMode = .transactional) (h : decoderTurn s = .next t) :
    KeepsStream s t ∨ Commits s t := by
  have hsch := (decoderTurn_static h).1
  obtain ⟨-, rfl⟩ | ⟨-, rfl⟩ | ⟨st, hp, rfl⟩ | ⟨e, b, -, he⟩ := decoderTurn_next h
  · exact .inl ⟨rfl, .inl rfl⟩
  · exact .inl ⟨by simp [stream], .inl (startAttempt_response s)⟩
  · have hq := finishAttempt_q_transactional hm st
    by_cases hst : publishes st = true
    · refine .inr ⟨?_, st, hp, hst, by simp [hst]⟩
      rw [stream, stream, hsch, hq, if_pos hst, ← List.append_assoc, List.take_append_drop]
    · refine .inl ⟨?_, .inr (.inr ⟨st, hp, by simpa using hst, by simp [hst]⟩)⟩
      rw [stream, stream, hsch, hq, if_neg hst]
  · refine .inl ⟨by rw [stream, stream, hsch, elementStep_q hm he], .inl ?_⟩
    obtain ⟨n, -, ⟨-, -, rfl⟩ | ⟨-, -, -, rfl⟩ | ⟨-, -, -, rfl⟩ | ⟨-, -, rfl⟩ | ⟨-, -, -, r, -, rfl⟩⟩ :=
      elementStep_next he
    all_goals simp

/-- In Transactional mode a step keeps the stream, or is the commit of the bytes read (R65, R214). -/
theorem step_stream {s t : State} (hm : s.inputs.readMode = .transactional) (h : step s = .next t) :
    KeepsStream s t ∨ Commits s t := by
  obtain ⟨-, -, ⟨-, h⟩ | ⟨rest, hs, h⟩ | ⟨b, bs, rest, hs, -, rfl⟩ | ⟨rest, hs, -, rfl⟩ | ⟨rest, -, -, h⟩ |
    ⟨c, rest, hs, -, rfl⟩ | ⟨c, rest, hs, rfl⟩⟩ := step_next h
  · exact decoderTurn_stream hm h
  · have hsame : stream { s with schedule := rest } = stream s := by rw [stream, stream, hs]; rfl
    obtain hk | hc := decoderTurn_stream (s := { s with schedule := rest }) hm h
    · exact .inl ⟨hk.stream.trans hsame, hk.response⟩
    · exact .inr ⟨hsame.symm.trans hc.stream, hc.response⟩
  · exact .inl ⟨by rw [stream, stream, hs, List.append_assoc]; rfl, .inl rfl⟩
  · exact .inl ⟨by rw [stream, stream, hs]; rfl, .inr (.inl rfl)⟩
  · exact decoderTurn_stream hm h
  · exact .inl ⟨by rw [stream, stream, hs]; rfl, .inl rfl⟩
  · exact .inl ⟨by rw [stream, stream, hs]; rfl, .inr (.inl rfl)⟩

/-! ## Runs under one configuration -/

/-- A move that sets the inputs sets these. -/
def setsOnly (c : Inputs) : Move → Prop
  | .configure c' => c' = c
  | .reset c' => c' = c
  | _ => True

/-- The machine runs under the inputs `c`, and no move to come sets others. -/
structure Steady (c : Inputs) (s : State) : Prop where
  inputs : s.inputs = c
  moves : ∀ m ∈ s.schedule, setsOnly c m

theorem steady_step {c : Inputs} {s t : State} (h : Steady c s) (ht : step s = .next t) : Steady c t := by
  obtain ⟨-, -, hin⟩ := configurationIsStatic s t ht
  refine ⟨?_, fun m hm => h.moves m ?_⟩
  · obtain hin | ⟨c', rest, hs | hs, hin⟩ := hin
    · exact hin.trans h.inputs
    · exact hin.trans (h.moves (.configure c') (by simp [hs]))
    · exact hin.trans (h.moves (.reset c') (by simp [hs]))
  · obtain hs | ⟨m', hs⟩ := step_schedule ht
    · exact hs ▸ hm
    · exact hs ▸ List.mem_cons_of_mem m' hm

theorem setsOnly_of_staticConfig {c : Inputs} {l : List Move} (hs : staticConfig c l = true)
    (hr : ∀ c', Move.reset c' ∈ l → c' = c) : ∀ m ∈ l, setsOnly c m := by
  induction l with
  | nil => exact nofun
  | cons m l ih =>
    have ih := fun hs => ih hs fun c' h => hr c' (List.mem_cons_of_mem m h)
    rw [List.forall_mem_cons]
    cases m with
    | configure d =>
      simp only [staticConfig, Bool.and_eq_true, beq_iff_eq] at hs
      exact ⟨hs.1, ih hs.2⟩
    | reset d =>
      have hd := hr d List.mem_cons_self
      exact ⟨hd, ih (hd ▸ hs)⟩
    | decoder | append | request => exact ⟨trivial, ih hs⟩

theorem setsOnly_of_undisturbed {c : Inputs} {l : List Move} (hu : undisturbed c l = true) : ∀ m ∈ l, setsOnly c m := by
  induction l with
  | nil => exact nofun
  | cons m l ih =>
    rw [List.forall_mem_cons]
    cases m with
    | configure d =>
      simp only [undisturbed, Bool.and_eq_true, beq_iff_eq] at hu
      exact ⟨hu.1, ih hu.2⟩
    | reset d => simp [undisturbed] at hu
    | decoder | append | request => exact ⟨trivial, ih hu⟩

theorem noPortErrors_step {s t : State} (h : NoPortErrors s) (ht : step s = .next t) : NoPortErrors t := fun k u hu =>
  h (k + 1) u ((core_run_succ ht k).trans hu)

theorem portStatus_of_noPortErrors {s : State} (h : NoPortErrors s) : s.portStatus = .ok := h 0 s rfl

/-- With firmware and no port error an attempt finishes with a completion or with `FIFONoDataAvailable` (R232). -/
def FinishPlain (s : State) : Prop := ∀ st, s.phase = .finish st → publishes st = true ∨ st = .fifoNoDataAvailable

theorem finishPlain_decoderTurn {s t : State} (hfw : s.inputs.fwPresent = true) (ho : s.portStatus = .ok)
    (h : FinishPlain s) (ht : decoderTurn s = .next t) : FinishPlain t := by
  obtain ⟨-, rfl⟩ | ⟨-, rfl⟩ | ⟨st, -, rfl⟩ | ⟨e, b, -, he⟩ := decoderTurn_next ht
  · exact h
  · exact fun st hst => by simp [startAttempt, hfw] at hst
  · exact fun st hst => by simp at hst
  · obtain ⟨n, -, ⟨-, -, rfl⟩ | ⟨-, -, -, rfl⟩ | ⟨-, -, ho', -⟩ | ⟨-, ho', -⟩ | ⟨-, -, -, r, -, rfl⟩⟩ :=
      elementStep_next he
    · exact fun st hst => .inr (by cases hst; rfl)
    · exact nofun
    · exact absurd ho ho'
    · exact absurd ho ho'
    · cases e with
      | footer => exact fun st hst => .inl (by cases hst; exact publishes_completionStatus _)
      | hdr1 | hdr2 | fld => exact nofun

theorem finishPlain_step {s t : State} (hfw : s.inputs.fwPresent = true) (hn : NoPortErrors s) (h : FinishPlain s)
    (ht : step s = .next t) : FinishPlain t := by
  have ho := portStatus_of_noPortErrors hn
  obtain ⟨sch, hd⟩ | ⟨b, bs, rest, -, rfl⟩ | ⟨rest, -, rfl⟩ | ⟨c, rest, -, -, rfl⟩ | ⟨c, rest, -, rfl⟩ := step_cases ht
  · exact finishPlain_decoderTurn (s := { s with schedule := sch }) hfw ho h hd
  · exact h
  · exact nofun
  · exact h
  · exact nofun

/-- The invariant of a run with firmware and no port error. -/
structure PlainRun (c : Inputs) (s : State) : Prop where
  steady : Steady c s
  noErrors : NoPortErrors s
  finish : FinishPlain s

theorem plainRun_step {c : Inputs} (hfw : c.fwPresent = true) {s t : State} (h : PlainRun c s) (ht : step s = .next t) :
    PlainRun c t :=
  ⟨steady_step h.steady ht, noPortErrors_step h.noErrors ht,
    finishPlain_step (h.steady.inputs ▸ hfw) h.noErrors h.finish ht⟩

/-- A response with no record is `FIFONoDataAvailable`. -/
def ResponsePlain (s : State) : Prop :=
  ∀ resp, s.response = some resp → resp.record = none → resp.status = .fifoNoDataAvailable

theorem responsePlain_step {s t : State} (hm : s.inputs.readMode = .transactional) (hf : FinishPlain s)
    (h : ResponsePlain s) (ht : step s = .next t) : ResponsePlain t := by
  intro resp hresp hrec
  obtain ⟨-, hr | hr | ⟨st, hp, hst, hr⟩⟩ | ⟨-, st, -, -, hr⟩ := step_stream hm ht
  · exact h resp (hr.symm.trans hresp) hrec
  · exact absurd (hr.symm.trans hresp) nofun
  · cases hr.symm.trans hresp
    exact (hf st hp).resolve_left (Bool.eq_false_iff.mp hst)
  · cases hr.symm.trans hresp
    cases hrec

/-! ## Any sequence of attempts -/

/-- How far a run is in its stream: `n` records are gone, and a record that the response carries is the last of them. -/
def StreamAt (c : Inputs) (ws : List (List Byte)) (part : List Byte) (s : State) (n : Nat) : Prop :=
  n ≤ ws.length ∧ stream s = (ws.drop n).flatten ++ part ∧
    ∀ resp r, s.response = some resp → resp.record = some r →
      ∃ m w, n = m + 1 ∧ ws[m]? = some w ∧ recordOnWire c r = some w

/-- A record at the head of the stream is the stream's next one: the bytes of a part of a record hold none (R80). -/
theorem next_record {c : Inputs} (hw : c.wf = true) {ws : List (List Byte)} {part rest w x : List Byte} {n : Nat}
    (hws : ∀ w ∈ ws, IsRecord c w) (hpart : IsRecord c (part ++ rest)) (hrest : rest ≠ []) (hr : IsRecord c w)
    (heq : (ws.drop n).flatten ++ part = w ++ x) : ws[n]? = some w ∧ x = (ws.drop (n + 1)).flatten ++ part := by
  by_cases hn : n < ws.length
  · rw [List.drop_eq_getElem_cons hn, List.flatten_cons, List.append_assoc] at heq
    have hsame := isRecord_eq_of_append_eq hw (hws _ (List.getElem_mem hn)) hr heq
    rw [hsame] at heq
    exact ⟨by rw [List.getElem?_eq_getElem hn, hsame], (List.append_cancel_left heq).symm⟩
  · rw [List.drop_eq_nil_of_le (Nat.not_lt.mp hn), List.flatten_nil, List.nil_append] at heq
    have hsame : part ++ rest = w := isRecord_eq_of_append_eq hw (x := []) (x' := x ++ rest) hpart hr (by simp [heq])
    have hlen := congrArg List.length heq
    have hlen' := congrArg List.length hsame
    have := List.length_pos_iff.mpr hrest
    simp only [List.length_append] at hlen hlen'
    omega

/-- The invariant of a run that keeps to its stream. -/
structure OnStream (c : Inputs) (ws : List (List Byte)) (part : List Byte) (s : State) : Prop where
  steady : Steady c s
  inv : StateInv s = true
  attempt : AttemptAccounted s
  reached : ∃ n, StreamAt c ws part s n

theorem onStream_step {c : Inputs} (hm : c.readMode = .transactional) (hd : namesDistinct c = true)
    {ws : List (List Byte)} {part rest : List Byte} (hws : ∀ w ∈ ws, IsRecord c w) (hpart : IsRecord c (part ++ rest))
    (hrest : rest ≠ []) {s t : State} (h : OnStream c ws part s) (ht : step s = .next t) : OnStream c ws part t := by
  refine ⟨steady_step h.steady ht, stepKeepsInvariant s t h.inv ht, attemptAccounted_step h.inv h.attempt ht, ?_⟩
  obtain ⟨rfl, -⟩ := h.steady
  obtain ⟨hw, -⟩ := step_next ht
  obtain ⟨n, hn, hstream, hresp⟩ := h.reached
  obtain ⟨hs, hr⟩ | ⟨hs, st, hp, hst, hr⟩ := step_stream hm ht
  · refine ⟨n, hn, hs.trans hstream, fun resp r hresp' hrec => ?_⟩
    obtain hr | hr | ⟨st, -, -, hr⟩ := hr
    · exact hresp resp r (hr.symm.trans hresp') hrec
    · exact absurd (hr.symm.trans hresp') nofun
    · cases hr.symm.trans hresp'
      cases hrec
  · have hacc := h.attempt.finish st hp hst
    have hwire := hacc.wire hd hm
    obtain ⟨hnext, htail⟩ := next_record hw hws hpart hrest ⟨s.record, hacc.fields hd, hwire⟩ (hstream.symm.trans hs)
    refine ⟨n + 1, (List.getElem?_eq_some_iff.mp hnext).1, htail, fun resp r hresp' hrec => ?_⟩
    cases hr.symm.trans hresp'
    cases hrec
    exact ⟨n, _, rfl, hnext, hwire⟩

/-- Settles O60: the run keeps to its stream, and, where the port answers, to the plain statuses. -/
theorem alignedStreamDecoded : Obligations.AlignedStreamDecoded := by
  intro s ws part rest hl hi hnone hm hd hresets hws hpart hrest hstream k t ht
  have hsteady : Steady s.inputs s := ⟨rfl, setsOnly_of_staticConfig hl.static hresets⟩
  have hstart : OnStream s.inputs ws part s :=
    ⟨hsteady, hi, attemptAccounted_of_idle hl.idle, 0, Nat.zero_le _, hstream, fun resp r hr => by simp [hnone] at hr⟩
  have hrun := run_induction (M := core) (P := OnStream s.inputs ws part)
    (fun _ _ => onStream_step hm hd hws hpart hrest) k s t hstart ht
  obtain ⟨n, hn, hstream', hresp⟩ := hrun.reached
  refine ⟨n, hn, hstream', fun resp hr => ⟨fun r => hresp resp r hr, fun hrec hnp hfw => ?_⟩⟩
  have hplain : PlainRun s.inputs s ∧ ResponsePlain s :=
    ⟨⟨hsteady, hnp, fun st hst => by simp [hl.idle] at hst⟩, fun resp hr => by simp [hnone] at hr⟩
  have hrun' := run_induction (M := core) (P := fun u => PlainRun s.inputs u ∧ ResponsePlain u)
    (fun u v hu hv => ⟨plainRun_step hfw hu.1 hv, responsePlain_step (hu.1.steady.inputs ▸ hm) hu.1.finish hu.2 hv⟩)
    k s t hplain ht
  exact hrun'.2 resp hr hrec

end Sys2Proof.Machine

/-! SUPPORT. The memory family, fourth part: the run of one attempt from Start to Idle, and an attempt on a FIFO that holds a
part of a record (R232, R236). -/

namespace Sys2Proof.Machine

open Expect

/-! ## An attempt's run -/

/-- A property that each step of a running attempt keeps holds where the attempt ends. -/
theorem attempting_run {P : State → Prop} (hP : ∀ s t, Attempting s → P s → step s = .next t → P t) (m : Nat) :
    ∀ s, Attempting s → P s → stepsLeft s ≤ m → ∃ k t, k ≤ m ∧ core.run k s = .next t ∧ t.phase = .idle ∧ P t := by
  induction m with
  | zero =>
    intro s h _ hm
    obtain ⟨t, ht⟩ := step_defined_of_attempting h
    have := (attemptStep_of_step h ht).closer
    omega
  | succ m ih =>
    intro s h hs hm
    obtain ⟨t, ht⟩ := step_defined_of_attempting h
    have hst := attemptStep_of_step h ht
    by_cases hp : t.phase = .idle
    · exact ⟨1, t, by omega, core_run_succ ht 0, hp, hP s t h hs ht⟩
    · obtain ⟨k, u, hk, hrun, hu⟩ := ih t (attempting_of_step h ht hp) (hP s t h hs ht) (by have := hst.closer; omega)
      exact ⟨k + 1, u, by omega, (core_run_succ ht k).trans hrun, hu⟩

/-- From Start the attempt ends within the bound of R25. -/
theorem atStart_run {P : State → Prop} (hP : ∀ s t, Attempting s → P s → step s = .next t → P t) {s : State}
    (h : AtStart s) (hs : P s) :
    ∃ k t, k ≤ s.schedule.length + (2 * s.inputs.fieldTable.length + 8) ∧ core.run k s = .next t ∧ t.phase = .idle ∧
      P t := by
  have ⟨_, _, hp, _, _⟩ := h
  exact attempting_run hP _ s (attempting_of_atStart h) hs (by rw [stepsLeft, turnsLeft_of_start hp])

/-- A step of a running attempt: the decoder's turn, or a move that does no more than append bytes. -/
theorem attempting_step_cases {s t : State} (h : Attempting s) (ht : step s = .next t) :
    (∃ sch, appended sch = appended s.schedule ∧ decoderTurn { s with schedule := sch } = .next t) ∨
    ∃ sch bs, appended s.schedule = bs ++ appended sch ∧ t = { s with schedule := sch, q := s.q ++ bs } := by
  have hu := h.scheduleUndisturbed
  obtain ⟨-, -, ⟨hs, hd⟩ | ⟨rest, hs, hd⟩ | ⟨b, bs, rest, hs, -, rfl⟩ | ⟨rest, -, hp, -⟩ | ⟨rest, hs, -, hd⟩ |
    ⟨c, rest, hs, -, rfl⟩ | ⟨c, rest, hs, -⟩⟩ := step_next ht
  · exact .inl ⟨s.schedule, rfl, hd⟩
  · exact .inl ⟨rest, by rw [hs]; rfl, hd⟩
  · exact .inr ⟨rest, b :: bs, by rw [hs]; rfl, rfl⟩
  · exact absurd hp h.running
  · exact .inl ⟨s.schedule, rfl, hd⟩
  · have hc : c = s.inputs := setsOnly_of_undisturbed hu _ (by simp [hs] : Move.configure c ∈ s.schedule)
    exact .inr ⟨rest, [], by rw [hs]; rfl, by rw [hc, List.append_nil]⟩
  · rw [hs] at hu
    cases hu

/-- An attempt comes back to Idle by its Finish step. -/
theorem attempting_finishes {s t : State} (h : Attempting s) (ht : step s = .next t) (hp : t.phase = .idle) :
    ∃ st sch, s.phase = .finish st ∧ appended sch = appended s.schedule ∧
      t = finishAttempt st { s with schedule := sch } := by
  obtain ⟨sch, hsch, hd⟩ | ⟨sch, bs, -, rfl⟩ := attempting_step_cases h ht
  · obtain ⟨hi, -⟩ | ⟨-, rfl⟩ | ⟨st, hst, rfl⟩ | ⟨e, b, -, he⟩ := decoderTurn_next hd
    · exact absurd hi h.running
    · cases hf : s.inputs.fwPresent <;> simp [startAttempt, hf] at hp
    · exact ⟨st, sch, hst, hsch, rfl⟩
    · exact absurd hp (elementStep_phase_ne_idle he)
  · exact absurd hp h.running

/-- What every step of an attempt keeps, with firmware and no port error, `coming` being the bytes to come at its start. -/
structure AttemptRun (c : Inputs) (coming : List Byte) (s : State) : Prop where
  plain : PlainRun c s
  inv : StateInv s = true
  attempt : AttemptAccounted s
  came : ∃ a, coming = a ++ appended s.schedule

theorem attemptRun_of_atStart {s : State} (h : AtStart s) (hn : NoPortErrors s) :
    AttemptRun s.inputs (appended s.schedule) s := by
  obtain ⟨-, hi, hp, hu, -⟩ := h
  exact ⟨⟨⟨rfl, setsOnly_of_undisturbed hu⟩, hn, fun st hst => by simp [hp] at hst⟩, hi, attemptAccounted_of_start hp,
    [], rfl⟩

theorem attemptRun_step {c : Inputs} {coming : List Byte} (hfw : c.fwPresent = true) {s t : State}
    (h : AttemptRun c coming s) (ht : step s = .next t) : AttemptRun c coming t := by
  obtain ⟨a, ha⟩ := h.came
  obtain ⟨a', ha'⟩ := appended_step ht
  exact ⟨plainRun_step hfw h.plain ht, stepKeepsInvariant s t h.inv ht, attemptAccounted_step h.inv h.attempt ht,
    a ++ a', by rw [ha, ha', List.append_assoc]⟩

/-! ## A part of a record -/

/-- A stream that is less than a record holds no record to publish. -/
theorem not_publishes_of_part {s : State} (hw : s.inputs.wf = true) (hm : s.inputs.readMode = .transactional)
    (hd : namesDistinct s.inputs = true) {rest : List Byte} (hrest : rest ≠ [])
    (hpart : IsRecord s.inputs (stream s ++ rest)) (ha : AttemptAccounted s) {st : Status} (hp : s.phase = .finish st) :
    ¬ publishes st = true := fun hst => by
  have hacc := ha.finish st hp hst
  have hsplit : stream s = s.q.take s.cur ++ (s.q.drop s.cur ++ appended s.schedule) := by
    rw [← List.append_assoc, List.take_append_drop, stream]
  obtain ⟨hnone, -⟩ := next_record (ws := []) (n := 0) hw nofun hpart hrest ⟨s.record, hacc.fields hd, hacc.wire hd hm⟩
    hsplit
  cases hnone

/-- The run of an attempt whose stream is less than a record: the stream stays, and so the attempt ends with
`FIFONoDataAvailable`. -/
structure PartialRun (c : Inputs) (coming x : List Byte) (s : State) : Prop where
  run : AttemptRun c coming s
  stream : stream s = x
  ended : s.phase = .idle → s.response = some { status := .fifoNoDataAvailable, record := none }

theorem partialRun_step {c : Inputs} {coming x rest : List Byte} (hfw : c.fwPresent = true)
    (hm : c.readMode = .transactional) (hd : namesDistinct c = true) (hrest : rest ≠ []) (hpart : IsRecord c (x ++ rest))
    {s t : State} (ha : Attempting s) (h : PartialRun c coming x s) (ht : step s = .next t) : PartialRun c coming x t := by
  obtain ⟨hrun, rfl, -⟩ := h
  obtain ⟨rfl, -⟩ := hrun.plain.steady
  have hno {st : Status} (hp : s.phase = .finish st) : ¬ publishes st = true :=
    not_publishes_of_part ha.configured.1 hm hd hrest hpart hrun.attempt hp
  refine ⟨attemptRun_step hfw hrun ht, ?_, fun hp => ?_⟩
  · obtain ⟨hs, -⟩ | ⟨-, st, hp, hst, -⟩ := step_stream hm ht
    · exact hs
    · exact absurd hst (hno hp)
  · obtain ⟨st, sch, hst, -, rfl⟩ := attempting_finishes ha ht hp
    obtain rfl := (hrun.plain.finish st hst).resolve_left (hno hst)
    rfl

/-- Bytes that left a schedule stand at the end of the FIFO, where the stream did not change otherwise. -/
theorem q_eq_of_stream {s : State} {x coming a : List Byte} (hs : stream s = x ++ coming)
    (ha : coming = a ++ appended s.schedule) : s.q = x ++ a := by
  rw [stream, ha, ← List.append_assoc] at hs
  exact List.append_cancel_right hs

/-- Settles O59: the run keeps its stream, so that what came stands behind the bytes that were there. -/
theorem partialRecordRewound : Obligations.PartialRecordRewound := by
  intro s r w rest h hn hfw hm hd hr hrest hw
  have ⟨_, _, hp, _, _⟩ := h
  obtain ⟨hcomplete, -, -, hwire⟩ := hr
  have hpart : IsRecord s.inputs (stream s ++ rest) := ⟨r, hcomplete, by rw [stream, ← hw, hwire]⟩
  have hstart : PartialRun s.inputs (appended s.schedule) (stream s) s :=
    ⟨attemptRun_of_atStart h hn, rfl, fun hi => by simp [hp] at hi⟩
  obtain ⟨k, t, hk, hrun, hidle, ht⟩ :=
    atStart_run (fun _ _ => partialRun_step hfw hm hd hrest hpart) h hstart
  obtain ⟨a, ha⟩ := ht.run.came
  exact ⟨k, t, a, hk, hrun, hidle, ha, q_eq_of_stream ht.stream ha, cur_of_idle ht.run.inv hidle, ht.ended hidle⟩

end Sys2Proof.Machine

/-! SUPPORT. The memory family, fifth part: an attempt on a FIFO that begins with the bytes of a whole record (R71, R214, R217),
with its one COUNT and its READs. -/

namespace Sys2Proof.Machine

open Expect

/-! ## The READs before an element -/

/-- The number of elements that come before this one in a record with these headers (R80). -/
def readsBefore (c : Inputs) (r : Record) : Elem → Nat
  | .hdr1 => 0
  | .hdr2 => 1
  | e => 1 + (if hdr2Present c r.header then 1 else 0)
      + (c.fieldTable.take (entriesBefore c e)).countP (entryPresent r.header r.header2)

theorem countP_of_absent {h1 h2 : Half} {l : List Entry} (h : ∀ e ∈ l, entryPresent h1 h2 e = false) :
    l.countP (entryPresent h1 h2) = 0 :=
  List.countP_eq_zero.mpr fun e he => by simp [h e he]

/-- No present entry stands between index `j` and the element that comes next (R140). -/
theorem readsBefore_firstField (c : Inputs) (r : Record) {j : Nat} (hj : j ≤ c.fieldTable.length) :
    readsBefore c r (firstField c r j) = 1 + (if hdr2Present c r.header then 1 else 0)
      + (c.fieldTable.take j).countP (entryPresent r.header r.header2) := by
  have hskip (k : Nat) (hjk : j ≤ k)
      (habs : ∀ e ∈ (c.fieldTable.drop j).take (k - j), entryPresent r.header r.header2 e = false) :
      (c.fieldTable.take k).countP (entryPresent r.header r.header2)
        = (c.fieldTable.take j).countP (entryPresent r.header r.header2) := by
    rw [take_eq_append_of_le _ hjk, List.countP_append, countP_of_absent habs, Nat.add_zero]
  obtain ⟨hnext, habs⟩ | ⟨k, ent, hnext, hjk, -, -, habs⟩ := firstField_spec c r j
  · rw [hnext, readsBefore, entriesBefore, hskip _ hj fun e he => habs e (List.mem_of_mem_take he)]
    all_goals exact nofun
  · rw [hnext, readsBefore, entriesBefore, hskip k hjk habs]
    all_goals exact nofun

/-- The element that comes next has one more element before it. -/
theorem readsBefore_nextElem {c : Inputs} {r r' : Record} {e : Elem} {bs : List Byte}
    (hp : ∀ k, e = .fld k → ∃ ent, c.fieldTable[k]? = some ent ∧ entryPresent r.header r.header2 ent = true)
    (hh : e = .hdr2 → hdr2Present c r.header = true) (ha : applyElem c e bs r = some r') (he : e ≠ .footer) :
    readsBefore c r' (nextElem c r' e) = readsBefore c r e + 1 := by
  obtain ⟨hh1, hh2, -, -⟩ := applyElem_frame ha
  cases e with
  | hdr1 =>
    by_cases h2p : hdr2Present c r'.header = true
    · rw [nextElem_hdr1_present h2p]
      rfl
    · rw [nextElem_hdr1_absent h2p, readsBefore_firstField c r' (Nat.zero_le _), if_neg h2p]
      rfl
  | hdr2 =>
    have h2p : hdr2Present c r'.header = true := (hh1 nofun).symm ▸ hh rfl
    rw [nextElem, readsBefore_firstField c r' (Nat.zero_le _), if_pos h2p]
    rfl
  | fld k =>
    obtain ⟨ent, hk, hpres⟩ := hp k rfl
    have hlt := (List.getElem?_eq_some_iff.mp hk).1
    rw [nextElem, readsBefore_firstField c r' hlt, hh1 nofun, hh2 nofun, List.take_add_one, hk, List.countP_append]
    simp [readsBefore, entriesBefore, hpres, Nat.add_assoc]
  | footer => exact absurd rfl he

/-! ## The record's bytes are there for each element -/

theorem presentLen_take_add_len_le {c : Inputs} {h1 h2 : Half} {k : Nat} {ent : Entry} (hk : c.fieldTable[k]? = some ent)
    (hp : entryPresent h1 h2 ent = true) :
    presentLen h1 h2 (c.fieldTable.take k) + ent.len ≤ presentLen h1 h2 c.fieldTable := by
  have hsplit : c.fieldTable = c.fieldTable.take k ++ ent :: c.fieldTable.drop (k + 1) := by
    obtain ⟨hlt, rfl⟩ := List.getElem?_eq_some_iff.mp hk
    rw [← List.drop_eq_getElem_cons hlt, List.take_append_drop]
  have hsum := congrArg (presentLen h1 h2) hsplit
  simp only [presentLen_append, presentLen, hp, if_true] at hsum
  omega

/-- Past the headers, the headers read are those of the record whose bytes the FIFO begins with. -/
theorem headers_eq_of_entriesAccounted {c : Inputs} (hm : c.readMode = .transactional) (hd : namesDistinct c = true)
    {r r' : Record} {read w x x' : List Byte} {j : Nat} (h : EntriesAccounted c r read j)
    (hr : recordComplete c r' = true) (hw : recordOnWire c r' = some w) (heq : read ++ x = w ++ x') :
    r.header = r'.header ∧ r.header2 = r'.header2 := by
  obtain ⟨-, -, hh⟩ := (recordComplete_iff c r').mp hr
  obtain ⟨ws, f, -, -, rfl⟩ := recordOnWire_some hw
  obtain ⟨ws', -, rfl⟩ := Option.map_eq_some_iff.mp (h.wire hd hm)
  simp only [List.append_assoc] at heq
  exact headers_eq_of_headBytes h.headers hh heq

/-- An attempt on bytes that begin with a complete record's finds each element within them. -/
theorem element_within {c : Inputs} (hwf : c.wf = true) (hm : c.readMode = .transactional) (hd : namesDistinct c = true)
    {r r' : Record} {read w x x' : List Byte} {e : Elem} {n : Nat} (h : ElemAccounted c r read e)
    (hl : elemLen c e = some n)
    (hp : ∀ k, e = .fld k → ∃ ent, c.fieldTable[k]? = some ent ∧ entryPresent r.header r.header2 ent = true)
    (hr : recordComplete c r' = true) (hw : recordOnWire c r' = some w) (heq : read ++ x = w ++ x') :
    read.length + n ≤ w.length := by
  have hwl := recordOnWire_length hwf hr hw
  rw [headBytes_length] at hwl
  cases e with
  | hdr1 =>
    obtain rfl : n = 2 := (Option.some.inj hl).symm
    have hb : read.length = 0 := h.bytes hm
    omega
  | hdr2 =>
    obtain rfl : n = 2 := (Option.some.inj hl).symm
    have hb : read.length = 2 := h.bytes hm
    obtain rfl : wireBytes r.header = read := Option.some.inj (h.wire hd hm)
    obtain ⟨ws, f, -, -, rfl⟩ := recordOnWire_some hw
    have hh : r.header = r'.header := by
      simp only [headBytes, List.append_assoc] at heq
      exact header_eq_of_wireBytes heq
    have h2p : hdr2Present c r'.header = true := hh ▸ h.headers
    rw [if_pos h2p] at hwl
    omega
  | fld k =>
    have h := elemAccounted_fld_iff.mp h
    obtain ⟨ent, hk, hpres⟩ := hp k rfl
    obtain rfl : ent.len = n := by simpa [elemLen, hk] using hl
    obtain ⟨h1, h2⟩ := headers_eq_of_entriesAccounted hm hd h hr hw heq
    have hb := h.bytes hm
    rw [headBytes_length, h1, h2] at hb
    have := presentLen_take_add_len_le hk (h1 ▸ h2 ▸ hpres)
    omega
  | footer =>
    obtain rfl : n = 2 := (Option.some.inj hl).symm
    have h := elemAccounted_footer_iff.mp h
    obtain ⟨h1, h2⟩ := headers_eq_of_entriesAccounted hm hd h hr hw heq
    have hb := h.bytes hm
    rw [headBytes_length, h1, h2, List.take_length] at hb
    omega

/-! ## The attempt up to its Finish step -/

/-- Every field of the record is of an entry of the table. -/
def FieldsOfTable (c : Inputs) (r : Record) : Prop := ∀ v ∈ r.fld, ∃ e ∈ c.fieldTable, e.name = v.name

theorem fieldsOfTable_applyElem {c : Inputs} {e : Elem} {bs : List Byte} {r r' : Record} (h : FieldsOfTable c r)
    (ha : applyElem c e bs r = some r') : FieldsOfTable c r' := by
  cases e with
  | fld k =>
    cases hk : c.fieldTable[k]? with
    | none => simp [applyElem, hk] at ha
    | some ent =>
      obtain ⟨cs, -, rfl⟩ := Option.map_eq_some_iff.mp (by simpa [applyElem, hk] using ha)
      intro v hv
      rcases mem_fldSet hv with rfl | hv
      · exact ⟨ent, List.mem_of_getElem? hk, rfl⟩
      · exact h v hv
  | hdr1 | hdr2 | footer =>
    cases ha
    exact h

/-- The count and the bytes read cover at least `m` bytes of the FIFO, and `k` transactions have been made. -/
structure Counted (m k : Nat) (s : State) : Prop where
  covers : m ≤ s.rem.toNat + s.cur
  there : s.rem.toNat + s.cur ≤ s.q.length
  txns : s.txns = k

/-- An attempt on the bytes of a record, `w`, with `rest` behind them, after `k` transactions at its start: its one COUNT comes
first, and covers them all; each element takes one READ. -/
structure Delivering (w rest : List Byte) (k : Nat) (s : State) : Prop where
  bytes : ∃ a, s.q = w ++ (rest ++ a)
  fields : s.phase ≠ .start → FieldsOfTable s.inputs s.record
  start : s.phase = .start → s.txns = k
  need : ∀ e b, s.phase = .need e b → (e = .hdr1 ∧ b = false ∧ s.rem = 0 ∧ s.txns = k) ∨
    Counted (w.length + rest.length) (k + 1 + readsBefore s.inputs s.record e) s
  finish : ∀ st, s.phase = .finish st → st = completionStatus s.rem ∧
    Counted (w.length + rest.length) (k + 2 + readsBefore s.inputs s.record .footer) s

theorem delivering_append {w rest : List Byte} {k : Nat} {s : State} (h : Delivering w rest k s) (bs : List Byte) :
    Delivering w rest k { s with q := s.q ++ bs } := by
  obtain ⟨a, ha⟩ := h.bytes
  have hc {m j : Nat} (h : Counted m j s) : Counted m j { s with q := s.q ++ bs } :=
    ⟨h.covers, h.there.trans (by simp), h.txns⟩
  exact ⟨⟨a ++ bs, by simp [ha]⟩, h.fields, h.start, fun e b hp => (h.need e b hp).imp_right hc,
    fun st hp => (h.finish st hp).imp_right hc⟩

/-- Nothing of it reads the schedule. -/
theorem delivering_schedule {w rest : List Byte} {k : Nat} {s : State} (h : Delivering w rest k s) (sch : List Move) :
    Delivering w rest k { s with schedule := sch } := by
  have hc {m j : Nat} (h : Counted m j s) : Counted m j { s with schedule := sch } := ⟨h.covers, h.there, h.txns⟩
  exact ⟨h.bytes, h.fields, h.start, fun e b hp => (h.need e b hp).imp_right hc,
    fun st hp => (h.finish st hp).imp_right hc⟩

theorem delivering_startAttempt {w rest : List Byte} {k : Nat} {s : State} (hfw : s.inputs.fwPresent = true)
    (hp : s.phase = .start) (h : Delivering w rest k s) : Delivering w rest k (startAttempt s) := by
  rw [startAttempt, if_pos hfw]
  refine ⟨h.bytes, fun _ => nofun, nofun, fun e b he => .inl ?_, nofun⟩
  cases he
  exact ⟨rfl, rfl, rfl, h.start hp⟩

/-- A READ moves its bytes from the count to those read. -/
theorem counted_extracted {m k n : Nat} {s : State} (hm : s.inputs.readMode = .transactional) (hn : n ≤ s.rem.toNat)
    (h : Counted m k s) (e : Elem) (r : Record) : Counted m (k + 1) (extracted e n r s) := by
  have hrem : (extracted e n r s).rem.toNat = s.rem.toNat - n := rem_sub_toNat hn
  have hcur : (extracted e n r s).cur = s.cur + n := by simp [extracted, takeBytes, hm]
  have hq : (extracted e n r s).q = s.q := by simp [extracted, takeBytes, hm]
  have htx : (extracted e n r s).txns = s.txns + 1 := by simp [extracted]
  obtain ⟨h1, h2, h3⟩ := h
  refine ⟨?_, ?_, by rw [htx, h3]⟩
  · rw [hrem, hcur]
    omega
  · rw [hrem, hcur, hq]
    omega

section ElementStep

variable {w rest : List Byte} {k : Nat} {s : State} {e : Elem} {b : Bool} (hm : s.inputs.readMode = .transactional)
  (hi : StateInv s = true) (ha : AttemptAccounted s) (h : Delivering w rest k s) (hp : s.phase = .need e b)
include hm hi ha h hp

theorem delivering_extracted {n : Nat} {r : Record} (hn : n ≤ s.rem.toNat)
    (hcount : Counted (w.length + rest.length) (k + 1 + readsBefore s.inputs s.record e) s)
    (hr : applyElem s.inputs e (nextBytes n s) s.record = some r) : Delivering w rest k (extracted e n r s) := by
  obtain ⟨-, -, -, hpres, -, -⟩ := (stateInv_iff s).mp hi
  have hin : (extracted e n r s).inputs = s.inputs := by simp [extracted]
  have hq : (extracted e n r s).q = s.q := by simp [extracted, takeBytes, hm]
  have hc := counted_extracted hm hn hcount e r
  have hfields : FieldsOfTable s.inputs r := fieldsOfTable_applyElem (h.fields (by simp [hp])) hr
  by_cases he : e = .footer
  · subst he
    refine ⟨hq ▸ h.bytes, fun _ => hin ▸ hfields, nofun, nofun, fun st hst => ⟨by cases hst; rfl, ?_⟩⟩
    obtain ⟨hh1, hh2, -, -⟩ := applyElem_frame hr
    have hsame : readsBefore s.inputs r .footer = readsBefore s.inputs s.record .footer := by
      simp only [readsBefore, hh1 nofun, hh2 nofun]
    have hk : k + 2 + readsBefore s.inputs r .footer = k + 1 + readsBefore s.inputs s.record .footer + 1 := by
      rw [hsame]
      omega
    rw [hin]
    exact hk ▸ hc
  · have hp' : (extracted e n r s).phase = .need (nextElem s.inputs r e) false := phaseAfter_need he
    refine ⟨hq ▸ h.bytes, fun _ => hin ▸ hfields, fun hst => by simp [hp'] at hst, fun e' b' hst => .inr ?_,
      fun st hst => by simp [hp'] at hst⟩
    have hh : e = .hdr2 → hdr2Present s.inputs s.record.header = true := fun he2 => by
      subst he2
      exact (ha.elem _ b hp).headers
    have hnext := readsBefore_nextElem ((namesPresent_of_need hp).mp hpres) hh hr he
    rw [hp'] at hst
    cases hst
    rw [hin]
    exact hnext ▸ hc

/-- The element step of such an attempt is its one COUNT, or a READ that finds its bytes counted. -/
theorem delivering_elementStep {r' : Record} {t : State} (hw : s.inputs.wf = true) (hd : namesDistinct s.inputs = true)
    (ho : s.portStatus = .ok) (hr : recordComplete s.inputs r' = true) (hwire : recordOnWire s.inputs r' = some w)
    (ht : elementStep e b s = .next t) : Delivering w rest k t := by
  obtain ⟨hf, -, -, hpres, -, -⟩ := (stateInv_iff s).mp hi
  obtain ⟨n, hl, hcases⟩ := elementStep_next ht
  obtain ⟨a, hq⟩ := h.bytes
  have hcur := ((fifoWf_iff s).mp hf).1
  have hwithin : s.cur + n ≤ w.length := by
    have := element_within hw hm hd (ha.elem e b hp) hl ((namesPresent_of_need hp).mp hpres) hr hwire
      ((List.take_append_drop s.cur s.q).trans hq)
    rwa [read_length hf] at this
  obtain ⟨rfl, rfl, hrem, htx⟩ | hcount := h.need e b hp
  · obtain rfl : n = 2 := (Option.some.inj hl).symm
    have hzero : s.rem.toNat = 0 := by rw [hrem]; rfl
    obtain ⟨-, hb, -⟩ | ⟨-, -, -, rfl⟩ | ⟨-, -, ho', -⟩ | ⟨hn, -⟩ | ⟨hn, -⟩ := hcases
    · cases hb
    · refine ⟨h.bytes, fun _ => h.fields (by simp [hp]), nofun, fun e b he => .inr ?_, nofun⟩
      cases he
      have hlen : w.length + rest.length ≤ s.q.length := by simp [hq]
      have hall : s.readable + s.cur = s.q.length := Nat.sub_add_cancel hcur
      exact ⟨by simpa only [count_toNat hf, afterDraw_cur, hall] using hlen,
        by simp only [count_toNat hf, afterDraw_cur, afterDraw_q, hall, le_refl],
        by simp [htx, readsBefore]⟩
    · exact absurd ho ho'
    · omega
    · omega
  · have hn : n ≤ s.rem.toNat := by have := hcount.covers; omega
    obtain ⟨hlt, -⟩ | ⟨hlt, -⟩ | ⟨hlt, -⟩ | ⟨-, ho', -⟩ | ⟨-, -, -, r, hr, rfl⟩ := hcases
    · omega
    · omega
    · omega
    · exact absurd ho ho'
    · exact delivering_extracted hm hi ha h hp hn hcount hr

end ElementStep

/-! ## The end of the attempt -/

/-- What an attempt on the bytes of the record `r`, with `rest` behind them, leaves: `coming` are the bytes to come at its
start, and `k` the transactions made before it. -/
structure Delivered (r : Record) (rest coming : List Byte) (k : Nat) (s : State) : Prop where
  stream : stream s = rest ++ coming
  response : s.response = some { status := completionStatus s.rem, record := some r }
  covers : rest.length ≤ s.rem.toNat
  there : s.rem.toNat ≤ s.q.length
  txns : s.txns = k + 2 + readsBefore s.inputs r .footer

/-- The record that the Finish step publishes is the one whose bytes the FIFO began with. -/
theorem delivering_record {r : Record} {w rest : List Byte} {k : Nat} {s : State} (hw : s.inputs.wf = true)
    (hm : s.inputs.readMode = .transactional) (hd : namesDistinct s.inputs = true) (hr : RecordAs s.inputs r w)
    (hi : StateInv s = true) (ha : AttemptAccounted s) (h : Delivering w rest k s) {st : Status}
    (hp : s.phase = .finish st) : s.record = r ∧ s.q.take s.cur = w := by
  obtain ⟨-, -, -, -, hwf, -⟩ := (stateInv_iff s).mp hi
  obtain ⟨a, hq⟩ := h.bytes
  have hacc := ha.finish st hp ((h.finish st hp).1 ▸ publishes_completionStatus s.rem)
  have hwire := hacc.wire hd hm
  have ⟨hcomplete, _, _, hw'⟩ := hr
  have hread : s.q.take s.cur = w :=
    recordOnWire_eq_of_append_eq hw (hacc.fields hd) hwire hcomplete hw' ((List.take_append_drop s.cur s.q).trans hq)
  exact ⟨record_eq_of_recordAs hw ⟨hacc.fields hd, hwf, h.fields (by simp [hp]), hread ▸ hwire⟩ hr, hread⟩

theorem delivered_finishAttempt {r : Record} {w rest coming : List Byte} {k : Nat} {s : State} (hw : s.inputs.wf = true)
    (hm : s.inputs.readMode = .transactional) (hd : namesDistinct s.inputs = true) (hr : RecordAs s.inputs r w)
    (hi : StateInv s = true) (ha : AttemptAccounted s) (hs : stream s = w ++ (rest ++ coming))
    (h : Delivering w rest k s) {st : Status} (hp : s.phase = .finish st) :
    Delivered r rest coming k (finishAttempt st s) := by
  obtain ⟨rfl, hread⟩ := delivering_record hw hm hd hr hi ha h hp
  obtain ⟨rfl, hcount⟩ := h.finish st hp
  have hst := publishes_completionStatus s.rem
  have hlen : s.cur = w.length := by rw [← hread, read_length ((stateInv_iff s).mp hi).1]
  have hq : (finishAttempt (completionStatus s.rem) s).q = s.q.drop s.cur := by
    rw [finishAttempt_q_transactional hm, if_pos hst]
  obtain ⟨hcovers, hthere, htx⟩ := hcount
  refine ⟨?_, by simp [hst], ?_, ?_, by simpa using htx⟩
  · rw [stream, ← List.take_append_drop s.cur s.q, hread, List.append_assoc] at hs
    rw [stream, hq, finishAttempt_schedule]
    exact List.append_cancel_left hs
  · rw [finishAttempt_rem]
    omega
  · rw [finishAttempt_rem, hq, List.length_drop]
    omega

/-- The run of an attempt on the bytes of the record `r`. -/
structure DeliveryRun (c : Inputs) (r : Record) (w rest coming : List Byte) (k : Nat) (s : State) : Prop where
  run : AttemptRun c coming s
  running : s.phase ≠ .idle → stream s = w ++ (rest ++ coming) ∧ Delivering w rest k s
  ended : s.phase = .idle → Delivered r rest coming k s

/-- A decoder's turn that does not end the attempt. -/
theorem delivering_decoderTurn {c : Inputs} {r : Record} {w rest : List Byte} {k : Nat} {s t : State}
    (hs : s.inputs = c) (hw : c.wf = true) (hfw : c.fwPresent = true) (hm : c.readMode = .transactional)
    (hd : namesDistinct c = true) (hr : RecordAs c r w) (ho : s.portStatus = .ok) (hi : StateInv s = true)
    (ha : AttemptAccounted s) (h : Delivering w rest k s) (ht : decoderTurn s = .next t) (hp : t.phase ≠ .idle) :
    t.q = s.q ∧ Delivering w rest k t := by
  subst hs
  obtain ⟨hcomplete, -, -, hwire⟩ := hr
  obtain ⟨hidle, rfl⟩ | ⟨hstart, rfl⟩ | ⟨st, -, rfl⟩ | ⟨e, b, hneed, he⟩ := decoderTurn_next ht
  · exact absurd hidle hp
  · exact ⟨startAttempt_q s, delivering_startAttempt hfw hstart h⟩
  · exact absurd (finishAttempt_phase s st) hp
  · exact ⟨elementStep_q hm he, delivering_elementStep hm hi ha h hneed hw hd ho hcomplete hwire he⟩

theorem deliveryRun_step {c : Inputs} {r : Record} {w rest coming : List Byte} {k : Nat} (hfw : c.fwPresent = true)
    (hm : c.readMode = .transactional) (hd : namesDistinct c = true) (hr : RecordAs c r w) {s t : State}
    (ha : Attempting s) (h : DeliveryRun c r w rest coming k s) (ht : step s = .next t) :
    DeliveryRun c r w rest coming k t := by
  have hin := h.run.plain.steady.inputs
  have hw : c.wf = true := hin ▸ ha.configured.1
  obtain ⟨hs, hdel⟩ := h.running ha.running
  have ho : s.portStatus = .ok := portStatus_of_noPortErrors h.run.plain.noErrors
  have hacc := attemptAccounted_schedule h.run.attempt
  have hdel' := delivering_schedule hdel
  have hs' {sch : List Move} (hsch : appended sch = appended s.schedule) :
      stream { s with schedule := sch } = w ++ (rest ++ coming) := by rw [← hs, stream, stream, hsch]
  refine ⟨attemptRun_step hfw h.run ht, fun hp => ?_, fun hp => ?_⟩
  · obtain ⟨sch, hsch, hturn⟩ | ⟨sch, bs, hsch, rfl⟩ := attempting_step_cases ha ht
    · obtain ⟨hq, hdel⟩ := delivering_decoderTurn (s := { s with schedule := sch }) hin hw hfw hm hd hr
        ho h.run.inv (hacc sch) (hdel' sch) hturn hp
      refine ⟨?_, hdel⟩
      rw [← hs' hsch, stream, stream, hq, (decoderTurn_static hturn).1]
    · exact ⟨by rw [← hs, stream, stream, hsch, List.append_assoc], delivering_append (hdel' sch) bs⟩
  · obtain ⟨st, sch, hst, hsch, rfl⟩ := attempting_finishes ha ht hp
    subst hin
    exact delivered_finishAttempt (s := { s with schedule := sch }) hw hm hd hr h.run.inv (hacc sch) (hs' hsch)
      (hdel' sch) hst

theorem deliveryRun_of_atStart {s : State} {r : Record} {w rest : List Byte} (h : AtStart s) (hn : NoPortErrors s)
    (hq : s.q = w ++ rest) : DeliveryRun s.inputs r w rest (appended s.schedule) s.txns s := by
  have ⟨_, _, hp, _, _⟩ := h
  refine ⟨attemptRun_of_atStart h hn, fun _ => ⟨by rw [stream, hq, List.append_assoc], ?_⟩, fun hi => by simp [hp] at hi⟩
  exact ⟨⟨[], by simp [hq]⟩, fun hne => absurd hp hne, fun _ => rfl, fun e b he => by simp [hp] at he,
    fun st hst => by simp [hp] at hst⟩

/-- COUNT, the footer's READ, and a READ for each element before it. -/
theorem reads_of_record (c : Inputs) (r : Record) : 2 + readsBefore c r .footer
    = 3 + (if r.header &&& c.hdr2Bit ≠ 0 then 1 else 0)
      + (c.fieldTable.filter fun e => entryPresent r.header r.header2 e).length := by
  have hcount : (c.fieldTable.filter fun e => entryPresent r.header r.header2 e).length
      = c.fieldTable.countP (entryPresent r.header r.header2) := List.countP_eq_length_filter.symm
  have hh : hdr2Present c r.header = true ↔ r.header &&& c.hdr2Bit ≠ 0 := by simp [hdr2Present]
  simp only [readsBefore, entriesBefore, List.take_length, hcount, hh]
  omega

/-- The completion status tells whether bytes were behind the record (R212, R217). -/
theorem completionStatus_of_left {n : Half} {rest a : List Byte} (h1 : rest.length ≤ n.toNat)
    (h2 : n.toNat ≤ (rest ++ a).length) :
    (rest ≠ [] → completionStatus n = .fifoMoreDataAvailable) ∧ (rest = [] → a = [] → completionStatus n = .ok) := by
  refine ⟨fun hr => if_pos ?_, fun hr ha => if_neg ?_⟩
  · have := List.length_pos_iff.mpr hr
    omega
  · rw [hr, ha] at h2
    simpa using h2

/-- Settles O58: the run delivers the record, and what the FIFO holds at its end is the stream's rest less what is still to
come. -/
theorem completeRecordDecoded : Obligations.CompleteRecordDecoded := by
  intro s r w rest h hn hfw hm hd hr hq
  obtain ⟨k, t, hk, hrun, hidle, ht⟩ :=
    atStart_run (fun _ _ => deliveryRun_step hfw hm hd hr) h (deliveryRun_of_atStart h hn hq)
  obtain ⟨hstream, hresp, hcovers, hthere, htx⟩ := ht.ended hidle
  obtain ⟨a, ha⟩ := ht.run.came
  have hqt : t.q = rest ++ a := q_eq_of_stream hstream ha
  obtain ⟨hmore, hok⟩ := completionStatus_of_left hcovers (hqt ▸ hthere)
  refine ⟨k, t, a, completionStatus t.rem, hk, hrun, hidle, ha, hqt, cur_of_idle ht.run.inv hidle, hresp,
    (publishes_iff _).mp (publishes_completionStatus t.rem), hmore, hok, ?_⟩
  rw [htx, ht.run.plain.steady.inputs, Nat.add_assoc, reads_of_record]
  omega

end Sys2Proof.Machine

/-! SUPPORT. The encoding family: masks of header bits, the two bit maps as one shape (R82, R83, R90), the rows and the
entries that a header value selects (R86, R140), and the record's length under the default table (R81). -/

namespace Sys2Proof.Machine

/-! ## Masks of header bits -/

theorem eq_twoPow_of_popcount_one {m : Half} (h : popcount m = 1) : ∃ b < 16, m = BitVec.twoPow 16 b := by
  obtain ⟨b, hb⟩ := (popcount_eq_one_iff m).mp h
  have hbit (i : Nat) : i < 16 ∧ m.getLsbD i = true ↔ i = b := by
    rw [← List.mem_singleton (a := i), ← hb, List.mem_filter, List.mem_range]
  have hb16 : b < 16 := ((hbit b).mpr rfl).1
  refine ⟨b, hb16, BitVec.eq_of_getLsbD_eq fun i hi => ?_⟩
  have hi := hbit i
  rw [BitVec.getLsbD_twoPow, Bool.eq_iff_iff]
  simp only [Bool.and_eq_true, decide_eq_true_iff]
  grind

/-- A value that has some of a one-bit mask has all of it. -/
theorem and_eq_mask_iff_of_popcount_one {m : Half} (h : popcount m = 1) (w : Half) : w &&& m = m ↔ w &&& m ≠ 0 := by
  obtain ⟨b, hb, rfl⟩ := eq_twoPow_of_popcount_one h
  have hne : BitVec.twoPow 16 b ≠ 0#16 := fun h0 => by
    simpa [hb] using congrArg (fun v => v.getLsbD b) h0
  rw [BitVec.and_twoPow]
  split
  · simp [hne]
  · simp [hne.symm]

theorem and_eq_zero_of_and_mask {x m M : Half} (hx : x &&& M = 0) (hm : M &&& m = m) : x &&& m = 0 := by
  rw [← hm, ← BitVec.and_assoc, hx]
  exact BitVec.zero_and

/-- Bits outside a mask do not change what a value has of it. -/
theorem or_and_of_and_eq_zero {h x m : Half} (hx : x &&& m = 0) : (h ||| x) &&& m = h &&& m := by
  rw [BitVec.and_or_distrib_right, hx]
  exact BitVec.or_zero

theorem and_or_eq_self_iff (w a b : Half) : w &&& (a ||| b) = a ||| b ↔ w &&& a = a ∧ w &&& b = b := by
  constructor
  · intro h
    have hbit (i : Nat) : (w.getLsbD i && (a.getLsbD i || b.getLsbD i)) = (a.getLsbD i || b.getLsbD i) := by
      simpa using congrArg (fun v => v.getLsbD i) h
    constructor <;> refine BitVec.eq_of_getLsbD_eq fun i _ => ?_ <;> have := hbit i <;> grind
  · rintro ⟨ha, hb⟩
    rw [BitVec.and_or_distrib_left, ha, hb]

/-- The low bits of a value, put back in their place. -/
theorem setWidth_setWidth_eq_and (w : Half) (n : Nat) :
    (w.setWidth n).setWidth 16 = w &&& (BitVec.allOnes n).setWidth 16 := by
  refine BitVec.eq_of_getLsbD_eq fun i hi => ?_
  simp only [BitVec.getLsbD_setWidth, BitVec.getLsbD_and, BitVec.getLsbD_allOnes]
  grind

/-- The bits of any mask of a list. -/
def unionOf (ms : List Half) : Half := ms.foldr (· ||| ·) 0

@[simp] theorem unionOf_nil : unionOf [] = 0 := rfl

@[simp] theorem unionOf_cons (m : Half) (ms : List Half) : unionOf (m :: ms) = m ||| unionOf ms := rfl

theorem unionOf_append (ms ms' : List Half) : unionOf (ms ++ ms') = unionOf ms ||| unionOf ms' := by
  induction ms with
  | nil => simp
  | cons m ms ih => simp [ih, BitVec.or_assoc]

theorem foldl_or_eq_unionOf (ms : List Half) : ms.foldl (· ||| ·) 0 = unionOf ms := List.foldl_eq_foldr

/-- A value has all bits of a list of one-bit masks exactly where it has some of each mask. -/
theorem and_unionOf_eq_iff (w : Half) {ms : List Half} (hone : ∀ m ∈ ms, popcount m = 1) :
    w &&& unionOf ms = unionOf ms ↔ ∀ m ∈ ms, w &&& m ≠ 0 := by
  induction ms with
  | nil => simp
  | cons m ms ih =>
    obtain ⟨hm, hms⟩ := List.forall_mem_cons.mp hone
    rw [unionOf_cons, and_or_eq_self_iff, and_eq_mask_iff_of_popcount_one hm, ih hms, List.forall_mem_cons]

/-! ## The rows that a header value selects (R82, R83, R90) -/

theorem mem_selected {ops : List (Half × Instr)} {w : Half} {i : Instr} :
    i ∈ selected ops w ↔ ∃ m, (m, i) ∈ ops ∧ w &&& m ≠ 0 := by
  simp [selected]

theorem selected_cons (op : Half × Instr) (ops : List (Half × Instr)) (w : Half) :
    selected (op :: ops) w = if w &&& op.1 = 0 then selected ops w else op.2 :: selected ops w := by
  simp only [selected, List.filter_cons, bne_iff_ne, ne_eq, ite_not]
  split <;> rfl

theorem selected_eq_nil {ops : List (Half × Instr)} {w : Half} (h : ∀ op ∈ ops, w &&& op.1 = 0) :
    selected ops w = [] := by
  simpa [selected] using h

/-- The words of the selected rows are what the value has of the rows' bits. -/
theorem unionOf_selected (w : Half) {ops : List (Half × Instr)} (hone : ∀ op ∈ ops, popcount op.1 = 1)
    (hword : ∀ op ∈ ops, opcodeWord op.2 = op.1) :
    unionOf ((selected ops w).map opcodeWord) = w &&& unionOf (ops.map (·.1)) := by
  induction ops with
  | nil => simp [selected]
  | cons op ops ih =>
    obtain ⟨hop, hops⟩ := List.forall_mem_cons.mp hone
    obtain ⟨hopw, hopsw⟩ := List.forall_mem_cons.mp hword
    have ih := ih hops hopsw
    rw [List.map_cons, unionOf_cons, BitVec.and_or_distrib_left, ← ih]
    by_cases hsel : w &&& op.1 = 0
    · rw [selected_cons, if_pos hsel, hsel]
      exact BitVec.zero_or.symm
    · have hm : w &&& op.1 = op.1 := (and_eq_mask_iff_of_popcount_one hop w).mpr hsel
      rw [selected_cons, if_neg hsel, List.map_cons, unionOf_cons, hopw, hm]

/-- The instructions a header value selects: one row for each of its bits in `ops`, and the group of its `n` lowest bits.
Both headers have this shape (`hdr1Instrs_eq`, `hdr2Instrs_eq`). -/
def headerInstrs {n : Nat} (ops : List (Half × Instr)) (group : BitVec n → Instr) (w : Half) : List Instr :=
  selected ops w ++ if w.setWidth n = 0 then [] else [group (w.setWidth n)]

theorem hdr1Instrs_eq (w : Half) : hdr1Instrs w = headerInstrs hdr1Ops .reservedHdr1Low w := rfl

theorem hdr2Instrs_eq (w : Half) : hdr2Instrs w = headerInstrs hdr2Ops .reservedHdr2Low w := rfl

/-- What the bit maps of R82 and R83 have in common: the rows take one bit each, above the group of the lowest `n`, and rows
and group together take every bit. -/
structure HeaderMap {n : Nat} (slot : Slot) (ops : List (Half × Instr)) (group : BitVec n → Instr) : Prop where
  width : n ≤ 16
  oneBit : ∀ op ∈ ops, popcount op.1 = 1
  word : ∀ op ∈ ops, opcodeWord op.2 = op.1
  stands : ∀ op ∈ ops, op.2.wf = true ∧ slotOf op.2 = slot
  aboveGroup : ∀ op ∈ ops, (BitVec.allOnes n).setWidth 16 &&& op.1 = 0
  everyBit : unionOf (ops.map (·.1)) ||| (BitVec.allOnes n).setWidth 16 = BitVec.allOnes 16
  groupWord : ∀ b, opcodeWord (group b) = b.setWidth 16
  groupStands : ∀ b, b ≠ 0 → (group b).wf = true ∧ slotOf (group b) = slot

theorem headerMap_hdr1 : HeaderMap .bits1 hdr1Ops .reservedHdr1Low where
  width := by decide
  oneBit := by decide
  word := by decide
  stands := by decide
  aboveGroup := by decide
  everyBit := by decide
  groupWord _ := rfl
  groupStands b hb := ⟨bne_iff_ne.mpr hb, rfl⟩

theorem headerMap_hdr2 : HeaderMap .bits2 hdr2Ops .reservedHdr2Low where
  width := by decide
  oneBit := by decide
  word := by decide
  stands := by decide
  aboveGroup := by decide
  everyBit := by decide
  groupWord _ := rfl
  groupStands b hb := ⟨bne_iff_ne.mpr hb, rfl⟩

section HeaderMaps

variable {n : Nat} {slot : Slot} {ops : List (Half × Instr)} {group : BitVec n → Instr}

theorem mem_headerInstrs {w : Half} {i : Instr} : i ∈ headerInstrs ops group w ↔
    (∃ m, (m, i) ∈ ops ∧ w &&& m ≠ 0) ∨ w.setWidth n ≠ 0 ∧ i = group (w.setWidth n) := by
  rw [headerInstrs, List.mem_append, mem_selected]
  split
  · next h0 => simp [h0]
  · next h0 => simp only [List.mem_singleton, ne_eq, h0, not_false_eq_true, true_and]

/-- No bit of the value is dropped. -/
theorem unionOf_headerInstrs (h : HeaderMap slot ops group) (w : Half) :
    unionOf ((headerInstrs ops group w).map opcodeWord) = w := by
  have hgroup : unionOf ((if w.setWidth n = 0 then [] else [group (w.setWidth n)]).map opcodeWord)
      = w &&& (BitVec.allOnes n).setWidth 16 := by
    rw [← setWidth_setWidth_eq_and]
    split
    · next h0 => simp [h0]
    · simp [h.groupWord]
  rw [headerInstrs, List.map_append, unionOf_append, unionOf_selected w h.oneBit h.word, hgroup,
    ← BitVec.and_or_distrib_left, h.everyBit, BitVec.and_allOnes]

theorem headerInstrs_stand (h : HeaderMap slot ops group) (w : Half) :
    ∀ i ∈ headerInstrs ops group w, i.wf = true ∧ slotOf i = slot := by
  intro i hi
  rcases mem_headerInstrs.mp hi with ⟨m, hm, -⟩ | ⟨hne, rfl⟩
  · exact h.stands (m, i) hm
  · exact h.groupStands _ hne

/-- A value of bits of the group alone selects the group alone. -/
theorem headerInstrs_group (h : HeaderMap slot ops group) {b : BitVec n} (hb : b ≠ 0) :
    headerInstrs ops group (b.setWidth 16) = [group b] := by
  have hlow : (b.setWidth 16).setWidth n = b := by
    rw [BitVec.setWidth_setWidth_of_le b h.width, BitVec.setWidth_eq]
  have habove : ∀ op ∈ ops, b.setWidth 16 &&& op.1 = 0 := fun op hop => by
    rw [← hlow, setWidth_setWidth_eq_and, BitVec.and_assoc, h.aboveGroup op hop]
    exact BitVec.and_zero
  rw [headerInstrs, selected_eq_nil habove, hlow, if_neg hb, List.nil_append]

end HeaderMaps

/-! ## Decoding what was encoded -/

theorem decode_bits1_wireBytes (w : Half) : decode .bits1 (wireBytes w) = .ok (hdr1Instrs w) [] :=
  congrArg (fun v => Decoded.ok (hdr1Instrs v) []) (headerValue_wireBytes w [])

theorem decode_bits2_wireBytes (w : Half) : decode .bits2 (wireBytes w) = .ok (hdr2Instrs w) [] :=
  congrArg (fun v => Decoded.ok (hdr2Instrs v) []) (headerValue_wireBytes w [])

/-- An instruction is read back from its bytes: the word of a row is one value, that of a group any value of the group's
bits. -/
theorem decode_encode {i : Instr} (hwf : i.wf = true) : decode (slotOf i) (encode i) = .ok [i] [] := by
  cases i with
  | reservedHdr1Low bits =>
    have hgroup := headerInstrs_group headerMap_hdr1 (bne_iff_ne.mp hwf)
    rw [← hgroup]
    exact decode_bits1_wireBytes _
  | reservedHdr2Low bits =>
    have hgroup := headerInstrs_group headerMap_hdr2 (bne_iff_ne.mp hwf)
    rw [← hgroup]
    exact decode_bits2_wireBytes _
  | _ => rfl

/-- Settles O1: an instruction is read back by `decode_encode`; the two headers have one shape, of which no bit is dropped. -/
theorem headerBitsRoundTrip : Obligations.HeaderBitsRoundTrip := by
  refine ⟨fun i => decode_encode, fun w => ?_, fun w => ?_⟩
  · rw [foldl_or_eq_unionOf, hdr1Instrs_eq]
    exact ⟨unionOf_headerInstrs headerMap_hdr1 w, headerInstrs_stand headerMap_hdr1 w⟩
  · rw [foldl_or_eq_unionOf, hdr2Instrs_eq]
    exact ⟨unionOf_headerInstrs headerMap_hdr2 w, headerInstrs_stand headerMap_hdr2 w⟩

/-! ## The entries that two headers select (R86, R140) -/

theorem entryPresent_of_hdr1 (h1 h2 : Half) (e : Entry) (he : e.hdr = 1) :
    entryPresent h1 h2 e = (h1 &&& e.mask != 0) := by
  rw [entryPresent, if_pos he]

theorem entryPresent_of_hdr2 (h1 h2 : Half) (e : Entry) (he : e.hdr = 2) :
    entryPresent h1 h2 e = (h2 &&& e.mask != 0) := by
  rw [entryPresent, if_neg (by omega)]

section OneHeader

variable {h1 h2 h : Half} {k : Nat} (hp : ∀ e : Entry, e.hdr = k → entryPresent h1 h2 e = (h &&& e.mask != 0))
include hp

theorem filter_entryPresent (l : List Entry) :
    (l.filter fun e => e.hdr == k).filter (fun e => entryPresent h1 h2 e)
      = (l.filter fun e => e.hdr == k).filter fun e => h &&& e.mask != 0 :=
  List.filter_congr fun e he => hp e (beq_iff_eq.mp (List.mem_filter.mp he).2)

theorem forall_entryPresent_iff (l : List Entry) :
    (∀ e ∈ l.filter fun e => e.hdr == k, entryPresent h1 h2 e = true) ↔
      ∀ m ∈ (l.filter fun e => e.hdr == k).map (·.mask), h &&& m ≠ 0 := by
  rw [List.forall_mem_map]
  refine forall₂_congr fun e he => ?_
  rw [hp e (beq_iff_eq.mp (List.mem_filter.mp he).2), bne_iff_ne]

end OneHeader

/-- The bits of a header that gate a field, each with the field's name. -/
def fieldBits (ops : List (Half × Instr)) : List (Half × FieldName) :=
  ops.filterMap fun op => (fieldOf op.2).map (op.1, ·)

theorem fieldBits_cons (op : Half × Instr) (ops : List (Half × Instr)) :
    fieldBits (op :: ops) = ((fieldOf op.2).map (op.1, ·)).toList ++ fieldBits ops := by
  cases h : fieldOf op.2 <;> simp [fieldBits, h]

theorem selected_filterMap_fieldOf (ops : List (Half × Instr)) (w : Half) :
    (selected ops w).filterMap fieldOf = ((fieldBits ops).filter fun b => w &&& b.1 != 0).map (·.2) := by
  induction ops with
  | nil => rfl
  | cons op ops ih =>
    rw [selected_cons, fieldBits_cons]
    by_cases hw : w &&& op.1 = 0
    · rw [if_pos hw, ih]
      cases fieldOf op.2 <;> simp [hw]
    · rw [if_neg hw, List.filterMap_cons, ih]
      have hset : (w &&& op.1 != 0) = true := bne_iff_ne.mpr hw
      cases fieldOf op.2 with
      | none => rfl
      | some n =>
        simp only [Option.map_some, Option.toList_some, List.singleton_append, List.filter_cons, hset, if_true,
          List.map_cons]

/-- Where a header's field bits are those of a list of entries, in order, a value's rows name the entries whose bit is set. -/
theorem headerInstrs_filterMap_fieldOf {n : Nat} {ops : List (Half × Instr)} {group : BitVec n → Instr}
    (hgroup : ∀ b, fieldOf (group b) = none) {l : List Entry} (hbits : fieldBits ops = l.map fun e => (e.mask, e.name))
    (w : Half) :
    (headerInstrs ops group w).filterMap fieldOf = (l.filter fun e => w &&& e.mask != 0).map (·.name) := by
  have hnone : (if w.setWidth n = 0 then [] else [group (w.setWidth n)]).filterMap fieldOf = [] := by
    split <;> simp [hgroup]
  rw [headerInstrs, List.filterMap_append, hnone, List.append_nil, selected_filterMap_fieldOf, hbits, List.filter_map,
    List.map_map]
  rfl

theorem hdr2Present_default_iff (h1 : Half) :
    hdr2Present defaultInputs h1 = true ↔ Instr.secondaryHeader ∈ hdr1Instrs h1 := by
  rw [hdr1Instrs_eq, mem_headerInstrs]
  simp [hdr2Present, defaultInputs, hdr1Ops]

/-- Settles O5: each header's field bits are the masks and the names of its entries, in the table's order. -/
theorem decodedRowsAreScanned : Obligations.DecodedRowsAreScanned := by
  intro h1 h2
  refine ⟨?_, ?_, hdr2Present_default_iff h1⟩
  · rw [filter_entryPresent (entryPresent_of_hdr1 h1 h2), hdr1Instrs_eq]
    exact headerInstrs_filterMap_fieldOf (fun _ => rfl) (by decide) h1
  · rw [filter_entryPresent (entryPresent_of_hdr2 h1 h2), hdr2Instrs_eq]
    exact headerInstrs_filterMap_fieldOf (fun _ => rfl) (by decide) h2

/-! ## The bits with no entry (R90, R91) -/

theorem default_hdr1_mask : ∀ e ∈ defaultFieldTable, e.hdr = 1 → 0xFFF8 &&& e.mask = e.mask := by decide

theorem default_hdr2_mask : ∀ e ∈ defaultFieldTable, e.hdr ≠ 1 → 0x7CC0 &&& e.mask = e.mask := by decide

theorem entryPresent_or_ignored {h1 h2 x y : Half} (hx : x &&& 0xFFF8 = 0) (hy : y &&& 0x7CC0 = 0) {e : Entry}
    (he : e ∈ defaultFieldTable) : entryPresent (h1 ||| x) (h2 ||| y) e = entryPresent h1 h2 e := by
  by_cases hd : e.hdr = 1
  · have hm : x &&& e.mask = 0 := and_eq_zero_of_and_mask hx (default_hdr1_mask e he hd)
    simp only [entryPresent, hd, if_true, or_and_of_and_eq_zero hm]
  · have hm : y &&& e.mask = 0 := and_eq_zero_of_and_mask hy (default_hdr2_mask e he hd)
    simp only [entryPresent, hd, if_false, or_and_of_and_eq_zero hm]

theorem hdr2Present_or_ignored (h1 : Half) {x : Half} (hx : x &&& 0xFFF8 = 0) :
    hdr2Present defaultInputs (h1 ||| x) = hdr2Present defaultInputs h1 := by
  have hm : x &&& defaultInputs.hdr2Bit = 0 := and_eq_zero_of_and_mask hx (by decide)
  rw [hdr2Present, hdr2Present, or_and_of_and_eq_zero hm]

theorem presentLen_congr {h1 h2 k1 k2 : Half} : ∀ {l : List Entry},
    (∀ e ∈ l, entryPresent h1 h2 e = entryPresent k1 k2 e) → presentLen h1 h2 l = presentLen k1 k2 l
  | [], _ => rfl
  | e :: l, h => by
    rw [presentLen, presentLen, h e List.mem_cons_self, presentLen_congr fun f hf => h f (List.mem_cons_of_mem e hf)]

/-- The record's length follows from what is present. -/
theorem recordLen_congr {c : Inputs} {h1 h2 k1 k2 : Half} (hh : hdr2Present c h1 = hdr2Present c k1)
    (he : ∀ e ∈ c.fieldTable, entryPresent h1 h2 e = entryPresent k1 k2 e) :
    recordLen c h1 h2 = recordLen c k1 k2 := by
  have hlen (p : Entry → Bool) : presentLen h1 h2 (c.fieldTable.filter p) = presentLen k1 k2 (c.fieldTable.filter p) :=
    presentLen_congr fun e hm => he e (List.mem_filter.mp hm).1
  rw [recordLen, recordLen, hh, hlen, hlen]

/-- Settles O6: every mask of the default table, and `HDR2_BIT`, lies within 0xFFF8 or 0x7CC0. -/
theorem ignoredBitsSelectNothing : Obligations.IgnoredBitsSelectNothing := by
  intro h1 h2 x y hx hy
  have he : ∀ e ∈ defaultFieldTable, entryPresent (h1 ||| x) (h2 ||| y) e = entryPresent h1 h2 e :=
    fun e => entryPresent_or_ignored hx hy
  have hh := hdr2Present_or_ignored h1 hx
  exact ⟨he, hh, recordLen_congr hh he⟩

/-! ## The record's length (R81) -/

theorem presentLen_eq_sum (h1 h2 : Half) (l : List Entry) :
    presentLen h1 h2 l = ((l.filter fun e => entryPresent h1 h2 e).map (·.len)).sum := by
  induction l with
  | nil => rfl
  | cons e l ih => cases he : entryPresent h1 h2 e <;> simp [presentLen, he, ih]

theorem presentLen_filter_hdr {h1 h2 h : Half} {k : Nat}
    (hp : ∀ e : Entry, e.hdr = k → entryPresent h1 h2 e = (h &&& e.mask != 0)) (l : List Entry) :
    presentLen h1 h2 (l.filter fun e => e.hdr == k)
      = ((l.filter fun e => decide (e.hdr = k ∧ h &&& e.mask ≠ 0)).map (·.len)).sum := by
  rw [presentLen_eq_sum, filter_entryPresent hp, List.filter_filter]
  refine congrArg (fun l : List Entry => (l.map (·.len)).sum) (List.filter_congr fun e _ => ?_)
  rw [Bool.eq_iff_iff, decide_eq_true_iff, Bool.and_eq_true, bne_iff_ne, beq_iff_eq, and_comm]

theorem hdr2Present_iff (c : Inputs) (h1 : Half) : hdr2Present c h1 = true ↔ h1 &&& c.hdr2Bit ≠ 0 := bne_iff_ne

/-- The length under any table, as R81 writes it. -/
theorem recordLen_eq_sum (c : Inputs) (h1 h2 : Half) : recordLen c h1 h2 =
    2 + (if h1 &&& c.hdr2Bit ≠ 0 then 2 else 0)
      + ((c.fieldTable.filter fun e => decide (e.hdr = 1 ∧ h1 &&& e.mask ≠ 0)).map (·.len)).sum
      + (if h1 &&& c.hdr2Bit ≠ 0 then
          ((c.fieldTable.filter fun e => decide (e.hdr = 2 ∧ h2 &&& e.mask ≠ 0)).map (·.len)).sum else 0)
      + 2 := by
  simp only [recordLen, headerLen, footerLen, hdr2Present_iff, presentLen_filter_hdr (entryPresent_of_hdr1 h1 h2),
    presentLen_filter_hdr (entryPresent_of_hdr2 h1 h2)]

/-- The length of a list of entries that are all present. -/
def totalLen (l : List Entry) : Nat := (l.map (·.len)).sum

theorem presentLen_le_totalLen (h1 h2 : Half) : ∀ l : List Entry, presentLen h1 h2 l ≤ totalLen l
  | [] => le_rfl
  | e :: l => by
    have ih := presentLen_le_totalLen h1 h2 l
    simp only [presentLen, totalLen, List.map_cons, List.sum_cons] at ih ⊢
    split <;> omega

theorem presentLen_eq_totalLen_iff (h1 h2 : Half) : ∀ {l : List Entry}, (∀ e ∈ l, 1 ≤ e.len) →
    (presentLen h1 h2 l = totalLen l ↔ ∀ e ∈ l, entryPresent h1 h2 e = true)
  | [], _ => by simp [presentLen, totalLen]
  | e :: l, hpos => by
    have he := hpos e List.mem_cons_self
    have hle := presentLen_le_totalLen h1 h2 l
    rw [List.forall_mem_cons, ← presentLen_eq_totalLen_iff h1 h2 fun f hf => hpos f (List.mem_cons_of_mem e hf)]
    simp only [presentLen, totalLen, List.map_cons, List.sum_cons] at hle ⊢
    cases entryPresent h1 h2 e <;>
      simp only [if_true, Bool.false_eq_true, if_false, true_and, false_and, iff_false] <;> omega

/-- The entries of header `k`. -/
def entriesOf (c : Inputs) (k : Nat) : List Entry := c.fieldTable.filter fun e => e.hdr == k

theorem recordLen_of_hdr2 {c : Inputs} {h1 : Half} (h : hdr2Present c h1 = true) (h2 : Half) :
    recordLen c h1 h2 = 6 + presentLen h1 h2 (entriesOf c 1) + presentLen h1 h2 (entriesOf c 2) := by
  rw [recordLen, if_pos h, if_pos h, headerLen, footerLen, entriesOf, entriesOf]
  omega

theorem recordLen_of_not_hdr2 {c : Inputs} {h1 : Half} (h : ¬ hdr2Present c h1 = true) (h2 : Half) :
    recordLen c h1 h2 = 4 + presentLen h1 h2 (entriesOf c 1) := by
  rw [recordLen, if_neg h, if_neg h, headerLen, footerLen, entriesOf]
  omega

/-! ### Under the default table -/

theorem default_totalLen_hdr1 : totalLen (entriesOf defaultInputs 1) = 112 := by decide

theorem default_totalLen_hdr2 : totalLen (entriesOf defaultInputs 2) = 18 := by decide

theorem default_len_pos (k : Nat) : ∀ e ∈ entriesOf defaultInputs k, 1 ≤ e.len := fun e he =>
  have hpos : ∀ e ∈ defaultInputs.fieldTable, 1 ≤ e.len := by decide
  hpos e (List.mem_filter.mp he).1

theorem default_mask_oneBit (k : Nat) : ∀ m ∈ (entriesOf defaultInputs k).map (·.mask), popcount m = 1 := by
  have hone : ∀ e ∈ defaultInputs.fieldTable, popcount e.mask = 1 := by decide
  exact List.forall_mem_map.mpr fun e he => hone e (List.mem_filter.mp he).1

/-- All of header 1 is selected where its bits 15..3 are set. -/
theorem default_hdr1_all_iff (h1 h2 : Half) :
    (hdr2Present defaultInputs h1 = true ∧ ∀ e ∈ entriesOf defaultInputs 1, entryPresent h1 h2 e = true) ↔
      h1 &&& 0xFFF8 = 0xFFF8 := by
  have hunion : unionOf (defaultInputs.hdr2Bit :: (entriesOf defaultInputs 1).map (·.mask)) = 0xFFF8 := by decide
  have hbit : popcount defaultInputs.hdr2Bit = 1 := by decide
  rw [← hunion, and_unionOf_eq_iff h1 (List.forall_mem_cons.mpr ⟨hbit, default_mask_oneBit 1⟩), List.forall_mem_cons,
    hdr2Present_iff]
  exact and_congr Iff.rfl (forall_entryPresent_iff (entryPresent_of_hdr1 h1 h2) _)

theorem default_hdr2_all_iff (h1 h2 : Half) :
    (∀ e ∈ entriesOf defaultInputs 2, entryPresent h1 h2 e = true) ↔ h2 &&& 0x7CC0 = 0x7CC0 := by
  have hunion : unionOf ((entriesOf defaultInputs 2).map (·.mask)) = 0x7CC0 := by decide
  rw [← hunion, and_unionOf_eq_iff h2 (default_mask_oneBit 2)]
  exact forall_entryPresent_iff (entryPresent_of_hdr2 h1 h2) _

theorem default_recordLen_le (h1 h2 : Half) : recordLen defaultInputs h1 h2 ≤ 136 := by
  have hle1 := default_totalLen_hdr1 ▸ presentLen_le_totalLen h1 h2 (entriesOf defaultInputs 1)
  have hle2 := default_totalLen_hdr2 ▸ presentLen_le_totalLen h1 h2 (entriesOf defaultInputs 2)
  by_cases h : hdr2Present defaultInputs h1 = true
  · rw [recordLen_of_hdr2 h]
    omega
  · rw [recordLen_of_not_hdr2 h]
    omega

/-- The greatest length is reached where everything is present, as each entry has a length. -/
theorem default_recordLen_eq_max_iff (h1 h2 : Half) :
    recordLen defaultInputs h1 h2 = 136 ↔ h1 &&& 0xFFF8 = 0xFFF8 ∧ h2 &&& 0x7CC0 = 0x7CC0 := by
  have hle1 := default_totalLen_hdr1 ▸ presentLen_le_totalLen h1 h2 (entriesOf defaultInputs 1)
  have hle2 := default_totalLen_hdr2 ▸ presentLen_le_totalLen h1 h2 (entriesOf defaultInputs 2)
  rw [← default_hdr1_all_iff h1 h2, ← default_hdr2_all_iff h1 h2,
    ← presentLen_eq_totalLen_iff h1 h2 (default_len_pos 1), ← presentLen_eq_totalLen_iff h1 h2 (default_len_pos 2),
    default_totalLen_hdr1, default_totalLen_hdr2]
  by_cases h : hdr2Present defaultInputs h1 = true
  · rw [recordLen_of_hdr2 h]
    simp only [h, true_and]
    omega
  · rw [recordLen_of_not_hdr2 h]
    simp only [h, Bool.false_eq_true, false_and, iff_false]
    omega

theorem default_recordLen_of_no_hdr1 {h1 : Half} (h : h1 &&& 0xFFF8 = 0) (h2 : Half) :
    recordLen defaultInputs h1 h2 = 4 := by
  have hh : ¬ hdr2Present defaultInputs h1 = true := by
    rw [hdr2Present_iff, not_not]
    exact and_eq_zero_of_and_mask h (by decide)
  have habs : ∀ e ∈ entriesOf defaultInputs 1, entryPresent h1 h2 e = false := fun e he => by
    obtain ⟨hmem, hhdr⟩ := List.mem_filter.mp he
    have hhdr : e.hdr = 1 := beq_iff_eq.mp hhdr
    rw [entryPresent_of_hdr1 h1 h2 e hhdr, and_eq_zero_of_and_mask h (default_hdr1_mask e hmem hhdr), bne_self_eq_false]
  rw [recordLen_of_not_hdr2 hh, presentLen_of_absent habs]

/-- The source's scenario: RAW_ACCEL alone. -/
theorem default_recordLen_rawAccel (h2 : Half) : recordLen defaultInputs 0x8000 h2 = 10 := by
  have hh : ¬ hdr2Present defaultInputs 0x8000 = true := by decide
  rw [recordLen_of_not_hdr2 hh, entriesOf, presentLen_filter_hdr (entryPresent_of_hdr1 0x8000 h2)]
  decide

/-- Settles O7: the formula is `recordLen_eq_sum`; under the default table the entries of header 1 add up to 112 bytes and
those of header 2 to 18. -/
theorem recordLengthRule : Obligations.RecordLengthRule := by
  refine ⟨recordLen_eq_sum, fun h1 h2 => ⟨?_, default_recordLen_le h1 h2, fun h => default_recordLen_of_no_hdr1 h h2,
    default_recordLen_eq_max_iff h1 h2⟩, default_recordLen_rawAccel⟩
  rw [recordLen, headerLen, footerLen]
  omega

/-! ## Words written out, status codes, header assembly and the ignored bits (R82, R83, R93, R84, R169) -/

/-- Settles O2: a word of one row is what `encode` writes for it; two words select two rows each, one request is refused, and
any two bytes are a header. -/
theorem opcodeWordsDecode : Obligations.OpcodeWordsDecode := by
  refine ⟨decode_encode (i := .decode) rfl, decode_encode (i := .decodeNoFw) rfl, ?refused, ?head,
    decode_encode (i := .secondaryHeader) rfl, decode_encode (i := .rawAccel) rfl, decode_encode (i := .pressure) rfl,
    ?two1, decode_encode (i := .accelAccuracy) rfl, ?two2, decode_encode (i := .batchModeEn) rfl, ?tail⟩
  case refused | two1 | two2 => decide
  case head | tail => rfl

theorem ofCode_code (st : Status) : Status.ofCode st.code = st := by
  cases st with
  | reserved n => revert n; decide
  | _ => rfl

theorem code_ofCode : ∀ c : BitVec 4, (Status.ofCode c).code = c := by decide

/-- Settles O3: the two maps are inverse code by code, and each named code is the one R93 lists. -/
theorem statusCodesAgree : Obligations.StatusCodesAgree :=
  ⟨ofCode_code, code_ofCode, rfl, rfl, rfl, rfl, rfl, rfl, rfl, rfl, rfl, rfl, rfl, rfl, by decide⟩

/-- Settles O4: the sum is `be16_toNat`, and bit 15 stands 8 places above bit 7. -/
theorem headerAssembly : Obligations.HeaderAssembly := by
  intro b0 b1
  have hv : headerValue [b0, b1] = (b0.setWidth 16 <<< 8) ||| b1.setWidth 16 := rfl
  refine ⟨hv, be16_toNat b0 b1, ?_⟩
  rw [hv]
  simp

/-- Settles O30: each of the five rows is the ignored bit, which answers the state it was given. -/
theorem ignoredBitsDoNothing : Obligations.IgnoredBitsDoNothing :=
  fun _ => ⟨rfl, fun _ => rfl, rfl, rfl, fun _ => rfl⟩

end Sys2Proof.Machine

/-! SUPPORT. The header family: the two request rows (R120, R121), the attempt's end without a record (R214), and the element
step of an element that is short of bytes or ready, with the two headers' extraction (R122, R123, R140 to R142). -/

namespace Sys2Proof.Machine

open Expect

/-! ## The request rows (R120, R121) -/

theorem startAttempt_of_noFirmware {s : State} (h : s.inputs.fwPresent = false) :
    startAttempt s = { s with phase := .finish .dmpNotSupported } := by
  simp [startAttempt, raiseStatus, h]

theorem startAttempt_of_firmware {s : State} (h : s.inputs.fwPresent = true) :
    startAttempt s = { s with record := Record.empty, rem := 0, phase := .need .hdr1 false } := by
  simp [startAttempt, h]

/-- Both request rows are the one request strobe (R94). -/
theorem exec_request_of_startAttempt {s t : State} (h : startAttempt s = t) :
    exec .decode s = .next t ∧ exec .decodeNoFw s = .next t := by
  subst h
  exact ⟨rfl, rfl⟩

/-! ## The end of an attempt that took no byte (R214) -/

theorem fifoRelease_rewind_of_cur_zero {s : State} (h : s.cur = 0) : fifoRelease false s = s := by
  rcases readMode_cases s.inputs.readMode with hm | hm
  · rw [fifoRelease_transactional hm]
    simp [← h]
  · exact fifoRelease_destructive hm false

theorem finishAttempt_of_not_publishes {s : State} {st : Status} (hst : publishes st = false) (h : s.cur = 0) :
    finishAttempt st s = { s with phase := .idle, response := some { status := st, record := none } } := by
  simp [finishAttempt, hst, fifoRelease_rewind_of_cur_zero h]

/-- Settles O17: the request's status publishes no record, so its Finish step rewinds, and `cur` is 0 already. -/
theorem startWithoutFirmware : Obligations.StartWithoutFirmware := by
  refine ⟨fun s hfw => exec_request_of_startAttempt (startAttempt_of_noFirmware hfw), fun s hp hc => ?_⟩
  rw [decoderTurn_finish hp, finishAttempt_of_not_publishes rfl hc]

/-! ## An element that is short of known bytes, and one that is ready (R141, R142) -/

theorem elementInstr_requeries {s : State} {e : Elem} {n : Nat} (hp : s.phase = .need e false)
    (hl : elemLen s.inputs e = some n) (hlt : s.rem.toNat < n) : elementInstr e s = .next (requery e s) := by
  rw [elementInstr, hp, queriedFor_need]
  simp [elementStep, hl, hlt]

theorem requery_phase_cases (e : Elem) (s : State) :
    (requery e s).phase = .need e true ∨ (requery e s).phase = .finish s.portStatus := by
  by_cases ho : s.portStatus = .ok
  · rw [requery_ok ho]; exact .inl rfl
  · rw [requery_error ho]; exact .inr rfl

theorem elementInstr_of_ready {s : State} {e : Elem} {n : Nat} {r : Record} (h : Ready n s)
    (hl : elemLen s.inputs e = some n) (ha : applyElem s.inputs e (readBytes n s) s.record = some r) :
    elementInstr e s = .next { readDone n s with
      record := r
      rem := s.rem - BitVec.ofNat 16 n
      phase := phaseAfter s.inputs r (s.rem - BitVec.ofNat 16 n) e } := by
  obtain ⟨hrem, hok, hthere⟩ := h
  rw [elementInstr, elementStep_extracts hl hrem hok hthere (by rw [nextBytes_eq_readBytes, ha]),
    takeBytes_afterDraw_eq_readDone]

theorem exec_primaryHeader (s : State) : exec .primaryHeader s = elementInstr .hdr1 s := exec_of_elemOf rfl

theorem exec_secondaryHeader (s : State) : exec .secondaryHeader s = elementInstr .hdr2 s := exec_of_elemOf rfl

/-- Settles O18: the count is 0, so the primary header's step is the re-query. -/
theorem startWithFirmware : Obligations.StartWithFirmware := by
  intro s hfw
  obtain ⟨hdecode, hdecodeNoFw⟩ := exec_request_of_startAttempt (startAttempt_of_firmware hfw)
  refine ⟨_, rfl, hdecode, hdecodeNoFw, get_empty, ?_⟩
  rw [exec_primaryHeader, elementInstr_requeries rfl rfl Nat.zero_lt_two]
  exact ⟨_, rfl, requery_txns _ _, requery_q _ _, requery_cur _ _, requery_phase_cases .hdr1 _⟩

/-! ## The two headers (R122, R123) -/

theorem nextElem_hdr1 (c : Inputs) (r : Record) :
    nextElem c r .hdr1 = if r.header &&& c.hdr2Bit ≠ 0 then .hdr2 else firstField c r 0 := by
  simp only [nextElem, hdr2Present_iff]

/-- Settles O19: the header's value is `be16` of its bytes, and R140 gives the next element. -/
theorem primaryHeaderExtracted : Obligations.PrimaryHeaderExtracted := by
  intro s h
  refine ⟨_, rfl, ?_⟩
  rw [exec_primaryHeader, elementInstr_of_ready h rfl rfl, ← nextElem_hdr1]
  rfl

/-- Settles O20: as for the primary header, with the first present field next. -/
theorem secondaryHeaderExtracted : Obligations.SecondaryHeaderExtracted := by
  intro s h
  refine ⟨_, rfl, ?_⟩
  rw [exec_secondaryHeader, elementInstr_of_ready h rfl rfl]
  rfl

end Sys2Proof.Machine

/-! SUPPORT. The dispatch family: the next element by the table's indices (R140), the element step in its phase (R141, R142)
with its frame (R143, R55, R72), and the 19 field rows under the default tables (R150 to R168, R183 to R188). -/

namespace Sys2Proof.Machine

open Expect

/-! ## The next element (R140, R32) -/

theorem entryPresent_iff (h1 h2 : Half) (e : Entry) :
    entryPresent h1 h2 e = true ↔ (if e.hdr = 1 then h1 else h2) &&& e.mask ≠ 0 := bne_iff_ne

theorem entryPresent_eq_false_iff (h1 h2 : Half) (e : Entry) :
    entryPresent h1 h2 e = false ↔ (if e.hdr = 1 then h1 else h2) &&& e.mask = 0 := bne_eq_false_iff_eq

theorem mem_drop_of_getElem? {α : Type} {l : List α} {j m : Nat} {a : α} (hjm : j ≤ m) (h : l[m]? = some a) :
    a ∈ l.drop j :=
  List.mem_iff_getElem?.mpr ⟨m - j, by rwa [List.getElem?_drop, Nat.add_sub_cancel' hjm]⟩

theorem mem_take_drop_of_getElem? {α : Type} {l : List α} {j k m : Nat} {a : α} (hjm : j ≤ m) (hmk : m < k)
    (h : l[m]? = some a) : a ∈ (l.drop j).take (k - j) :=
  List.mem_iff_getElem?.mpr ⟨m - j, by
    rwa [List.getElem?_take, if_pos (by omega), List.getElem?_drop, Nat.add_sub_cancel' hjm]⟩

/-- Entry `k` is the least present one from index `j` on (R140). -/
structure LeastPresent (c : Inputs) (r : Record) (j k : Nat) : Prop where
  ge : j ≤ k
  present : ∃ e, c.fieldTable[k]? = some e ∧ entryPresent r.header r.header2 e = true
  before : ∀ m e, j ≤ m → m < k → c.fieldTable[m]? = some e → entryPresent r.header r.header2 e = false

/-- No entry from index `j` on is present. -/
def NonePresent (c : Inputs) (r : Record) (j : Nat) : Prop :=
  ∀ m e, j ≤ m → c.fieldTable[m]? = some e → entryPresent r.header r.header2 e = false

theorem firstField_cases (c : Inputs) (r : Record) (j : Nat) :
    (firstField c r j = .footer ∧ NonePresent c r j) ∨ ∃ k, firstField c r j = .fld k ∧ LeastPresent c r j k := by
  obtain ⟨hf, hnone⟩ | ⟨k, e, hf, hjk, hk, hp, hbefore⟩ := firstField_spec c r j
  · exact .inl ⟨hf, fun m e hm he => hnone e (mem_drop_of_getElem? hm he)⟩
  · exact .inr ⟨k, hf, hjk, ⟨e, hk, hp⟩, fun m f hm hmk hf => hbefore f (mem_take_drop_of_getElem? hm hmk hf)⟩

theorem LeastPresent.not_nonePresent {c : Inputs} {r : Record} {j k : Nat} (h : LeastPresent c r j k) :
    ¬ NonePresent c r j := fun hnone => by
  obtain ⟨e, hk, hp⟩ := h.present
  simp [hnone k e h.ge hk] at hp

theorem LeastPresent.le {c : Inputs} {r : Record} {j k k' : Nat} (h : LeastPresent c r j k)
    (h' : LeastPresent c r j k') : k ≤ k' := by
  obtain ⟨e, hk, hp⟩ := h'.present
  by_contra hlt
  simp [h.before k' e h'.ge (by omega) hk] at hp

theorem firstField_eq_fld_iff (c : Inputs) (r : Record) (j k : Nat) :
    firstField c r j = .fld k ↔ LeastPresent c r j k := by
  obtain ⟨hf, hnone⟩ | ⟨k', hf, hleast⟩ := firstField_cases c r j
  · simpa [hf] using fun h : LeastPresent c r j k => h.not_nonePresent hnone
  · rw [hf, Elem.fld.injEq]
    exact ⟨fun h => h ▸ hleast, fun h => Nat.le_antisymm (hleast.le h) (h.le hleast)⟩

theorem firstField_eq_footer_iff (c : Inputs) (r : Record) (j : Nat) :
    firstField c r j = .footer ↔ NonePresent c r j := by
  obtain ⟨hf, hnone⟩ | ⟨k, hf, hleast⟩ := firstField_cases c r j
  · simpa [hf] using hnone
  · simpa [hf] using hleast.not_nonePresent

/-- Settles O9: `firstField` by the two characterisations, in the table's own terms; the other clauses are R140's cases. -/
theorem nextElementRule : Obligations.NextElementRule := by
  intro c r
  refine ⟨fun j k => ?_, fun j => ?_, nextElem_hdr1 c r, rfl, fun _ => rfl⟩
  · rw [firstField_eq_fld_iff]
    simp only [← entryPresent_iff, ← entryPresent_eq_false_iff]
    exact ⟨fun ⟨hge, hp, hb⟩ => ⟨hge, hp, hb⟩, fun ⟨hge, hp, hb⟩ => ⟨hge, hp, hb⟩⟩
  · simp only [firstField_eq_footer_iff, NonePresent, entryPresent_eq_false_iff]

/-! ## The element step in its phase (R141, R142) -/

/-- In `Need e` the decoder's turn is the element's instruction. -/
theorem decoderTurn_eq_elementInstr {s : State} {e : Elem} {b : Bool} (h : s.phase = .need e b) :
    decoderTurn s = elementInstr e s := by
  rw [decoderTurn_need h, elementInstr, h, queriedFor_need]

theorem elementStep_of_short {s : State} {e : Elem} {n : Nat} (hl : elemLen s.inputs e = some n)
    (hlt : s.rem.toNat < n) (b : Bool) :
    elementStep e b s = .next (if b then raiseStatus .fifoNoDataAvailable s else requery e s) := by
  cases b <;> simp [elementStep, hl, hlt]

theorem elementStep_of_readFailed {s : State} {e : Elem} {n : Nat} (hl : elemLen s.inputs e = some n)
    (hrem : n ≤ s.rem.toNat) (ho : s.portStatus ≠ .ok) (b : Bool) :
    elementStep e b s = .next (raiseStatus s.portStatus (readFailed n s)) := by
  simp [elementStep, hl, Nat.not_lt.mpr hrem, extract, fifoRead, ho, loseBytes_afterDraw_eq_readFailed]

/-- The re-query by the port's answer (R141, R233). -/
theorem requery_eq (e : Elem) (s : State) : requery e s =
    if s.portStatus ≠ .ok then { transacted s with phase := .finish s.portStatus }
    else { transacted s with rem := BitVec.ofNat 16 (s.q.length - s.cur), phase := .need e true } := by
  by_cases ho : s.portStatus = .ok
  · rw [requery_ok ho, if_neg (not_not.mpr ho)]
    rfl
  · rw [requery_error ho, if_pos ho]
    rfl

/-- Settles O33: the short element's step, by whether the count was queried again; its row takes the same step. -/
theorem availabilityRule : Obligations.AvailabilityRule := by
  intro s e queried n hp hl hlt
  suffices hturn : decoderTurn s = .next _ from
    ⟨_, rfl, hturn, fun i hi => by rw [exec_of_elemOf hi, ← decoderTurn_eq_elementInstr hp, hturn]⟩
  rw [decoderTurn_need hp, elementStep_of_short hl hlt]
  cases queried with
  | true => rfl
  | false => exact congrArg _ (requery_eq e s)

/-! ## Extraction (R142, R143) -/

/-- The completion status by the count before the footer's bytes were taken off (R212, R146). -/
theorem phaseAfter_eq (c : Inputs) (r : Record) (e : Elem) {rem : Half} {n : Nat} (h : n ≤ rem.toNat) :
    phaseAfter c r (rem - BitVec.ofNat 16 n) e =
      if e = .footer then .finish (if rem.toNat - n > 0 then .fifoMoreDataAvailable else .ok)
      else .need (nextElem c r e) false := by
  by_cases he : e = .footer
  · rw [he, phaseAfter_footer, completionStatus, rem_sub_toNat h, if_pos rfl]
  · rw [phaseAfter_need he, if_neg he]

/-- A field is written as the canonical bytes of its wire bytes, under its entry's name (R143). -/
theorem applyElem_fld {c : Inputs} {k : Nat} {ent : Entry} (hk : c.fieldTable[k]? = some ent) (bs : List Byte)
    (r : Record) : applyElem c (.fld k) bs r = (canon c ent.fmt bs).map (r.set ent.name) := by
  simp [applyElem, hk]

theorem readBytes_length {s : State} {n : Nat} (h : n ≤ s.q.length - s.cur) : (readBytes n s).length = n :=
  nextBytes_eq_readBytes n s ▸ nextBytes_length h

/-- Settles O34: a failed READ ends the attempt; otherwise a well-formed table has the element applied, and what is applied
is R143's case of it. -/
theorem extractionRule : Obligations.ExtractionRule := by
  intro s e queried n hp hl hrem hthere _ hw
  refine ⟨fun ho => ?_, fun ho => ?_⟩
  · rw [decoderTurn_need hp, elementStep_of_readFailed hl hrem ho]
    rfl
  · have hlen := readBytes_length hthere
    obtain ⟨r, hr⟩ := applyElem_total hw hl hlen s.record
    refine ⟨r, ?turn, rem_sub_toNat hrem, ?hdr1, ?hdr2, ?footer, fun k ent he hk => ?field⟩
    case turn =>
      rw [decoderTurn_eq_elementInstr hp, elementInstr_of_ready ⟨hrem, ho, hthere⟩ hl hr, phaseAfter_eq _ _ _ hrem]
    case hdr1 | hdr2 | footer =>
      rintro rfl
      exact (Option.some.inj hr).symm
    case field =>
      subst he
      obtain rfl : ent.len = n := by simpa [elemLen, hk] using hl
      obtain ⟨cs, hc, hcl⟩ := canon_total hw (List.mem_of_getElem? hk) hlen
      rw [applyElem_fld hk, hc] at hr
      exact ⟨cs, hc, hcl, (Option.some.inj hr).symm⟩

/-! ## The frame of an element step (R143, R55, R72, R21) -/

/-- What the element step leaves alone, and the transactions it makes. -/
theorem elementStep_static {s t : State} {e : Elem} {b : Bool} (h : elementStep e b s = .next t) :
    t.inputs = s.inputs ∧ t.fifoDepth = s.fifoDepth ∧ t.portErrors = s.portErrors ∧ t.schedule = s.schedule ∧
      t.response = s.response ∧ (t.txns = s.txns ∨ t.txns = s.txns + 1) := by
  obtain ⟨n, -, ⟨-, -, rfl⟩ | ⟨-, -, -, rfl⟩ | ⟨-, -, -, rfl⟩ | ⟨-, -, rfl⟩ | ⟨-, -, -, r, -, rfl⟩⟩ :=
    elementStep_next h <;> simp

/-- In Transactional mode an element step moves the cursor past the element, or not at all. -/
theorem elementStep_cur_transactional {s t : State} {e : Elem} {b : Bool} {n : Nat}
    (hm : s.inputs.readMode = .transactional) (hl : elemLen s.inputs e = some n) (h : elementStep e b s = .next t) :
    t.cur = s.cur ∨ t.cur = s.cur + n := by
  obtain ⟨n', hl', hcases⟩ := elementStep_next h
  obtain rfl : n' = n := Option.some.inj (hl'.symm.trans hl)
  obtain ⟨-, -, rfl⟩ | ⟨-, -, -, rfl⟩ | ⟨-, -, -, rfl⟩ | ⟨-, -, rfl⟩ | ⟨-, -, -, r, -, rfl⟩ := hcases
  · exact .inl rfl
  · exact .inl rfl
  · exact .inl rfl
  · exact .inl (by simp)
  · exact .inr (by rw [takeBytes_transactional (s := s.afterDraw) hm]; rfl)

/-- In Destructive mode an element step takes at most the element's bytes, from the head of the FIFO, and the cursor rests. -/
theorem elementStep_fifo_destructive {s t : State} {e : Elem} {b : Bool} {n : Nat}
    (hm : s.inputs.readMode = .destructive) (hl : elemLen s.inputs e = some n) (h : elementStep e b s = .next t) :
    t.cur = s.cur ∧ ∃ k, k ≤ n ∧ t.q = s.q.drop k := by
  obtain ⟨n', hl', hcases⟩ := elementStep_next h
  obtain rfl : n' = n := Option.some.inj (hl'.symm.trans hl)
  obtain ⟨-, -, rfl⟩ | ⟨-, -, -, rfl⟩ | ⟨-, -, -, rfl⟩ | ⟨-, -, rfl⟩ | ⟨-, -, -, r, -, rfl⟩ := hcases
  · exact ⟨rfl, 0, n'.zero_le, rfl⟩
  · exact ⟨rfl, 0, n'.zero_le, rfl⟩
  · exact ⟨rfl, 0, n'.zero_le, rfl⟩
  · rw [loseBytes_destructive (s := s.afterDraw) hm]
    exact ⟨rfl, _, Nat.min_le_right s.draw.lost n', rfl⟩
  · rw [takeBytes_destructive (s := s.afterDraw) hm]
    exact ⟨rfl, n', n'.le_refl, rfl⟩

/-- An element step leaves the record alone, or applies the element to it (R143). -/
theorem elementStep_record {s t : State} {e : Elem} {b : Bool} (h : elementStep e b s = .next t) :
    t.record = s.record ∨ ∃ bs, applyElem s.inputs e bs s.record = some t.record := by
  obtain ⟨n, -, ⟨-, -, rfl⟩ | ⟨-, -, -, rfl⟩ | ⟨-, -, -, rfl⟩ | ⟨-, -, rfl⟩ | ⟨-, -, -, r, ha, rfl⟩⟩ :=
    elementStep_next h
  · exact .inl rfl
  · exact .inl rfl
  · exact .inl rfl
  · exact .inl (by simp)
  · exact .inr ⟨_, ha⟩

/-- Settles O32: an element's row is its element step, whose frame the lemmas above give part by part. -/
theorem elementFrame : Obligations.ElementFrame := by
  intro i s t e n hi hl h
  rw [exec_of_elemOf hi] at h
  obtain ⟨hin, hdepth, herrors, hsched, hresp, htxns⟩ := elementStep_static h
  refine ⟨hin, hdepth, herrors, hsched, hresp, htxns, fun hm => ⟨elementStep_q hm h, elementStep_cur_transactional hm hl h⟩,
    fun hm => elementStep_fifo_destructive hm hl h, ?_⟩
  obtain hr | ⟨bs, ha⟩ := elementStep_record h
  · simp [hr]
  · exact applyElem_frame ha

/-! ## The index of a field (R86) -/

theorem indexFrom_isSome {n : FieldName} {l : List Entry} (h : ∃ e ∈ l, e.name = n) (j : Nat) :
    (indexFrom n l j).isSome := by
  induction l generalizing j with
  | nil => simp at h
  | cons e es ih =>
    unfold indexFrom
    split
    · rfl
    · next hne => exact ih (by simpa [hne] using h) (j + 1)

theorem fieldIndex_isSome {n : FieldName} {s : State} (h : ∃ e ∈ s.inputs.fieldTable, e.name = n) :
    (fieldIndex n s).isSome := by
  unfold fieldIndex
  split
  · split
    · rfl
    · exact indexFrom_isSome h 0
  · exact indexFrom_isSome h 0

theorem index_eq_of_name_eq {c : Inputs} (hd : namesDistinct c = true) {i j : Nat} {e f : Entry}
    (hi : c.fieldTable[i]? = some e) (hj : c.fieldTable[j]? = some f) (h : e.name = f.name) : i = j := by
  rw [namesDistinct_iff] at hd
  obtain hlt | heq | hlt := Nat.lt_trichotomy i j
  · exact absurd h (hd i j e f hlt hi hj)
  · exact heq
  · exact absurd h.symm (hd j i f e hlt hj hi)

/-- Where names are distinct, the index of a field is that of its one entry, whatever the phase. -/
theorem fieldIndex_of_namesDistinct {s : State} (hd : namesDistinct s.inputs = true) {k : Nat} {ent : Entry}
    (hk : s.inputs.fieldTable[k]? = some ent) : fieldIndex ent.name s = some k := by
  obtain ⟨k', hk'⟩ := Option.isSome_iff_exists.mp (fieldIndex_isSome ⟨ent, List.mem_of_getElem? hk, rfl⟩)
  obtain ⟨f, hf, hname⟩ := Option.map_eq_some_iff.mp (fieldIndex_spec hk')
  rw [hk', index_eq_of_name_eq hd hf hk hname]

/-! ## The default tables' canonical bytes (R183 to R188, R192) -/

/-- Gathering twice through a table that is its own inverse gives the bytes back (R192). -/
theorem wire_wire_of_involution {d : List Nat} (hinv : ∀ p ∈ d.zipIdx, d[p.1]? = some p.2) {w : List Byte}
    (hl : w.length = d.length) : wire d (wire d w) = w := by
  refine List.ext_getElem? fun i => ?_
  cases hij : d[i]? with
  | none =>
    have hi : d.length ≤ i := List.getElem?_eq_none_iff.mp hij
    rw [List.getElem?_eq_none (by simpa using hi), List.getElem?_eq_none (hl ▸ hi)]
  | some j =>
    have hji : d[j]? = some i := hinv (j, i) (List.mk_mem_zipIdx_iff_getElem?.mpr hij)
    obtain ⟨hi, -⟩ := List.getElem?_eq_some_iff.mp hij
    obtain ⟨hj, -⟩ := List.getElem?_eq_some_iff.mp hji
    rw [wire_getElem? hij (by simpa using hj), wire_getElem? hji (hl ▸ hi)]

/-- Every default table is a permutation and its own inverse (R192). -/
theorem defaultPermTables_involutions : ∀ p ∈ defaultPermTables,
    isPermutation p.dest p.dest.length = true ∧ ∀ q ∈ p.dest.zipIdx, p.dest[q.1]? = some q.2 := by decide

/-- A default table scatters as it gathers (R192). -/
theorem canon_default_remap {t : TableId} {d : List Nat} (ht : defaultInputs.permTable t = some d) {w : List Byte}
    (hl : w.length = d.length) : canon defaultInputs (.remap t) w = some (wire d w) := by
  obtain ⟨p, hp, rfl⟩ := Option.map_eq_some_iff.mp ht
  obtain ⟨hperm, hinv⟩ := defaultPermTables_involutions p (List.mem_of_find?_eq_some hp)
  have hremap : remap p.dest (wire p.dest (wire p.dest w)) = some (wire p.dest w) :=
    remap_wire (by rwa [wire_length])
  have hcanon : canon defaultInputs (.remap t) w = remap p.dest w := by simp [canon, ht]
  rw [hcanon]
  rwa [wire_wire_of_involution hinv hl] at hremap

/-- Canonical bytes depend on no input but `PERM_TABLES`. -/
theorem canon_congr {c c' : Inputs} (h : c.permTables = c'.permTables) (fmt : Fmt) (w : List Byte) :
    canon c fmt w = canon c' fmt w := by
  cases fmt <;> simp [canon, Inputs.permTable, h]

/-! ## The field rows (R150 to R168) -/

/-- The row of a default entry extracts it (R142, R143), its canonical bytes being what R180 makes of its wire bytes. -/
theorem fieldExtracted_of_entry {i : Instr} {k hdr len : Nat} {mask : Half} {name : FieldName} {fmt : Fmt}
    {shape : List Byte → List Byte} (hk : defaultFieldTable[k]? = some ⟨hdr, mask, name, len, fmt⟩)
    (hi : fieldOf i = some name) (hc : ∀ w, w.length = len → canon defaultInputs fmt w = some (shape w)) :
    FieldExtracted i k name len shape := by
  intro s ⟨htab, hperm⟩ hready
  have hent : s.inputs.fieldTable[k]? = some ⟨hdr, mask, name, len, fmt⟩ := htab ▸ hk
  have hd : namesDistinct s.inputs = true := by
    rw [namesDistinct, htab]; exact defaultInputs_namesDistinct
  have hidx : fieldIndex name s = some k := fieldIndex_of_namesDistinct hd hent
  have happly : applyElem s.inputs (.fld k) (readBytes len s) s.record
      = some (s.record.set name (shape (readBytes len s))) := by
    rw [applyElem_fld hent, canon_congr (c' := defaultInputs) hperm, hc _ (readBytes_length hready.2.2)]
    rfl
  have hlen : elemLen s.inputs (.fld k) = some len := by simp [elemLen, hent]
  rw [exec_of_elemOf (e := .fld k) (by rw [elemOf_of_fieldOf hi, hidx, Option.map_some]),
    elementInstr_of_ready hready hlen happly]
  rfl

/-- Settles O21: PQUAT6 swaps the bytes of each pair. -/
theorem sixByteAxesExtracted : Obligations.SixByteAxesExtracted := by
  rintro _ rfl
  have hc (w : List Byte) (hl : w.length = 6) := canon_default_remap permTable_pquat6 hl
  exact ⟨fieldExtracted_of_entry rfl rfl hc, fieldExtracted_of_entry rfl rfl hc, fieldExtracted_of_entry rfl rfl hc⟩

/-- Settles O22: RAW_GYRO swaps the bytes of each pair. -/
theorem rawGyroExtracted : Obligations.RawGyroExtracted :=
  fieldExtracted_of_entry rfl rfl fun _ hl => canon_default_remap permTable_rawGyro hl

/-- Settles O23: QUAT6 reverses each group of four bytes. -/
theorem twelveByteAxesExtracted : Obligations.TwelveByteAxesExtracted := by
  rintro _ rfl
  have hc (w : List Byte) (hl : w.length = 12) := canon_default_remap permTable_quat6 hl
  exact ⟨fieldExtracted_of_entry rfl rfl hc, fieldExtracted_of_entry rfl rfl hc, fieldExtracted_of_entry rfl rfl hc⟩

/-- Settles O24: QUAT9 reverses each group of four bytes, and the last pair. -/
theorem nineAxisExtracted : Obligations.NineAxisExtracted := by
  rintro _ rfl
  have hc (w : List Byte) (hl : w.length = 14) := canon_default_remap permTable_quat9 hl
  exact ⟨fieldExtracted_of_entry rfl rfl hc, fieldExtracted_of_entry rfl rfl hc⟩

/-- Settles O25: a raw field's canonical bytes are its wire bytes (R189). -/
theorem rawFieldsExtracted : Obligations.RawFieldsExtracted :=
  ⟨fieldExtracted_of_entry rfl rfl fun _ _ => rfl, fieldExtracted_of_entry rfl rfl fun _ _ => rfl⟩

/-- Settles O26: a scalar's canonical bytes are its wire bytes, whose value is `be32_toNat` (R182). -/
theorem stepDetectorExtracted : Obligations.StepDetectorExtracted :=
  ⟨fieldExtracted_of_entry rfl rfl fun _ _ => rfl, fun b0 b1 b2 b3 => congrArg some (be32_toNat b0 b1 b2 b3)⟩

/-- Settles O27: as for the 32-bit scalar, by `be16_toNat`. -/
theorem scalarFieldsExtracted : Obligations.ScalarFieldsExtracted := by
  have hc (w : List Byte) (_ : w.length = 2) : canon defaultInputs .be16 w = some w := rfl
  exact ⟨fieldExtracted_of_entry rfl rfl hc, fieldExtracted_of_entry rfl rfl hc, fieldExtracted_of_entry rfl rfl hc,
    fieldExtracted_of_entry rfl rfl hc, fieldExtracted_of_entry rfl rfl hc, fun b0 b1 => congrArg some (be16_toNat b0 b1)⟩

/-- Settles O28: ACTIVITY keeps the two states and reverses the timestamp; SEC_ON_OFF swaps its two bytes. -/
theorem activityFieldsExtracted : Obligations.ActivityFieldsExtracted :=
  ⟨fieldExtracted_of_entry rfl rfl fun _ hl => canon_default_remap permTable_activity hl,
    fieldExtracted_of_entry rfl rfl fun _ hl => canon_default_remap permTable_secOnOff hl⟩

end Sys2Proof.Machine

/-! SUPPORT. The byte-reorder family: the reorder law and its round trip (R181, R191), what the six default tables do and
which fields they serve (R183 to R188), and that default elements are big-endian on the wire (R192). -/

namespace Sys2Proof.Machine

open Expect

/-! ## The reorder and its inverse (R181, R191) -/

/-- Settles O10: a reorder answers exactly for permutations, keeps the length, and takes lane `i` to its index. -/
theorem remapScatters : Obligations.RemapScatters :=
  fun dest w => ⟨remap_isSome dest w, fun _ h => ⟨remap_length h, fun _ _ hij => remap_getElem? h hij⟩⟩

/-- A table that takes even one list's wire bytes to a value is a permutation. -/
theorem isPermutation_of_remap_wire {d : List Nat} {c o : List Byte} (h : remap d (wire d c) = some o) :
    isPermutation d d.length = true := by
  rw [← wire_length d c, ← remap_isSome, h, Option.isSome_some]

/-- A permutation reorders any wire list of its length, and the result's wire bytes are that list. -/
theorem exists_remap_of_isPermutation {d : List Nat} {w : List Byte} (hp : isPermutation d w.length = true) :
    ∃ c, remap d w = some c ∧ c.length = w.length ∧ wire d c = w := by
  obtain ⟨c, hc⟩ := Option.isSome_iff_exists.mp ((remap_isSome d w).trans hp)
  exact ⟨c, hc, remap_length hc, wire_remap hc⟩

/-- Settles O11: for the converse of the first law, the list of zeros already shows that the table is a permutation. -/
theorem remapRoundTrip : Obligations.RemapRoundTrip := by
  rintro dest _ rfl
  refine ⟨⟨fun hp c hc => remap_wire (hc ▸ hp), fun h => ?_⟩, fun hp w hw => ?_⟩
  · exact isPermutation_of_remap_wire (h (List.replicate dest.length 0) List.length_replicate)
  · obtain ⟨c, hc, hl, hwire⟩ := exists_remap_of_isPermutation (hw ▸ hp : isPermutation dest w.length = true)
    exact ⟨c, hc, hl.trans hw, hwire⟩

/-! ## Elements of gathered bytes (R190, R192) -/

/-- A table reverses the bytes of an element: index `i` of the element takes the byte that stands `i` from its end. -/
abbrev ReversesElement (d : List Nat) (v : ElementView) : Prop :=
  ∀ i, i < v.width / 8 → d[v.offset + i]? = some (v.offset + (v.width / 8 - 1 - i))

theorem byteAt_wire {d : List Nat} {i j : Nat} (h : d[i]? = some j) (w : List Byte) :
    byteAt (wire d w) i = byteAt w j := by
  simp [wire, byteAt, h]

/-- Two bytes that a gather swaps make the same value in the other byte order. -/
theorem le16_wire {d : List Nat} {o : Nat} (h0 : d[o]? = some (o + 1)) (h1 : d[o + 1]? = some o) (w : List Byte) :
    le16 (wire d w) o = be16 (byteAt w o) (byteAt w (o + 1)) := by
  rw [le16, byteAt_wire h0, byteAt_wire h1]

/-- Four bytes that a gather reverses make the same value in the other byte order. -/
theorem le32_wire {d : List Nat} {o : Nat} (h0 : d[o]? = some (o + 3)) (h1 : d[o + 1]? = some (o + 2))
    (h2 : d[o + 2]? = some (o + 1)) (h3 : d[o + 3]? = some o) (w : List Byte) :
    le32 (wire d w) o = be32 (byteAt w o) (byteAt w (o + 1)) (byteAt w (o + 2)) (byteAt w (o + 3)) := by
  rw [le32, byteAt_wire h0, byteAt_wire h1, byteAt_wire h2, byteAt_wire h3]

/-- Elements are 8, 16 or 32 bits wide (R190). -/
theorem views_width {n : FieldName} {v : ElementView} (hv : v ∈ views n) :
    v.width = 8 ∨ v.width = 16 ∨ v.width = 32 := by
  unfold views at hv
  split at hv <;> revert v <;> decide

/-- Where a table reverses an element's bytes, its little-endian value after the gather is its big-endian value before. -/
theorem leValue_wire {d : List Nat} {v : ElementView} (hv : v.width = 8 ∨ v.width = 16 ∨ v.width = 32)
    (hrev : ReversesElement d v) (w : List Byte) : leValue v (wire d w) = beValue v w := by
  obtain h | h | h := hv <;> rw [ReversesElement, h] at hrev <;> rw [leValue, beValue, h]
  · exact congrArg BitVec.toNat (byteAt_wire (hrev 0 (by decide)) w)
  · exact congrArg BitVec.toNat (le16_wire (hrev 0 (by decide)) (hrev 1 (by decide)) w)
  · exact congrArg BitVec.toNat
      (le32_wire (hrev 0 (by decide)) (hrev 1 (by decide)) (hrev 2 (by decide)) (hrev 3 (by decide)) w)

/-! ## The default tables (R183 to R188, R192) -/

/-- Every table that a default id names is its own inverse. -/
theorem default_permTable_involution {t : TableId} {d : List Nat} (ht : defaultInputs.permTable t = some d) {i j : Nat}
    (hij : d[i]? = some j) : d[j]? = some i := by
  obtain ⟨p, hp, rfl⟩ := Option.map_eq_some_iff.mp ht
  exact (defaultPermTables_involutions p (List.mem_of_find?_eq_some hp)).2 (j, i)
    (List.mk_mem_zipIdx_iff_getElem?.mpr hij)

/-- The table that a default entry names reverses the bytes of each of the entry's elements. -/
theorem defaultEntries_reverse_elements : ∀ e ∈ defaultFieldTable, ∀ p ∈ defaultPermTables, e.fmt = .remap p.id →
    ∀ v ∈ views e.name, ReversesElement p.dest v := by decide

theorem reversesElement_of_default {e : Entry} (he : e ∈ defaultFieldTable) {t : TableId} {d : List Nat}
    (hf : e.fmt = .remap t) (ht : defaultInputs.permTable t = some d) : ∀ v ∈ views e.name, ReversesElement d v := by
  obtain ⟨p, hp, rfl⟩ := Option.map_eq_some_iff.mp ht
  have hid : p.id = t := by simpa using List.find?_some hp
  exact defaultEntries_reverse_elements e he p (List.mem_of_find?_eq_some hp) (hid ▸ hf)

theorem default_permTable_length {e : Entry} (he : e ∈ defaultFieldTable) {t : TableId} {d : List Nat}
    (hf : e.fmt = .remap t) (ht : defaultInputs.permTable t = some d) : d.length = e.len := by
  obtain ⟨d', hd', hp⟩ := permTable_of_wf defaultInputs_wf he hf
  obtain rfl : d = d' := Option.some.inj (ht.symm.trans hd')
  exact ((isPermutation_iff d e.len).mp hp).1

/-- Settles O13: the reversed elements give the values by `leValue_wire`, the involution that scatter and gather agree. -/
theorem defaultElementsAreBigEndian : Obligations.DefaultElementsAreBigEndian := by
  intro e he t dest hf ht
  have hrev := reversesElement_of_default he hf ht
  refine ⟨fun i j hij => default_permTable_involution ht hij, hrev, fun w hw => ⟨?_, fun v hv => ?_⟩⟩
  · rw [hf]
    exact canon_default_remap ht (hw.trans (default_permTable_length he hf ht).symm)
  · exact leValue_wire (views_width hv) (hrev v hv) w

/-- Settles O12: each effect is the gather through the listed table, by `canon_default_remap`; the users are read off the
default field table. -/
theorem defaultTablesReorder : Obligations.DefaultTablesReorder := by
  intro w0 w1 w2 w3 w4 w5 w6 w7 w8 w9 w10 w11 w12 w13
  exact ⟨rfl, canon_default_remap permTable_pquat6 rfl, canon_default_remap permTable_quat6 rfl,
    canon_default_remap permTable_quat9 rfl, canon_default_remap permTable_rawGyro rfl,
    canon_default_remap permTable_activity rfl, canon_default_remap permTable_secOnOff rfl,
    by decide, by decide, by decide, by decide, by decide, by decide⟩

end Sys2Proof.Machine

/-! SUPPORT. The footer and completion family: the footer's extraction and the completion status (R210, R212), and the
Finish step's release and response (R214, R215), the one move that gives a response. -/

namespace Sys2Proof.Machine

open Expect

/-! ## The footer (R210, R212) -/

theorem exec_footer (s : State) : exec .footer s = elementInstr .footer s := exec_of_elemOf rfl

/-- Settles O29: the footer is ready, so its value is `be16` of its bytes, and the count left gives the status. -/
theorem footerExtracted : Obligations.FooterExtracted := by
  intro s h
  rw [exec_footer, elementInstr_of_ready h rfl rfl, phaseAfter_eq _ _ _ h.1, if_pos rfl]
  simp only [gt_iff_lt, Nat.sub_pos_iff_lt]
  rfl

/-! ## The Finish step (R214, R215) -/

/-- What the Finish step answers, with the statuses that publish the record named (R215). -/
theorem finishAttempt_response_eq (s : State) (st : Status) : (finishAttempt st s).response =
    some { status := st, record := if st = .ok ∨ st = .fifoMoreDataAvailable then some s.record else none } := by
  simp only [finishAttempt_response, publishes_iff]

/-- The release in both modes (R56): a Transactional FIFO commits or rewinds, a Destructive one stays. -/
theorem fifoRelease_eq (commit : Bool) (s : State) : fifoRelease commit s = { s with
    q := if s.inputs.readMode = .transactional ∧ commit = true then s.q.drop s.cur else s.q
    cur := if s.inputs.readMode = .transactional then 0 else s.cur } := by
  rcases readMode_cases s.inputs.readMode with hm | hm
  · cases commit <;> simp [fifoRelease_transactional hm, hm]
  · simp [fifoRelease_destructive hm, hm]

/-- Settles O36: the phase's status is the one the attempt finishes with, and releases by whether it is published. -/
theorem finishStep : Obligations.FinishStep := by
  intro s st hp
  rw [decoderTurn_finish hp, finishAttempt, fifoRelease_eq]
  simp only [publishes_iff]

/-! ## Only the Finish step responds -/

/-- A decoder's turn leaves the response alone, or is the Finish step. -/
theorem decoderTurn_response {s t : State} (h : decoderTurn s = .next t) :
    t.response = s.response ∨ ∃ st, s.phase = .finish st ∧ t = finishAttempt st s := by
  obtain ⟨-, rfl⟩ | ⟨-, rfl⟩ | hfinish | ⟨e, b, -, he⟩ := decoderTurn_next h
  · exact .inl rfl
  · exact .inl (startAttempt_response s)
  · exact .inr hfinish
  · obtain ⟨-, -, -, -, hresp, -⟩ := elementStep_static he
    exact .inl hresp

/-- Settles O50: of the other agents' moves, an append and a configuration leave the response alone, and a request and a
reset take it away. -/
theorem onlyFinishResponds : Obligations.OnlyFinishResponds := by
  intro s t ht
  obtain ⟨sch, hd⟩ | ⟨b, bs, rest, -, rfl⟩ | ⟨rest, -, rfl⟩ | ⟨c, rest, -, -, rfl⟩ | ⟨c, rest, -, rfl⟩ :=
    step_cases ht
  · obtain hresp | ⟨st, hp, rfl⟩ := decoderTurn_response hd
    · exact .inl hresp
    · exact .inr (.inr ⟨st, hp, finishAttempt_phase _ st, finishAttempt_response_eq _ st⟩)
  · exact .inl rfl
  · exact .inr (.inl rfl)
  · exact .inl rfl
  · exact .inr (.inl rfl)

end Sys2Proof.Machine

/-! SUPPORT. The exceptions family: the READ of bytes that are not there (R245), the statuses that a response can carry (R231,
R233, R234), and the refusal of a PORT_ERRORS that R235 excludes. -/

namespace Sys2Proof.Machine

/-! ## Underflow (R245, R55) -/

/-- With a count that suffices, the element's READ of bytes that are not there is the fault, whatever the phase says of a
re-query. -/
theorem elementStep_underflows {s : State} {e : Elem} {n : Nat} (hl : elemLen s.inputs e = some n)
    (hrem : n ≤ s.rem.toNat) (ho : s.portStatus = .ok) (hshort : s.q.length - s.cur < n) (b : Bool) :
    elementStep e b s = .fault .fifoUnderflow := by
  have hread : fifoRead n s = .underflow := (readTransaction s n).2.1 ho hshort
  simp [elementStep, hl, Nat.not_lt.mpr hrem, extract, hread]

/-- Settles O35: an element's row is its element step, and the count lets that step come to its READ. -/
theorem underflowFaults : Obligations.UnderflowFaults := by
  intro i s e n hi hl hrem ho hshort
  rw [exec_of_elemOf hi, elementInstr, elementStep_underflows hl hrem ho hshort]

/-! ## The statuses listed (R231) -/

theorem mayRespond_iff (l : List Status) (st : Status) : mayRespond l st = true ↔
    st = .ok ∨ st = .fifoMoreDataAvailable ∨ st = .fifoNoDataAvailable ∨ st = .dmpNotSupported ∨ st ∈ l := by
  simp [mayRespond, or_assoc]

theorem mayRespond_portStatus (s : State) : mayRespond s.portErrors s.portStatus = true := by
  rw [mayRespond_iff]
  obtain hok | hmem := portStatus_mem s
  · exact .inl hok
  · exact .inr (.inr (.inr (.inr hmem)))

theorem mayRespond_of_publishes {st : Status} (l : List Status) (h : publishes st = true) : mayRespond l st = true := by
  rw [mayRespond_iff]
  obtain hok | hmore := (publishes_iff st).mp h
  · exact .inl hok
  · exact .inr (.inl hmore)

theorem mayRespond_fifoNoDataAvailable (l : List Status) : mayRespond l .fifoNoDataAvailable = true := rfl

theorem mayRespond_dmpNotSupported (l : List Status) : mayRespond l .dmpNotSupported = true := rfl

theorem statusesListed_iff (s : State) : StatusesListed s = true ↔
    (∀ st, s.phase = .finish st → mayRespond s.portErrors st = true) ∧
      ∀ r, s.response = some r → mayRespond s.portErrors r.status = true := by
  rw [StatusesListed, Bool.and_eq_true]
  refine and_congr ?phase ?response
  case phase => cases s.phase <;> simp
  case response => cases s.response <;> simp

/-! ## Where a status comes from (R212, R232, R233) -/

/-- An attempt that ends at its start has no firmware (R120). -/
theorem startAttempt_finish {s : State} {st : Status} (h : (startAttempt s).phase = .finish st) :
    st = .dmpNotSupported := by
  cases hfw : s.inputs.fwPresent with
  | true => rw [startAttempt_of_firmware hfw] at h; cases h
  | false => rw [startAttempt_of_noFirmware hfw] at h; cases h; rfl

/-- Only the footer's extraction completes a record, with a status that publishes it (R212). -/
theorem phaseAfter_finish {c : Inputs} {r : Record} {rem : Half} {e : Elem} {st : Status}
    (h : phaseAfter c r rem e = .finish st) : publishes st = true := by
  by_cases he : e = .footer
  · rw [he, phaseAfter_footer] at h
    cases h
    exact publishes_completionStatus rem
  · rw [phaseAfter_need he] at h
    cases h

/-- An element step that ends the attempt is short after its re-query (R232), passes on the port's status (R233), or completes
the record (R212). -/
theorem elementStep_finish {s t : State} {e : Elem} {b : Bool} {st : Status} (h : elementStep e b s = .next t)
    (hp : t.phase = .finish st) : mayRespond s.portErrors st = true := by
  obtain ⟨n, -, ⟨-, -, rfl⟩ | ⟨-, -, -, rfl⟩ | ⟨-, -, -, rfl⟩ | ⟨-, -, rfl⟩ | ⟨-, -, -, r, -, rfl⟩⟩ :=
    elementStep_next h
  · cases hp
    exact mayRespond_fifoNoDataAvailable _
  · cases hp
  · cases hp
    exact mayRespond_portStatus s
  · cases hp
    exact mayRespond_portStatus s
  · exact mayRespond_of_publishes _ (phaseAfter_finish hp)

/-! ## Every step keeps the statuses listed -/

theorem statusesListed_finishAttempt {s : State} {st : Status} (hst : mayRespond s.portErrors st = true) :
    StatusesListed (finishAttempt st s) = true := by
  simp [StatusesListed, hst]

/-- A turn of the decoder sets the status about to be given where it ends the attempt, and gives it at Finish. -/
theorem statusesListed_decoderTurn {s t : State} (h : StatusesListed s = true) (ht : decoderTurn s = .next t) :
    StatusesListed t = true := by
  obtain ⟨hfinish, hresponse⟩ := (statusesListed_iff s).mp h
  obtain ⟨-, rfl⟩ | ⟨-, rfl⟩ | ⟨st, hp, rfl⟩ | ⟨e, b, -, he⟩ := decoderTurn_next ht
  · exact h
  · rw [statusesListed_iff, startAttempt_portErrors, startAttempt_response]
    exact ⟨fun st hst => startAttempt_finish hst ▸ mayRespond_dmpNotSupported _, hresponse⟩
  · exact statusesListed_finishAttempt (hfinish st hp)
  · obtain ⟨-, -, herrors, -, hresp, -⟩ := elementStep_static he
    rw [statusesListed_iff, herrors, hresp]
    exact ⟨fun st hst => elementStep_finish he hst, hresponse⟩

/-- A request takes the response away and begins an attempt, which has no status yet (R28). -/
theorem statusesListed_acceptRequest (s : State) : StatusesListed (acceptRequest s) = true := rfl

/-- Settles O55: the decoder's turn by `statusesListed_decoderTurn`; no other agent gives a status. -/
theorem stepKeepsStatusesListed : Obligations.StepKeepsStatusesListed := by
  intro s t h ht
  obtain ⟨sch, hd⟩ | ⟨b, bs, rest, -, rfl⟩ | ⟨rest, -, rfl⟩ | ⟨c, rest, -, -, rfl⟩ | ⟨c, rest, -, rfl⟩ :=
    step_cases ht
  · exact statusesListed_decoderTurn (s := { s with schedule := sch }) h hd
  · exact h
  · exact statusesListed_acceptRequest _
  · exact h
  · exact statusesListed_of_idle rfl rfl

/-! ## The refusal of PORT_ERRORS (R235) -/

theorem portErrorsOk_iff (l : List Status) : portErrorsOk l = true ↔
    .ok ∉ l ∧ .fifoNoDataAvailable ∉ l ∧ .fifoMoreDataAvailable ∉ l ∧ .dmpNotSupported ∉ l := by
  simp [portErrorsOk, and_assoc]

/-- `PORT_ERRORS` is looked at behind the tables, before the schedule and the phase are. -/
theorem step_of_not_portErrorsOk {s : State} (hw : s.inputs.wf = true) (h : ¬ portErrorsOk s.portErrors = true) :
    step s = .refused .illFormedPortErrors := by
  simp [step, takeTurn, hw, h]

/-- Settles O44: a set that holds one of the four statuses fails the check of R235. -/
theorem badPortErrorsRefused : Obligations.BadPortErrorsRefused := by
  intro s hw hmem
  refine step_of_not_portErrorsOk hw fun hok => ?_
  obtain ⟨h1, h2, h3, h4⟩ := (portErrorsOk_iff s.portErrors).mp hok
  obtain h | h | h | h := hmem
  · exact h1 h
  · exact h2 h
  · exact h3 h
  · exact h4 h

end Sys2Proof.Machine

/-! SUPPORT. The reset family: a reset puts the registers at their reset values and keeps the FIFO's bytes (R260,
R261). -/

namespace Sys2Proof.Machine

/-- Settles O42: the move that comes next is the reset, which a configured step makes in any phase; the record it leaves is the
empty one. -/
theorem decoderResetRule : Obligations.DecoderResetRule := by
  intro s c rest hc hs
  rw [step_of_reset hc hs, resetDecoder, Record.empty]

end Sys2Proof.Machine
